-- ==== Sys2Proof/Word.lean ====
section
/-! DEFINITION. The word types of the block: 32-bit command and response words (rules R12, R70) and PCM bytes (R7, R52).
Sample values, rates and remainders are exact rationals (`Rat`), as rule R8 says. -/

namespace Sys2Proof

/-- A command word or a 32-bit response word (R70, R83). -/
abbrev Word := BitVec 32

/-- One byte of PCM memory; its signed reading happens at the PCM read (R53, R77). -/
abbrev Byte := BitVec 8

end Sys2Proof
end

