-- ==== Sys2Proof/Syntax.lean ====
section
/-! DEFINITION. The 19 commands of rule R78 with their operand fields (R71 to R77), one constructor per row of
`spec/opcode_table.json`. Each field has the width the encoding gives it. -/

namespace Sys2Proof

/-- A channel number 0..3 (R10, R72). -/
abbrev Chan := Fin 4

/-- A sample slot number 0..31, 0 = none (R10, R22, R73). -/
abbrev Slot := BitVec 5

/-- The side of a stereo frame: `L` = 0, `R` = 1 (R10, R76). -/
inductive Side where
  | left
  | right
  deriving DecidableEq, Repr

/-- A command of the block (R78). -/
inductive Instr where
  | nop
  | pcmptr (a : BitVec 22)
  | pcmwr (b : Byte)
  | slen (s : Slot) (v : BitVec 16)
  | slps (s : Slot) (v : BitVec 16)
  | slpl (s : Slot) (v : BitVec 16)
  | csmp (c : Chan) (s : Slot)
  | cper (c : Chan) (p : BitVec 12)
  | cft (c : Chan) (f : BitVec 4)
  | cvol (c : Chan) (k : BitVec 7)
  | cidx (c : Chan) (i : BitVec 17)
  | csil (c : Chan) (x : Bool)
  | cloop (c : Chan) (x : Bool)
  | gen (c : Chan)
  | mix (c : Chan)
  | swap
  | stat
  | chrd (c : Chan) (sel : BitVec 3)
  | frd (side : Side) (j : BitVec 16)
  deriving DecidableEq, Repr

end Sys2Proof
end

