-- ==== Sys2Proof/WellFormed.lean ====
section
/-! DEFINITION. The operand checks of rule R81, as a check on the command alone. The field widths of `Syntax.lean` already exclude
everything else; a command that fails this check still decodes and still has a meaning: it raises `OperandRange`. -/

namespace Sys2Proof

/-- Rule R81 for a block with `nout` frames per tick: a descriptor write names a slot 1..31, `CHRD` selects one of the registers
0..5, `FRD` names a frame below `nout`. -/
def Instr.wellFormed (nout : Nat) : Instr → Bool
  | .slen s _ | .slps s _ | .slpl s _ => s != 0#5
  | .chrd _ sel => decide (sel.toNat < 6)
  | .frd _ j => decide (j.toNat < nout)
  | .nop | .pcmptr _ | .pcmwr _ | .csmp _ _ | .cper _ _ | .cft _ _ | .cvol _ _ | .cidx _ _ | .csil _ _ | .cloop _ _
  | .gen _ | .mix _ | .swap | .stat => true

end Sys2Proof
end

