-- ==== Sys2Proof/Decode.lean ====
section
/-! DEFINITION. Decoding (R70 to R81): from a 32-bit word to a command or none (the word is illegal, R80), the encoder written from
the same formats, and the opcode table of rule R78 as data. A command is one parallel 32-bit word: there is no byte order and
no second word (R56, R70). -/

namespace Sys2Proof

/-- `W[lo+len-1 : lo]` (R10). -/
def bits (w : Word) (lo len : Nat) : BitVec len := w.extractLsb' lo len

/-- The operation code, `W[31:27]` (R70). -/
def opField (w : Word) : BitVec 5 := bits w 27 5

/-- The channel number, `W[26:25]` (R70, R72). -/
def chField (w : Word) : Chan := (bits w 25 2).toFin

/-- A one-bit operand (R72 with w = 1). -/
def flagField (w : Word) : Bool := w.getLsbD 0

/-- `W[16]`: 0 = left, 1 = right (R76). -/
def sideField (w : Word) : Side := if w.getLsbD 16 then .right else .left

/-- The command, when the must-be-zero bits `z` of its format are zero; none when one of them is 1 (R80). -/
def whenZero {n : Nat} (z : BitVec n) (i : Instr) : Option Instr := if z = 0#n then some i else none

/-- Format C with an operand of width `len`: `W[24]` and `W[23:len]` must be zero (R72). -/
def formatC (w : Word) (len : Nat) (i : Instr) : Option Instr := whenZero (bits w len (25 - len)) i

/-- Decoding (R79): the formats R71 to R76 of the rows of R78, by operation code; an unassigned code or a must-be-zero bit that
is 1 gives none (R80). -/
def decode (w : Word) : Option Instr :=
  match opField w with
  | 0x00#5 => whenZero (bits w 0 27) .nop
  | 0x01#5 => whenZero (bits w 22 5) (.pcmptr (bits w 0 22))
  | 0x02#5 => whenZero (bits w 8 19) (.pcmwr (bits w 0 8))
  | 0x03#5 => whenZero (bits w 21 6) (.slen (bits w 16 5) (bits w 0 16))
  | 0x04#5 => whenZero (bits w 21 6) (.slps (bits w 16 5) (bits w 0 16))
  | 0x05#5 => whenZero (bits w 21 6) (.slpl (bits w 16 5) (bits w 0 16))
  | 0x08#5 => formatC w 5 (.csmp (chField w) (bits w 0 5))
  | 0x09#5 => formatC w 12 (.cper (chField w) (bits w 0 12))
  | 0x0A#5 => formatC w 4 (.cft (chField w) (bits w 0 4))
  | 0x0B#5 => formatC w 7 (.cvol (chField w) (bits w 0 7))
  | 0x0C#5 => formatC w 17 (.cidx (chField w) (bits w 0 17))
  | 0x0D#5 => formatC w 1 (.csil (chField w) (flagField w))
  | 0x0E#5 => formatC w 1 (.cloop (chField w) (flagField w))
  | 0x10#5 => formatC w 0 (.gen (chField w))
  | 0x11#5 => formatC w 0 (.mix (chField w))
  | 0x12#5 => whenZero (bits w 0 27) .swap
  | 0x18#5 => whenZero (bits w 0 27) .stat
  | 0x19#5 => formatC w 3 (.chrd (chField w) (bits w 0 3))
  | 0x1A#5 => whenZero (bits w 17 10) (.frd (sideField w) (bits w 0 16))
  | _ => none

/-- The channel's two bits. -/
def chBits (c : Chan) : BitVec 2 := BitVec.ofFin c

/-- The side's bit (R76). -/
def sideBit : Side → BitVec 1
  | .left => 0#1
  | .right => 1#1

/-- The word of a command, its fields laid out as R71 to R76 and R78 say. -/
def encode : Instr → Word
  | .nop => 0x00#5 ++ 0#27
  | .pcmptr a => 0x01#5 ++ 0#5 ++ a
  | .pcmwr b => 0x02#5 ++ 0#19 ++ b
  | .slen s v => 0x03#5 ++ 0#6 ++ s ++ v
  | .slps s v => 0x04#5 ++ 0#6 ++ s ++ v
  | .slpl s v => 0x05#5 ++ 0#6 ++ s ++ v
  | .csmp c s => 0x08#5 ++ chBits c ++ 0#20 ++ s
  | .cper c p => 0x09#5 ++ chBits c ++ 0#13 ++ p
  | .cft c f => 0x0A#5 ++ chBits c ++ 0#21 ++ f
  | .cvol c k => 0x0B#5 ++ chBits c ++ 0#18 ++ k
  | .cidx c i => 0x0C#5 ++ chBits c ++ 0#8 ++ i
  | .csil c x => 0x0D#5 ++ chBits c ++ 0#24 ++ BitVec.ofBool x
  | .cloop c x => 0x0E#5 ++ chBits c ++ 0#24 ++ BitVec.ofBool x
  | .gen c => 0x10#5 ++ chBits c ++ 0#25
  | .mix c => 0x11#5 ++ chBits c ++ 0#25
  | .swap => 0x12#5 ++ 0#27
  | .stat => 0x18#5 ++ 0#27
  | .chrd c sel => 0x19#5 ++ chBits c ++ 0#22 ++ sel
  | .frd side j => 0x1A#5 ++ 0#10 ++ sideBit side ++ j

/-- The host's numbering of a word's bits is the spec's own: bit 0 is the least significant bit of the one 32-bit word (R10, R70),
so the command is `w` itself; a row wider than one word does not exist. -/
def decodeTableWord (nbits w : Nat) : Option Instr :=
  if nbits ≤ 32 then decode (BitVec.ofNat 32 w) else none

/-! The opcode table of rule R78, a second reading of the encoding beside the formats. -/

/-- One row of the table of R78. -/
structure OpRow where
  mnemonic : String
  mtch     : Word
  mask     : Word
  deriving DecidableEq, Repr

/-- The word is the row's command (R78). -/
def OpRow.hit (r : OpRow) (w : Word) : Bool := (w &&& r.mask) == r.mtch

/-- The configuration rows of R78. -/
def opRowsConfig : List OpRow := [
  ⟨"NOP", 0x00000000#32, 0xFFFFFFFF#32⟩,
  ⟨"PCMPTR", 0x08000000#32, 0xFFC00000#32⟩,
  ⟨"PCMWR", 0x10000000#32, 0xFFFFFF00#32⟩,
  ⟨"SLEN", 0x18000000#32, 0xFFE00000#32⟩,
  ⟨"SLPS", 0x20000000#32, 0xFFE00000#32⟩,
  ⟨"SLPL", 0x28000000#32, 0xFFE00000#32⟩,
  ⟨"CSMP", 0x40000000#32, 0xF9FFFFE0#32⟩,
  ⟨"CPER", 0x48000000#32, 0xF9FFF000#32⟩,
  ⟨"CFT", 0x50000000#32, 0xF9FFFFF0#32⟩,
  ⟨"CVOL", 0x58000000#32, 0xF9FFFF80#32⟩,
  ⟨"CIDX", 0x60000000#32, 0xF9FE0000#32⟩,
  ⟨"CSIL", 0x68000000#32, 0xF9FFFFFE#32⟩,
  ⟨"CLOOP", 0x70000000#32, 0xF9FFFFFE#32⟩]

/-- The tick and read-back rows of R78. -/
def opRowsTick : List OpRow := [
  ⟨"GEN", 0x80000000#32, 0xF9FFFFFF#32⟩,
  ⟨"MIX", 0x88000000#32, 0xF9FFFFFF#32⟩,
  ⟨"SWAP", 0x90000000#32, 0xFFFFFFFF#32⟩,
  ⟨"STAT", 0xC0000000#32, 0xFFFFFFFF#32⟩,
  ⟨"CHRD", 0xC8000000#32, 0xF9FFFFF8#32⟩,
  ⟨"FRD", 0xD0000000#32, 0xFFFE0000#32⟩]

/-- The table of R78. -/
def opRows : List OpRow := opRowsConfig ++ opRowsTick

/-- The mnemonic of a command (R78, R85). -/
def Instr.mnemonic : Instr → String
  | .nop => "NOP"
  | .pcmptr _ => "PCMPTR"
  | .pcmwr _ => "PCMWR"
  | .slen _ _ => "SLEN"
  | .slps _ _ => "SLPS"
  | .slpl _ _ => "SLPL"
  | .csmp _ _ => "CSMP"
  | .cper _ _ => "CPER"
  | .cft _ _ => "CFT"
  | .cvol _ _ => "CVOL"
  | .cidx _ _ => "CIDX"
  | .csil _ _ => "CSIL"
  | .cloop _ _ => "CLOOP"
  | .gen _ => "GEN"
  | .mix _ => "MIX"
  | .swap => "SWAP"
  | .stat => "STAT"
  | .chrd _ _ => "CHRD"
  | .frd _ _ => "FRD"

end Sys2Proof
end

