-- ==== Sys2Proof/Config.lean ====
section
/-! DEFINITION. The configuration record `CFG` of rule R6 as plain data, the open values of the spec as constants without a body
(U1 to U5 of `93_implementation_defined.md`), the configuration of the machine after reset, and the two reference
configurations of rule R6, which only the tests use.

A function-valued parameter (`CONV`, `NUM.rnd`, the initial PCM) is a SELECTOR here: the reference choice of the spec,
or `custom k`, an admissible choice about which nothing is known. What a selector means is in `Machine/Params.lean` and
`Machine/Convert.lean`. -/

namespace Sys2Proof

/-- The state of a converter instance (R135): the ratio last set or processed, which every instance records
(R36, R137), and whatever else the instance remembers, as a list of rationals (DESIGN CHOICE, log 4). -/
structure ConvState where
  ratio  : Rat
  memory : List Rat
  deriving DecidableEq, Repr

/-- The converter `CONV` of rule R135. -/
inductive ConvSel where
  /-- `CONV_LIN`, the reference converter of rule R140. -/
  | linear
  /-- Any other converter that meets rules R135 to R139 and whose construction succeeds (U2). -/
  | custom (k : Nat)
  /-- A converter whose construction fails: `CONV.init` = `fail` (R186, R213, U19). -/
  | failing
  deriving DecidableEq, Repr

/-- The rounding hook `NUM.rnd` of rule R8. -/
inductive RndSel where
  /-- The reference: no rounding. -/
  | identity
  /-- Any other function that meets the constraints of R8 and U1. -/
  | custom (k : Nat)
  deriving DecidableEq, Repr

/-- What PCM holds where nothing has been written (R41, R65, U5). -/
inductive PcmSel where
  /-- Every byte holds `b` (used by tests only; the spec's own vectors leave the contents unspecified). -/
  | filled (b : Byte)
  /-- Unspecified but stable contents. -/
  | custom (k : Nat)
  deriving DecidableEq, Repr

/-- The configuration record of rule R6, less `NCH` = 4 and `NSMP` = 31, "(fixed)" and sizes in State, the derived `NOUT` (`Cfg.nout`), and
`SMP_ENC` (`Config.smpEnc`). `TICK_SEC`, `BASE` and `THRESH` are fields although the source gives their values: R6 keeps them
overridable. -/
structure Cfg where
  /-- `TICK_SEC`, the duration of one tick in seconds. -/
  tickSec : Rat
  /-- `CLOCK_CONST`, a positive rational. -/
  clockConst : Rat
  /-- `BASE`, the frequency factor of one finetune unit, a positive rational. -/
  base : Rat
  /-- `HEADROOM`, a positive rational. -/
  headroom : Rat
  /-- `OUTPUT_RATE`, frames per second, a positive rational with at least one frame per tick. -/
  outputRate : Rat
  /-- `THRESH`, the mixer threshold. -/
  thresh : Rat
  /-- `RAWCAP`, at least 1. -/
  rawcap : Nat
  /-- `CONV`. -/
  conv : ConvSel
  /-- `NUM.rnd`. -/
  rnd : RndSel
  /-- The launch parameter of rule R41: the initial PCM contents. -/
  pcmInit : PcmSel
  deriving DecidableEq, Repr

/-! Free values: constants with no body. Nothing in Lean can evaluate them (log 2, 3, 4, 6, 17). -/

opaque Config.clockNum : Nat
opaque Config.clockDen : Nat
opaque Config.headroomNum : Nat
opaque Config.headroomDen : Nat
opaque Config.outputFrames : Nat
opaque Config.outputPart : Nat
opaque Config.outputRest : Nat
opaque Config.rawcapLessOne : Nat

/-- The open rounding functions, before the constraints of U1 are imposed (`Machine/Params.lean`, `roundWith`). -/
opaque Config.rndValue : Nat → Rat → Rat

/-- What an open converter remembers when it is constructed (R135 `init`). -/
opaque Config.convInitMemory : Nat → List Rat

/-- What an open converter remembers after its ratio is forced (R135 `set_ratio`, R137). -/
opaque Config.convSetMemory : Nat → ConvState → Rat → List Rat

/-- What an open converter answers (R135 `process`): failure (R138), or its new memory and the frames it made. -/
opaque Config.convAnswer : Nat → ConvState → Rat → List Rat → Nat → Option (List Rat × List Rat)

/-- The open initial contents of PCM: one stable byte per address (R41, R65, U5). -/
opaque Config.pcmByte : Nat → Nat → Byte

/-- `SMP_ENC`, the bit pattern of a sample on a response bus (R83, U4); no rule depends on it. -/
opaque Config.smpEnc : Rat → Word

/-- Every positive rational is `(n+1)/(d+1)` for some naturals. -/
def Config.positive (n d : Nat) : Rat := ((n : Rat) + 1) / ((d : Rat) + 1)

/-- Every rational output rate with 1 to 65536 frames per tick (R6, D19) is 50 times a whole part in that range plus a
fraction `a/(a+b+1)` of a frame. -/
def Config.outputRateOf (frames a b : Nat) : Rat :=
  50 * (((frames % 65536 : Nat) : Rat) + 1 + (a : Rat) / ((a : Rat) + (b : Rat) + 1))

/-- The values the source gives (R6): "fixed 20 ms tick"; the literal of `BASE` as an exact rational (D20); 0.75 of a full scale of 1. -/
def Config.sourceTickSec : Rat := 1 / 50
def Config.sourceBase : Rat := 10072382087 / 10000000000
def Config.sourceThresh : Rat := 3 / 4

/-- The configuration of the machine after reset: the source's values where it gives one, every open parameter of R6 free within its
constraint (log 2), the converter one whose construction succeeds (U19 allows a model to require it; log 5). -/
def Config.cfg : Cfg where
  tickSec    := Config.sourceTickSec
  clockConst := Config.positive Config.clockNum Config.clockDen
  base       := Config.sourceBase
  headroom   := Config.positive Config.headroomNum Config.headroomDen
  outputRate := Config.outputRateOf Config.outputFrames Config.outputPart Config.outputRest
  thresh     := Config.sourceThresh
  rawcap     := Config.rawcapLessOne + 1
  conv       := .custom 0
  rnd        := .custom 0
  pcmInit    := .custom 0

/-- `CFG_SMALL` of rule R6, for the tests. -/
def Config.small : Cfg where
  tickSec    := Config.sourceTickSec
  clockConst := 240000
  base       := Config.sourceBase
  headroom   := 1 / 2
  outputRate := 400
  thresh     := Config.sourceThresh
  rawcap     := 64
  conv       := .linear
  rnd        := .identity
  pcmInit    := .filled 0#8

/-- `CFG_REAL` of rule R6, for the tests (its `CLOCK_CONST` is general knowledge of the spec's, D18). -/
def Config.real : Cfg where
  tickSec    := Config.sourceTickSec
  clockConst := 35468946 / 5
  base       := Config.sourceBase
  headroom   := 1 / 2
  outputRate := 48000
  thresh     := Config.sourceThresh
  rawcap     := 1024
  conv       := .linear
  rnd        := .identity
  pcmInit    := .filled 0#8

end Sys2Proof
end

