-- ==== Sys2Proof/Machine/Params.lean ====
section
/-! DEFINITION. What the configuration means (R6, R8): the constants of the rules, the derived `NOUT`, the rounding hook and the
initial PCM contents. -/

namespace Sys2Proof

namespace Machine

/-- Full scale of the PCM byte: normalisation divides by 128 (R53). -/
def pcmScale : Rat := 128

/-- The greatest value of `IDX`, where the carry fold saturates (R30, R132). -/
def idxMax : Nat := 131072

/-- Impose on a function the constraints R8 and U1 put on `NUM.rnd`: 0 goes to 0 and [0, 1) goes into [0, 1). A function that meets
them is unchanged. -/
def roundWith (f : Rat → Rat) (v : Rat) : Rat :=
  if v = 0 then 0
  else if 0 ≤ v ∧ v < 1 then (if 0 ≤ f v ∧ f v < 1 then f v else 0)
  else f v

end Machine

/-- The rounding function a selector stands for. -/
def RndSel.apply : RndSel → Rat → Rat
  | .identity, v => v
  | .custom k, v => Machine.roundWith (Config.rndValue k) v

/-- The initial byte at a PCM address (R41, R65). -/
def PcmSel.byte : PcmSel → Nat → Byte
  | .filled b, _ => b
  | .custom k, a => Config.pcmByte k a

/-- `NOUT` = `floor(OUTPUT_RATE * TICK_SEC)` (R6). -/
def Cfg.nout (cfg : Cfg) : Nat := (cfg.outputRate * cfg.tickSec).floor.toNat

/-- `NUM.rnd` (R8). -/
def Cfg.round (cfg : Cfg) (v : Rat) : Rat := cfg.rnd.apply v

/-- What PCM holds at an address where nothing has been written (R65). -/
def Cfg.initialByte (cfg : Cfg) (a : Nat) : Byte := cfg.pcmInit.byte a

/-- The constraints of R6 on the configuration. Those on `OUTPUT_RATE` make `TICK_SEC` positive; `THRESH` has none. -/
abbrev Cfg.Admissible (cfg : Cfg) : Prop :=
  0 < cfg.clockConst ∧ 0 < cfg.base ∧ 0 < cfg.headroom ∧ 0 < cfg.outputRate ∧ 1 ≤ cfg.outputRate * cfg.tickSec ∧ cfg.nout ≤ 65536 ∧ 1 ≤ cfg.rawcap

end Sys2Proof
end

