-- ==== Sys2Proof/Machine/Convert.lean ====
section
/-! DEFINITION. The converter (R135 to R140): construction, forcing the ratio, and processing one tick, for the reference
converter `CONV_LIN` and for an open one. -/

namespace Sys2Proof.Machine

/-- A fresh instance that remembers nothing; its recorded ratio is 1 (R140 `init`, R213). -/
def freshConv : ConvState := { ratio := 1, memory := [] }

/-- `CONV.init` (R135, R213): `none` is `fail`. -/
def convInit : ConvSel → Option ConvState
  | .linear => some freshConv
  | .custom k => some { ratio := 1, memory := Config.convInitMemory k }
  | .failing => none

/-- `CONV.set_ratio` (R135, R137): it never fails, and the instance records the ratio. -/
def convSetRatio : ConvSel → ConvState → Rat → ConvState
  | .linear, st, r => { st with ratio := r }
  | .custom k, st, r => { ratio := r, memory := Config.convSetMemory k st r }
  | .failing, st, r => { st with ratio := r }

/-- The number of frames `CONV_LIN` makes: those whose position lies inside the input, at most the requested ones (R140). -/
def linCount (r : Rat) (n nout : Nat) : Nat := min nout ((n : Rat) * r).ceil.toNat

/-- Output frame `j` of `CONV_LIN`: interpolation at the fractional input index `j / R`, the last sample beyond the last
interval (R140). -/
def linFrame (r : Rat) (xs : List Rat) (j : Nat) : Rat :=
  let p : Rat := (j : Rat) / r
  let i : Nat := p.floor.toNat
  let f : Rat := p - (i : Rat)
  if i + 1 < xs.length then xs.getD i 0 + f * (xs.getD (i + 1) 0 - xs.getD i 0)
  else xs.getD (xs.length - 1) 0

/-- The frames `CONV_LIN` makes of one tick (R140). -/
def convLin (r : Rat) (xs : List Rat) (nout : Nat) : List Rat :=
  (List.range (linCount r xs.length nout)).map (linFrame r xs)

/-- `CONV.process` (R135): `none` is `fail` (R138); otherwise the new state and at most `nout` frames (R136). -/
def convProcess (sel : ConvSel) (st : ConvState) (r : Rat) (xs : List Rat) (nout : Nat) : Option (ConvState × List Rat) :=
  match sel with
  | .linear => some ({ st with ratio := r }, convLin r xs nout)
  | .custom k => (Config.convAnswer k st r xs nout).map fun a => ({ ratio := r, memory := a.1 }, a.2.take nout)
  | .failing => none

/-- The adapter's padding (R134): the frames the converter made, each rounded, then its last frame again; zeros when it made
none. Always `nout` entries. -/
def padOut (rnd : Rat → Rat) (ys : List Rat) (nout : Nat) : List Rat :=
  (List.range nout).map fun j =>
    if j < ys.length then rnd (ys.getD j 0)
    else if 0 < ys.length then rnd (ys.getD (ys.length - 1) 0)
    else 0

end Sys2Proof.Machine
end

