-- ==== Sys2Proof/Machine/State.lean ====
section
/-! DEFINITION. The state of the block (R20: "exactly the following; nothing else persists between commands"), its ports, and the
state after reset (R41). -/

namespace Sys2Proof.Machine

/-- The six causes of rule R180. A cause is recorded in `FCODE` by fault entry (R190), which is a NEXT state: no step of this model
ends in `Host.Outcome.fault` (log 9; safe: the block's halted state is state, and its later steps are defined). -/
inductive Fault where
  /-- Raised by a word that matches no row of the opcode map (R181). Safe: entry is modelled. -/
  | illegalCommand
  /-- Raised by `GEN` when `CONV.process` fails (R182). Safe: entry is modelled. -/
  | convFail
  /-- Raised by `GEN` before a PCM read at or beyond the sample end (R183). Safe: entry is modelled. -/
  | pcmBounds
  /-- Raised by `GEN` when the tick needs more than `RAWCAP` samples (R184). Safe: entry is modelled. -/
  | rateRange
  /-- Raised by `SLEN`, `SLPS`, `SLPL`, `CHRD`, `FRD` on an operand outside its range (R185). Safe: entry is modelled. -/
  | operandRange
  /-- Raised by reset when `CONV.init` fails (R186). Safe: entry is modelled. -/
  | convInitFail
  deriving DecidableEq, Repr

/-- Reasons a step has no meaning. The model has a meaning for every command, so no step answers one. -/
inductive Refusal where
  /-- Would be raised by `exec` for a command with no meaning yet; no arm of `exec` raises it. Safe. -/
  | notModelled (mnemonic : String)
  deriving DecidableEq, Repr

/-- The status of a response (R12, R83). -/
inductive Status where
  | ok
  | fault
  deriving DecidableEq, Repr

/-- The data of a response (R12, R83): a word for `STAT` and `CHRD`, a sample value for `FRD`, absent otherwise. -/
inductive Data where
  | absent
  | word (w : Word)
  | sample (v : Rat)
  deriving DecidableEq, Repr

/-- The response to one command (R12). -/
structure Response where
  status : Status
  data   : Data
  deriving DecidableEq, Repr

/-- One action of the environment (R12): a command word on the command port, or reset (R210). -/
inductive Input where
  | command (w : Word)
  | reset
  deriving DecidableEq, Repr

/-- The register bank and the hidden state of one channel (R21 to R30, R36). -/
structure Channel where
  /-- `SMP`, the assigned slot, 0 = none (R22). -/
  smp : BitVec 5
  /-- `PERIOD`, 0 = unset (R23). -/
  period : BitVec 12
  /-- `FT`, two's complement -8..7 (R24). -/
  ft : BitVec 4
  /-- `VOL`, 0..64 (R25). -/
  vol : BitVec 7
  /-- `IDX`, the integer part of the read index (R26, R30). -/
  idx : BitVec 18
  /-- `REM`, the carried fraction (R27). -/
  rem : Rat
  /-- `SIL`, the silence flag (R28). -/
  sil : Bool
  /-- `LOOPACT`, the loop-active flag (R29). -/
  loopact : Bool
  /-- `RAW[0..RAWCAP-1]` (R36). -/
  raw : List Rat
  /-- `RAWN` (R36). -/
  rawn : Nat
  /-- `OUT[0..NOUT-1]` (R36). -/
  out : List Rat
  /-- `CV`, the converter instance (R36, R135). -/
  cv : ConvState
  deriving DecidableEq, Repr

/-- The descriptor of one sample slot (R31). -/
structure Desc where
  /-- `LENGTH`, in words. -/
  length : BitVec 16
  /-- `LOOPSTART`, in words. -/
  loopstart : BitVec 16
  /-- `LOOPLEN`, in words. -/
  looplen : BitVec 16
  deriving DecidableEq, Repr

/-- One stereo frame `BUF[b][j]` (R37). -/
structure Frame where
  left  : Rat
  right : Rat
  deriving DecidableEq, Repr

/-- The complete state of the block (R20), and the model's own fields `cfg`, `inputs`, `response` (log 1, 7, 8). -/
structure State where
  /-- The configuration `CFG` (R6), a launch parameter that no step changes. -/
  cfg : Cfg
  /-- The four channel banks (R21). -/
  chans : Vector Channel 4
  /-- The descriptors of slots 1..31; slot `s` stands at `s - 1` (R31). -/
  descs : Vector Desc 31
  /-- `PCMPTR` (R32). -/
  pcmptr : BitVec 22
  /-- The PCM bytes that differ from the initial contents, by rising address (R51, R65; `pcmByte` reads them). -/
  pcm : List Host.Cell
  /-- `G`, the number of the generator buffer (R33): false = 0, true = 1. -/
  g : Bool
  /-- `SW[L]` (R34). -/
  swL : Bool
  /-- `SW[R]` (R34). -/
  swR : Bool
  /-- `FAULT` (R35). -/
  fault : Bool
  /-- `FCODE` (R35). -/
  fcode : BitVec 3
  /-- `BUF[0]` (R37). -/
  buf0 : List Frame
  /-- `BUF[1]` (R37). -/
  buf1 : List Frame
  /-- The environment's actions still to come, the next one first (R12). -/
  inputs : List Input
  /-- The response to the last command (R12); none when no command has been answered since reset. -/
  response : Option Response
  deriving DecidableEq, Repr

/-- A channel after reset (R41): all registers 0, the buffers all zero, a fresh converter instance (R213). -/
def Channel.afterReset (cfg : Cfg) : Channel where
  smp := 0#5
  period := 0#12
  ft := 0#4
  vol := 0#7
  idx := 0#18
  rem := 0
  sil := false
  loopact := false
  raw := List.replicate cfg.rawcap 0
  rawn := 0
  out := List.replicate cfg.nout 0
  cv := (convInit cfg.conv).getD freshConv

/-- Every register at its reset value (R41, R210), PCM as given (R211), for a converter whose construction succeeds. -/
def State.initial (cfg : Cfg) (pcm : List Host.Cell) : State where
  cfg := cfg
  chans := Vector.replicate 4 (Channel.afterReset cfg)
  descs := Vector.replicate 31 { length := 0#16, loopstart := 0#16, looplen := 0#16 }
  pcmptr := 0#22
  pcm := pcm
  g := false
  swL := false
  swR := false
  fault := false
  fcode := 0#3
  buf0 := List.replicate cfg.nout { left := 0, right := 0 }
  buf1 := List.replicate cfg.nout { left := 0, right := 0 }
  inputs := []
  response := none

/-- The machine right after reset (R41, R210), for the configuration `Config.cfg` (log 2), with no PCM byte written yet. -/
def State.reset : State := State.initial Config.cfg []

end Sys2Proof.Machine
end

