-- ==== Sys2Proof/Machine/Ops.lean ====
section
/-! DEFINITION. The operations over PCM memory, the register banks, the descriptors, the buffers and the ports; fault entry, refusal
and the prologue every command shares (R100, R190, R191); reset (R210); taking the next action of the environment (R12). -/

namespace Sys2Proof.Machine

/-! PCM memory (R50 to R53, R65): cells by strictly rising address, none equal to what an unlisted address reads as. -/

/-- The byte at an address; an unlisted address holds its initial byte `dflt a`. -/
def Memory.read (dflt : Nat → Byte) : List Host.Cell → Nat → Byte
  | [], a => dflt a
  | (x, v) :: rest, a => if x = a then v else Memory.read dflt rest a

/-- Put a byte in front of the cells, unless it is what the address reads as unlisted. -/
def Memory.put (dflt : Nat → Byte) (a : Nat) (b : Byte) (rest : List Host.Cell) : List Host.Cell :=
  if b = dflt a then rest else (a, b) :: rest

/-- Replace the byte at an address, keeping the canonical form. -/
def Memory.write (dflt : Nat → Byte) : List Host.Cell → Nat → Byte → List Host.Cell
  | [], a, b => Memory.put dflt a b []
  | (x, v) :: rest, a, b =>
    if a < x then Memory.put dflt a b ((x, v) :: rest)
    else if a = x then Memory.put dflt a b rest
    else (x, v) :: Memory.write dflt rest a b

/-- The canonical form above a lower bound: addresses strictly rising from `lo` on and inside the 22-bit space (R50), no entry equal
to the initial byte. -/
def Memory.wfFrom (dflt : Nat → Byte) : Nat → List Host.Cell → Bool
  | _, [] => true
  | lo, (x, v) :: rest => decide (lo ≤ x) && decide (x < 2 ^ 22) && !(v == dflt x) && Memory.wfFrom dflt (x + 1) rest

/-- The canonical form of PCM memory. -/
def Memory.wf (dflt : Nat → Byte) (m : List Host.Cell) : Bool := Memory.wfFrom dflt 0 m

/-- `MemRead(a, 1)` (R10, R52). -/
def State.pcmByte (s : State) (a : BitVec 22) : Byte := Memory.read s.cfg.initialByte s.pcm a.toNat

/-- `MemWrite(a, 1, b)` (R10, R52). -/
def State.setPcmByte (s : State) (a : BitVec 22) (b : Byte) : State :=
  { s with pcm := Memory.write s.cfg.initialByte s.pcm a.toNat b }

/-- The PCM address of sample `i` of slot `k`: `{s[4:0], i[16:0]}` (R10, R51). -/
def pcmAddr (k : Slot) (i : BitVec 18) : BitVec 22 := k ++ i.extractLsb' 0 17

/-! Register banks (R21). -/

/-- The bank of a channel. -/
def State.chan (s : State) (c : Chan) : Channel := s.chans[c]

/-- Replace the bank of a channel. -/
def State.setChan (s : State) (c : Chan) (ch : Channel) : State := { s with chans := s.chans.set c ch }

/-! Descriptors (R31). -/

/-- The place of a slot in the table; slot 0 has no descriptor (R31). -/
def slotIndex (k : Slot) : Option (Fin 31) :=
  if h : k = 0#5 then none else some ⟨k.toNat - 1, by have := k.isLt; have : k.toNat ≠ 0 := fun e => h (BitVec.eq_of_toNat_eq e); omega⟩

/-- The descriptor of a slot, none for slot 0. -/
def State.desc? (s : State) (k : Slot) : Option Desc := (slotIndex k).map fun i => s.descs[i]

/-- `SEND`: the sample end, in samples (R15). -/
def Desc.send (d : Desc) : Nat := 2 * d.length.toNat

/-- `LBEG`: the loop start, in samples (R15). -/
def Desc.lbeg (d : Desc) : Nat := 2 * d.loopstart.toNat

/-- `LEND`: the loop end, in samples (R15). -/
def Desc.lend (d : Desc) : Nat := 2 * (d.loopstart.toNat + d.looplen.toNat)

/-- `HASLOOP`: "loop active only if loop-length > 1 word" (R15, conflict C1). -/
def Desc.hasLoop (d : Desc) : Bool := decide (1 < d.looplen.toNat)

/-! Frame buffers (R37, R55, R155). -/

/-- The generator buffer `BUF[G]`. -/
def State.genBuf (s : State) : List Frame := if s.g then s.buf1 else s.buf0

/-- The front buffer `BUF[1-G]`. -/
def State.frontBuf (s : State) : List Frame := if s.g then s.buf0 else s.buf1

/-- Replace the generator buffer. -/
def State.setGenBuf (s : State) (b : List Frame) : State := if s.g then { s with buf1 := b } else { s with buf0 := b }

/-- One side of a frame. -/
def Frame.get (f : Frame) : Side → Rat
  | .left => f.left
  | .right => f.right

/-- Replace one side of a frame. -/
def Frame.set (f : Frame) : Side → Rat → Frame
  | .left, v => { f with left := v }
  | .right, v => { f with right := v }

/-- Frame `j` of a buffer. A buffer has `NOUT` frames (`Safety.lean`), so the zero frame is read in no reachable state. -/
def frameAt (b : List Frame) (j : Nat) : Frame := b.getD j { left := 0, right := 0 }

/-! Responses, faults, the prologue. -/

/-- A command that completes (R12, R83). -/
def State.answer (s : State) (d : Data) : State := { s with response := some { status := .ok, data := d } }

/-- The response of a command that raised a fault or was refused (R83). -/
def faultResponse : Response := { status := .fault, data := .absent }

/-- The cause codes of the table of rule R180. -/
def Fault.code : Fault → BitVec 3
  | .illegalCommand => 1#3
  | .convFail => 2#3
  | .pcmBounds => 3#3
  | .rateRange => 4#3
  | .operandRange => 5#3
  | .convInitFail => 6#3

/-- Fault entry (R190): `FAULT <- 1`, `FCODE <- code`, response `(fault, absent)`; nothing is saved and nothing restored. -/
def State.raise (s : State) (f : Fault) : State :=
  { s with fault := true, fcode := f.code, response := some faultResponse }

/-- A refused command (R100, R191): no state changes, `FCODE` among it; only the response says so. -/
def State.refuse (s : State) : State := { s with response := some faultResponse }

/-- The prologue of every command but `STAT` (R100): refused while `FAULT` = 1, otherwise executed. -/
def State.unlessHalted (s : State) (run : State → State) : State := if s.fault then s.refuse else run s

/-- A word that matches no row (R80, R100, R181): refused when the block is halted, otherwise `IllegalCommand`. -/
def execIllegal (s : State) : Host.Outcome State Fault Refusal :=
  .next (s.unlessHalted fun s => s.raise .illegalCommand)

/-- Reset of a block with configuration `cfg` and PCM contents `pcm` (R210, R211, R213): every register at its reset value; halted
with `ConvInitFail` when the converter cannot be constructed. No response: reset is not a command. -/
def resetTo (cfg : Cfg) (pcm : List Host.Cell) : State :=
  match convInit cfg.conv with
  | some _ => State.initial cfg pcm
  | none => { State.initial cfg pcm with fault := true, fcode := Fault.convInitFail.code }

/-- The environment's reset action (R210): PCM is kept (R211, U18), and so are the actions still to come, which are the
environment's. -/
def State.resetAction (s : State) : State := { resetTo s.cfg s.pcm with inputs := s.inputs }

/-- The environment's next action, and the state without it (R12). -/
def fetch (s : State) : Option (Input × State) :=
  match s.inputs with
  | [] => none
  | a :: rest => some (a, { s with inputs := rest })

/-- What a response carries on a 32-bit response bus (R12, R83): a sample travels as `SMP_ENC` of its value. -/
def Data.bus : Data → Option Word
  | .absent => none
  | .word w => some w
  | .sample v => some (Config.smpEnc v)

end Sys2Proof.Machine
end

