-- ==== Sys2Proof/Machine/Operands.lean ====
section
/-! DEFINITION. The operand forms (R77, R81): clamping, extension, the register `CHRD` selects, the side of a channel; and the shared
shapes of the register writes. -/

namespace Sys2Proof.Machine

/-- `min(k, 64)`, the clamp of `CVOL` (R77, R109). -/
def clampVol (k : BitVec 7) : BitVec 7 := if 64 < k.toNat then 64#7 else k

/-- The finetune as a number -8..7 (R24, R77): `sext_4`. -/
def finetune (f : BitVec 4) : Int := f.toInt

/-- `zext_18` of the operand of `CIDX` (R77, R110). -/
def idxOperand (i : BitVec 17) : BitVec 18 := i.setWidth 18

/-- The side of a channel (R150): 0 and 3 left, 1 and 2 right. -/
def sideOf (c : Chan) : Side := if c = 0 ∨ c = 3 then .left else .right

/-- `{ 0[31:2], LOOPACT[c], SIL[c] }` (R166). -/
def flagsWord (ch : Channel) : Word := 0#30 ++ BitVec.ofBool ch.loopact ++ BitVec.ofBool ch.sil

/-- The register `CHRD` selects, as a 32-bit word (R166); none for 6 and 7 (R81). -/
def channelWord (ch : Channel) (sel : BitVec 3) : Option Word :=
  match sel with
  | 0#3 => some (ch.smp.setWidth 32)
  | 1#3 => some (ch.period.setWidth 32)
  | 2#3 => some (ch.ft.signExtend 32)
  | 3#3 => some (ch.vol.setWidth 32)
  | 4#3 => some (ch.idx.setWidth 32)
  | 5#3 => some (flagsWord ch)
  | _ => none

/-- A write of one channel register (R106 to R112, R114): the bank changes as `f` says and nothing else does. -/
def writeChannel (c : Chan) (f : Channel → Channel) (s : State) : Host.Outcome State Fault Refusal :=
  .next (s.unlessHalted fun s => (s.setChan c (f (s.chan c))).answer .absent)

/-- A write of one descriptor field (R103 to R105): slot 0 raises `OperandRange`. -/
def writeDesc (k : Slot) (f : Desc → Desc) (s : State) : Host.Outcome State Fault Refusal :=
  .next (s.unlessHalted fun s =>
    match slotIndex k with
    | none => s.raise .operandRange
    | some i => { s with descs := s.descs.set i (f s.descs[i]) }.answer .absent)

end Sys2Proof.Machine
end

