-- ==== Sys2Proof/Machine/Flags.lean ====
section
/-! DEFINITION. The flags (R39): the side-written flags, the status word, and the end checks that set `LOOPACT` and `SIL`. -/

namespace Sys2Proof.Machine

/-- `SW[side]` (R34). -/
def State.sw (s : State) : Side → Bool
  | .left => s.swL
  | .right => s.swR

/-- `SW[side] <- 1` (R34, R151). -/
def State.markSide (s : State) : Side → State
  | .left => { s with swL := true }
  | .right => { s with swR := true }

/-- The status word (R40, R165): bit 0 `FAULT`, 3:1 `FCODE`, 4 `G`, 5 `SW[L]`, 6 `SW[R]`, the rest 0. -/
def State.statusWord (s : State) : Word :=
  0#25 ++ BitVec.ofBool s.swR ++ BitVec.ofBool s.swL ++ BitVec.ofBool s.g ++ s.fcode ++ BitVec.ofBool s.fault

/-- What the read loop of `GEN` carries from sample to sample (R122, R126): the read index, the two flags it may set, and whether
zero fill is in force. -/
structure Cursor where
  idx     : BitVec 18
  loopact : Bool
  sil     : Bool
  zf      : Bool
  deriving DecidableEq, Repr

/-- The end checks before a read (R127 to R129): exactly one arm, chosen by `LOOPACT`. -/
def endChecks (d : Desc) (cur : Cursor) : Cursor :=
  if cur.loopact then
    if d.lend ≤ cur.idx.toNat then { cur with idx := BitVec.ofNat 18 d.lbeg } else cur
  else if d.send ≤ cur.idx.toNat then
    if d.hasLoop then { cur with loopact := true, idx := BitVec.ofNat 18 d.lbeg }
    else { cur with zf := true, sil := true }
  else cur

end Sys2Proof.Machine
end

