-- ==== Sys2Proof/Machine/ConfigCommands.lean ====
section
/-! DEFINITION. The configuration commands (`40_config_commands.md`): `NOP`, the PCM port, the descriptor writes, the channel
register writes. None has a fault of its own but slot 0 (R81), and none touches `RAW`, `OUT`, `CV`, `BUF`, `G`, `SW` (R114). -/

namespace Sys2Proof.Machine

/-- `NOP` (R113). -/
def execNop (s : State) : Host.Outcome State Fault Refusal :=
  .next (s.unlessHalted fun s => s.answer .absent)

/-- `PCMPTR a` (R101). -/
def execPcmptr (a : BitVec 22) (s : State) : Host.Outcome State Fault Refusal :=
  .next (s.unlessHalted fun s => { s with pcmptr := a }.answer .absent)

/-- `PCMWR b` (R102): the byte at `PCMPTR`, then the pointer plus 1 modulo 2^22. -/
def execPcmwr (b : Byte) (s : State) : Host.Outcome State Fault Refusal :=
  .next (s.unlessHalted fun s => { s.setPcmByte s.pcmptr b with pcmptr := s.pcmptr + 1#22 }.answer .absent)

/-- `SLEN s, v` (R103). -/
def execSlen (k : Slot) (v : BitVec 16) (s : State) : Host.Outcome State Fault Refusal :=
  writeDesc k (fun d => { d with length := v }) s

/-- `SLPS s, v` (R104). -/
def execSlps (k : Slot) (v : BitVec 16) (s : State) : Host.Outcome State Fault Refusal :=
  writeDesc k (fun d => { d with loopstart := v }) s

/-- `SLPL s, v` (R105). -/
def execSlpl (k : Slot) (v : BitVec 16) (s : State) : Host.Outcome State Fault Refusal :=
  writeDesc k (fun d => { d with looplen := v }) s

/-- `CSMP c, s` (R106). -/
def execCsmp (c : Chan) (k : Slot) (s : State) : Host.Outcome State Fault Refusal :=
  writeChannel c (fun ch => { ch with smp := k }) s

/-- `CPER c, p` (R107). -/
def execCper (c : Chan) (p : BitVec 12) (s : State) : Host.Outcome State Fault Refusal :=
  writeChannel c (fun ch => { ch with period := p }) s

/-- `CFT c, f` (R108): the 4-bit register holds the operand's bits, read as two's complement. -/
def execCft (c : Chan) (f : BitVec 4) (s : State) : Host.Outcome State Fault Refusal :=
  writeChannel c (fun ch => { ch with ft := f }) s

/-- `CVOL c, k` (R109): 65..127 store 64. -/
def execCvol (c : Chan) (k : BitVec 7) (s : State) : Host.Outcome State Fault Refusal :=
  writeChannel c (fun ch => { ch with vol := clampVol k }) s

/-- `CIDX c, i` (R110): the read index, and the remainder cleared. -/
def execCidx (c : Chan) (i : BitVec 17) (s : State) : Host.Outcome State Fault Refusal :=
  writeChannel c (fun ch => { ch with idx := idxOperand i, rem := 0 }) s

/-- `CSIL c, x` (R111). -/
def execCsil (c : Chan) (x : Bool) (s : State) : Host.Outcome State Fault Refusal :=
  writeChannel c (fun ch => { ch with sil := x }) s

/-- `CLOOP c, x` (R112). -/
def execCloop (c : Chan) (x : Bool) (s : State) : Host.Outcome State Fault Refusal :=
  writeChannel c (fun ch => { ch with loopact := x }) s

end Sys2Proof.Machine
end

