-- ==== Sys2Proof/Machine/Mixer.lean ====
section
/-! DEFINITION. `MIX` and `SWAP` (`42_mix_swap.md`): the stereo mixer and its ping-pong buffers. -/

namespace Sys2Proof.Machine

/-- The value the mixer stores (R151, R152): the first writer's sample, or the sum; rounded; at or above the threshold (signed) it is
zero. -/
def mixValue (cfg : Cfg) (written : Bool) (old v : Rat) : Rat :=
  let t := cfg.round (if written then old + v else v)
  if cfg.thresh ≤ t then 0 else t

/-- The generator buffer after `MIX c` (R151): every frame, one side. -/
def mixedBuf (c : Chan) (s : State) : List Frame :=
  (List.range s.cfg.nout).map fun j =>
    let f := frameAt s.genBuf j
    f.set (sideOf c) (mixValue s.cfg (s.sw (sideOf c)) (f.get (sideOf c)) ((s.chan c).out.getD j 0))

/-- `MIX c` (R151). -/
def execMix (c : Chan) (s : State) : Host.Outcome State Fault Refusal :=
  .next (s.unlessHalted fun s => ((s.setGenBuf (mixedBuf c s)).markSide (sideOf c)).answer .absent)

/-- `SWAP` (R154): `G` toggled, `SW` cleared; no sample moves. -/
def execSwap (s : State) : Host.Outcome State Fault Refusal :=
  .next (s.unlessHalted fun s => { s with g := !s.g, swL := false, swR := false }.answer .absent)

end Sys2Proof.Machine
end

