-- ==== Sys2Proof/Machine/Readback.lean ====
section
/-! DEFINITION. `STAT`, `CHRD`, `FRD` (`43_status_readback.md`): the block's only outputs; they change no state. -/

namespace Sys2Proof.Machine

/-- `STAT` (R165): the one command that executes while the block is halted. -/
def execStat (s : State) : Host.Outcome State Fault Refusal :=
  .next (s.answer (.word s.statusWord))

/-- `CHRD c, sel` (R166): `OperandRange` for 6 and 7. -/
def execChrd (c : Chan) (sel : BitVec 3) (s : State) : Host.Outcome State Fault Refusal :=
  .next (s.unlessHalted fun s =>
    match channelWord (s.chan c) sel with
    | some w => s.answer (.word w)
    | none => s.raise .operandRange)

/-- `FRD side, j` (R167): one sample of the front buffer; `OperandRange` at or beyond `NOUT`. -/
def execFrd (side : Side) (j : BitVec 16) (s : State) : Host.Outcome State Fault Refusal :=
  .next (s.unlessHalted fun s =>
    if s.cfg.nout ≤ j.toNat then s.raise .operandRange
    else s.answer (.sample ((frameAt s.frontBuf j.toNat).get side)))

end Sys2Proof.Machine
end

