-- ==== Sys2Proof/Machine/Synth.lean ====
section
/-! DEFINITION. `GEN`, the synthesizer and rate-converter adapter (`41_gen_synth_convert.md`): the rate function, effective silence,
the read loop, the fractional carry, the conversion and its padding. -/

namespace Sys2Proof.Machine

/-- `q^n` as a repeated product (R120). -/
def ratPow (q : Rat) : Nat → Rat
  | 0 => 1
  | n + 1 => ratPow q n * q

/-- `BASE^f`, the exact rational power (R120, D20). -/
def basePow (base : Rat) : Int → Rat
  | .ofNat n => ratPow base n
  | .negSucc n => 1 / ratPow base (n + 1)

/-- `rate(p, f) = CLOCK_CONST / (2 * p) * BASE^f` (R120). -/
def rate (cfg : Cfg) (p : Nat) (f : Int) : Rat := cfg.clockConst / (2 * (p : Rat)) * basePow cfg.base f

/-- The native rate of a channel, `rate(PERIOD[c], FT[c])` (R120). -/
def nativeRate (cfg : Cfg) (ch : Channel) : Rat := rate cfg ch.period.toNat (finetune ch.ft)

/-- `need = r * TICK_SEC` (R121). -/
def tickNeed (cfg : Cfg) (ch : Channel) : Rat := nativeRate cfg ch * cfg.tickSec

/-- `N = floor(need)` (R121). -/
def tickCount (cfg : Cfg) (ch : Channel) : Nat := (tickNeed cfg ch).floor.toNat

/-- `pcmf(s, i) = sext_8(MemRead({s, i[16:0]}, 1)) / 128` (R10, R53). -/
def pcmf (s : State) (k : Slot) (i : BitVec 18) : Rat := ((s.pcmByte (pcmAddr k i)).toInt : Rat) / pcmScale

/-- `scale(c, x) = NUM.rnd((x * (VOL[c] / 64)) * HEADROOM)` (R130). -/
def scale (cfg : Cfg) (vol : BitVec 7) (x : Rat) : Rat := cfg.round (x * ((vol.toNat : Rat) / 64) * cfg.headroom)

/-- The scaled sample `GEN` reads at an index of the channel's slot (R126, R130). -/
def scaledSample (s : State) (ch : Channel) (i : BitVec 18) : Rat := scale s.cfg ch.vol (pcmf s ch.smp i)

/-- What a read loop gives: the raw samples it produced, where it stands, and whether it stopped at the bounds check (R131). -/
structure ReadOut where
  samples : List Rat
  cur     : Cursor
  bounds  : Bool
  deriving DecidableEq, Repr

/-- The read loop (R122 step 4, R126): `n` more raw samples from the cursor on. Before each read the end checks run, unless zero fill
is in force; the bounds check (R131) stands immediately before the read. -/
def readLoop (sample : BitVec 18 → Rat) (d : Desc) : Nat → Cursor → ReadOut
  | 0, cur => { samples := [], cur := cur, bounds := false }
  | n + 1, cur =>
    let cur := if cur.zf then cur else endChecks d cur
    if cur.zf then
      let r := readLoop sample d n cur
      { r with samples := 0 :: r.samples }
    else if d.send ≤ cur.idx.toNat then { samples := [], cur := cur, bounds := true }
    else
      let r := readLoop sample d n { cur with idx := cur.idx + 1#18 }
      { r with samples := sample cur.idx :: r.samples }

/-- The cursor a `GEN` starts its read loop with (R122: `zf <- false`). -/
def Channel.cursor (ch : Channel) : Cursor := { idx := ch.idx, loopact := ch.loopact, sil := ch.sil, zf := false }

/-- What the read loop has written when it ends or stops: the entries of `RAW` it produced, `IDX`, `LOOPACT`, `SIL` (R122, R183). -/
def Channel.afterReads (ch : Channel) (r : ReadOut) : Channel :=
  { ch with raw := r.samples ++ ch.raw.drop r.samples.length, idx := r.cur.idx, loopact := r.cur.loopact, sil := r.cur.sil }

/-- The fractional carry (R132); the fold saturates at 131072. -/
def carry (cfg : Cfg) (frac : Rat) (ch : Channel) : Channel :=
  let t := ch.rem + frac
  if 1 ≤ t then { ch with rem := cfg.round (t - 1), idx := BitVec.ofNat 18 (min (ch.idx.toNat + 1) idxMax) }
  else { ch with rem := cfg.round t }

/-- `effectively_silent(c)` (R123): the flag, no sample assigned, an empty slot, or no period. -/
def effectivelySilent (s : State) (ch : Channel) : Bool :=
  ch.sil ||
  (match s.desc? ch.smp with
   | none => true
   | some d => d.length == 0#16) ||
  ch.period == 0#12

/-- The silent path (R124): zeros, and the converter's ratio forced to 1; nothing else of the channel changes. -/
def silentPath (cfg : Cfg) (ch : Channel) : Channel :=
  { ch with out := List.replicate cfg.nout 0, cv := convSetRatio cfg.conv ch.cv 1 }

/-- The channel when the read loop of an active `GEN` has completed and the carry is done: `RAW`, `RAWN`, `IDX`, `LOOPACT`, `SIL`,
`REM` (R122 steps 4 and 5). -/
def afterSynth (cfg : Cfg) (ch : Channel) (r : ReadOut) : Channel :=
  let ch' := { ch.afterReads r with rawn := tickCount cfg ch }
  if r.cur.zf then ch' else carry cfg (tickNeed cfg ch - (tickCount cfg ch : Rat)) ch'

/-- The ratio of an active `GEN`: `R = OUTPUT_RATE / r` (R133). -/
def tickRatio (cfg : Cfg) (ch : Channel) : Rat := cfg.outputRate / nativeRate cfg ch

/-- The active path of `GEN c` (R122 steps 2 to 7) for the descriptor `d` of the channel's slot: `RateRange` before any change
(R125), `PcmBounds` at the first offending read (R131), `ConvFail` when the converter fails (R134, R182). -/
def genActive (c : Chan) (d : Desc) (s : State) : State :=
  let ch := s.chan c
  if s.cfg.rawcap < tickCount s.cfg ch then s.raise .rateRange
  else
    let r := readLoop (scaledSample s ch) d (tickCount s.cfg ch) ch.cursor
    if r.bounds then (s.setChan c (ch.afterReads r)).raise .pcmBounds
    else
      let ch' := afterSynth s.cfg ch r
      match convProcess s.cfg.conv ch'.cv (tickRatio s.cfg ch) (ch'.raw.take ch'.rawn) s.cfg.nout with
      | none => (s.setChan c ch').raise .convFail
      | some (cv', ys) =>
        (s.setChan c { ch' with cv := cv', out := padOut s.cfg.round ys s.cfg.nout }).answer .absent

/-- `GEN c` (R122). -/
def execGen (c : Chan) (s : State) : Host.Outcome State Fault Refusal :=
  .next (s.unlessHalted fun s =>
    let ch := s.chan c
    match effectivelySilent s ch, s.desc? ch.smp with
    | false, some d => genActive c d s
    | _, _ => (s.setChan c (silentPath s.cfg ch)).answer .absent)

end Sys2Proof.Machine
end

