-- ==== Sys2Proof/Machine/Dispatch.lean ====
section
/-! DEFINITION. One arm per command, each one direct call of its meaning. -/

namespace Sys2Proof.Machine

def exec (i : Instr) (s : State) : Host.Outcome State Fault Refusal :=
  match i with
  | .nop => Sys2Proof.Machine.execNop s
  | .pcmptr a => Sys2Proof.Machine.execPcmptr a s
  | .pcmwr b => Sys2Proof.Machine.execPcmwr b s
  | .slen k v => Sys2Proof.Machine.execSlen k v s
  | .slps k v => Sys2Proof.Machine.execSlps k v s
  | .slpl k v => Sys2Proof.Machine.execSlpl k v s
  | .csmp c k => Sys2Proof.Machine.execCsmp c k s
  | .cper c p => Sys2Proof.Machine.execCper c p s
  | .cft c f => Sys2Proof.Machine.execCft c f s
  | .cvol c k => Sys2Proof.Machine.execCvol c k s
  | .cidx c x => Sys2Proof.Machine.execCidx c x s
  | .csil c x => Sys2Proof.Machine.execCsil c x s
  | .cloop c x => Sys2Proof.Machine.execCloop c x s
  | .gen c => Sys2Proof.Machine.execGen c s
  | .mix c => Sys2Proof.Machine.execMix c s
  | .swap => Sys2Proof.Machine.execSwap s
  | .stat => Sys2Proof.Machine.execStat s
  | .chrd c sel => Sys2Proof.Machine.execChrd c sel s
  | .frd side j => Sys2Proof.Machine.execFrd side j s

end Sys2Proof.Machine
end

