-- ==== Sys2Proof/Machine/Step.lean ====
section
/-! DEFINITION. One step (R12): the environment's next action is taken; a command word is decoded and executed whole, an illegal
word raises `IllegalCommand` (R79, R80), a reset resets (R210); with no action pending nothing changes. -/

namespace Sys2Proof.Machine

/-- One step of the machine: one action of the environment (R12). -/
def step (s : State) : Host.Outcome State Fault Refusal :=
  match fetch s with
  | none => .next s
  | some (.reset, t) => .next t.resetAction
  | some (.command w, t) =>
    match decode w with
    | some i => exec i t
    | none => execIllegal t

/-- Put a command first among the environment's actions, so that the next step takes exactly it (log 7). -/
def State.withFetchWord (s : State) (_nbits w : Nat) : State :=
  { s with inputs := .command (BitVec.ofNat 32 w) :: s.inputs }

end Sys2Proof.Machine
end

