-- ==== Sys2Proof/Machine/Asm.lean ====
section
/-! DEFINITION. Assembler syntax (R85): one line of text to a command, and a command to its text. The block never sees text; spaces
beyond the ones R85 shows are DESIGN CHOICE (log 16). -/

namespace Sys2Proof.Machine

/-- The text before a comment (R85: `;` starts a comment). -/
def asmStrip : List Char → List Char
  | [] => []
  | ch :: rest => if ch = ';' then [] else ch :: asmStrip rest

/-- The text with no spaces at its start. -/
def asmTrimLeft : List Char → List Char
  | [] => []
  | ch :: rest => if ch = ' ' then asmTrimLeft rest else ch :: rest

/-- The text with no spaces at either end. -/
def asmTrim (t : List Char) : List Char := (asmTrimLeft (asmTrimLeft t).reverse).reverse

/-- The text up to the first `sep`, and what follows it, if there is one. -/
def asmCut (sep : Char) : List Char → List Char × Option (List Char)
  | [] => ([], none)
  | ch :: rest =>
    if ch = sep then ([], some rest)
    else
      let r := asmCut sep rest
      (ch :: r.1, r.2)

/-- The operands between commas, at most `fuel` of them. -/
def asmOperands : Nat → List Char → List (List Char)
  | 0, _ => []
  | fuel + 1, t =>
    match asmCut ',' t with
    | (a, none) => [asmTrim a]
    | (a, some rest) => asmTrim a :: asmOperands fuel rest

/-- A decimal digit, or a hexadecimal one when `radix` is 16. -/
def asmDigit (radix : Nat) (ch : Char) : Option Nat :=
  if '0' ≤ ch ∧ ch ≤ '9' then some (ch.toNat - '0'.toNat)
  else if radix = 16 ∧ 'a' ≤ ch ∧ ch ≤ 'f' then some (ch.toNat - 'a'.toNat + 10)
  else if radix = 16 ∧ 'A' ≤ ch ∧ ch ≤ 'F' then some (ch.toNat - 'A'.toNat + 10)
  else none

/-- The digits of a number after those already read. -/
def asmDigits (radix : Nat) : Nat → List Char → Option Nat
  | acc, [] => some acc
  | acc, ch :: rest =>
    match asmDigit radix ch with
    | some d => asmDigits radix (acc * radix + d) rest
    | none => none

/-- A number: decimal or `0x` hexadecimal. -/
def asmNat : List Char → Option Nat
  | [] => none
  | '0' :: 'x' :: ch :: rest => asmDigits 16 0 (ch :: rest)
  | ch :: rest => asmDigits 10 0 (ch :: rest)

/-- A number of `n` bits. -/
def asmField (n : Nat) (t : List Char) : Option (BitVec n) :=
  match asmNat t with
  | some v => if v < 2 ^ n then some (BitVec.ofNat n v) else none
  | none => none

/-- A number with a sign, encoded as its low `n` bits: `-2^(n-1)` at the lowest, below `top` at the highest. -/
def asmSigned (n top : Nat) (t : List Char) : Option (BitVec n) :=
  match t with
  | '-' :: rest =>
    match asmDigits 10 0 rest with
    | some v => if rest ≠ [] ∧ v ≤ 2 ^ (n - 1) then some (BitVec.ofInt n (-(v : Int))) else none
    | none => none
  | _ =>
    match asmNat t with
    | some v => if v < top then some (BitVec.ofNat n v) else none
    | none => none

/-- A channel number. -/
def asmChan (t : List Char) : Option Chan := (asmField 2 t).map fun v => v.toFin

/-- A one-bit operand. -/
def asmFlag (t : List Char) : Option Bool := (asmField 1 t).map fun v => v == 1#1

/-- A side, `L` or `R`. -/
def asmSide (t : List Char) : Option Side :=
  if t = ['L'] then some .left else if t = ['R'] then some .right else none

/-- A command with a channel and one more operand. -/
def asmChanWith {α : Type} (f : Chan → α → Instr) (operand : List Char → Option α) : List (List Char) → Option Instr
  | [c, x] => match asmChan c, operand x with
    | some c, some x => some (f c x)
    | _, _ => none
  | _ => none

/-- A command with a slot and a 16-bit value. -/
def asmSlotWith (f : Slot → BitVec 16 → Instr) : List (List Char) → Option Instr
  | [k, v] => match asmField 5 k, asmField 16 v with
    | some k, some v => some (f k v)
    | _, _ => none
  | _ => none

/-- A command with one operand. -/
def asmOne {α : Type} (f : α → Instr) (operand : List Char → Option α) : List (List Char) → Option Instr
  | [x] => (operand x).map f
  | _ => none

/-- A command with no operand. -/
def asmNone (i : Instr) : List (List Char) → Option Instr
  | [] => some i
  | _ => none

/-- The command of a mnemonic and its operands, in the order of R78. -/
def asmCommand (name : List Char) (ops : List (List Char)) : Option Instr :=
  if name = "NOP".toList then asmNone .nop ops
  else if name = "PCMPTR".toList then asmOne .pcmptr (asmField 22) ops
  else if name = "PCMWR".toList then asmOne .pcmwr (asmSigned 8 256) ops
  else if name = "SLEN".toList then asmSlotWith .slen ops
  else if name = "SLPS".toList then asmSlotWith .slps ops
  else if name = "SLPL".toList then asmSlotWith .slpl ops
  else if name = "CSMP".toList then asmChanWith .csmp (asmField 5) ops
  else if name = "CPER".toList then asmChanWith .cper (asmField 12) ops
  else if name = "CFT".toList then asmChanWith .cft (asmSigned 4 8) ops
  else if name = "CVOL".toList then asmChanWith .cvol (asmField 7) ops
  else if name = "CIDX".toList then asmChanWith .cidx (asmField 17) ops
  else if name = "CSIL".toList then asmChanWith .csil asmFlag ops
  else if name = "CLOOP".toList then asmChanWith .cloop asmFlag ops
  else if name = "GEN".toList then asmOne .gen asmChan ops
  else if name = "MIX".toList then asmOne .mix asmChan ops
  else if name = "SWAP".toList then asmNone .swap ops
  else if name = "STAT".toList then asmNone .stat ops
  else if name = "CHRD".toList then asmChanWith .chrd (asmField 3) ops
  else if name = "FRD".toList then
    match ops with
    | [d, j] => match asmSide d, asmField 16 j with
      | some d, some j => some (.frd d j)
      | _, _ => none
    | _ => none
  else none

/-- One line of assembler text (R85): none when it is no command. -/
def assemble (line : String) : Option Instr :=
  match asmCut ' ' (asmTrim (asmStrip line.toList)) with
  | (name, none) => asmCommand name []
  | (name, some rest) => asmCommand name (asmOperands 3 rest)

/-- The operands of a command as text, in the order of R78. -/
def asmTextOperands : Instr → List String
  | .nop | .swap | .stat => []
  | .pcmptr a => [toString a.toNat]
  | .pcmwr b => [toString b.toInt]
  | .slen k v | .slps k v | .slpl k v => [toString k.toNat, toString v.toNat]
  | .csmp c k => [toString c.val, toString k.toNat]
  | .cper c p => [toString c.val, toString p.toNat]
  | .cft c f => [toString c.val, toString f.toInt]
  | .cvol c k => [toString c.val, toString k.toNat]
  | .cidx c x => [toString c.val, toString x.toNat]
  | .csil c x | .cloop c x => [toString c.val, if x then "1" else "0"]
  | .gen c | .mix c => [toString c.val]
  | .chrd c sel => [toString c.val, toString sel.toNat]
  | .frd side j => [if side = .left then "L" else "R", toString j.toNat]

/-- The text of a command (R85). -/
def asmText (i : Instr) : String :=
  match asmTextOperands i with
  | [] => i.mnemonic
  | a :: rest => i.mnemonic ++ " " ++ String.intercalate ", " (a :: rest)

end Sys2Proof.Machine
end

