-- ==== Sys2Proof/Machine/Run.lean ====
section
/-! DEFINITION. Runs (R12, R14): a run is a finite list of environment actions; its result is the list of responses and the final
state. -/

namespace Sys2Proof.Machine

/-- The state after one command. Every command answers a next state (`Laws/Exec.lean`), so the other arms are never taken. -/
def after (i : Instr) (s : State) : State :=
  match exec i s with
  | .next t => t
  | .fault _ => s
  | .refused _ => s

/-- The state after one action of the environment, presented before the actions already waiting. -/
def perform (s : State) (a : Input) : State :=
  match step { s with inputs := a :: s.inputs } with
  | .next t => t
  | .fault _ => s
  | .refused _ => s

/-- The response an action brought about: a command is answered, a reset is not (R12). -/
def answersTo (a : Input) (t : State) : List Response :=
  match a with
  | .command _ => t.response.toList
  | .reset => []

/-- A run (R14): the responses in order, and the final state. -/
def runInputs : List Input → State → List Response × State
  | [], s => ([], s)
  | a :: rest, s =>
    let r := runInputs rest (perform s a)
    (answersTo a (perform s a) ++ r.1, r.2)

/-- A list of commands as the environment's actions. -/
def commandsOf (is : List Instr) : List Input := is.map fun i => .command (encode i)

end Sys2Proof.Machine
end

