-- ==== Sys2Proof/Machine/Pseudo.lean ====
section
/-! DEFINITION. The pseudo-commands (R90 to R98): names for fixed sequences of commands, as the host issues them. The block knows nothing
of them (log 16). -/

namespace Sys2Proof.Machine

/-- `RUNCH c` (R91). -/
def pseudoRunch (c : Chan) : List Instr := [.gen c, .mix c]

/-- `TICK` (R90): channels in the order 0, 1, 2, 3, then `SWAP`. -/
def pseudoTick : List Instr := pseudoRunch 0 ++ pseudoRunch 1 ++ pseudoRunch 2 ++ pseudoRunch 3 ++ [.swap]

/-- `TRIG c, s, v` (R92). -/
def pseudoTrig (c : Chan) (k : Slot) (v : BitVec 7) : List Instr := [.csmp c k, .cvol c v, .cidx c 0#17, .cloop c false]

/-- `NOTE c, p` (R93). -/
def pseudoNote (c : Chan) (p : BitVec 12) : List Instr := [.cper c p]

/-- `OFFS c, d` (R94): the read index `d * 256`. -/
def pseudoOffs (c : Chan) (d : BitVec 8) : List Instr := [.cidx c (BitVec.ofNat 17 (d.toNat * 256))]

/-- `SETVOL c, k` (R95). -/
def pseudoSetvol (c : Chan) (k : BitVec 7) : List Instr := [.cvol c k]

/-- `SETFT c, n` (R96). -/
def pseudoSetft (c : Chan) (n : BitVec 4) : List Instr := [.cft c n]

/-- `MUTE c` (R97). -/
def pseudoMute (c : Chan) : List Instr := [.csil c true]

/-- `UNMUTE c` (R97). -/
def pseudoUnmute (c : Chan) : List Instr := [.csil c false]

/-- `LOADSMP s, len, lps, lpl, b0, b1, ...` (R98); the PCM starts at address `s * 131072` (R51). -/
def pseudoLoadsmp (k : Slot) (len lps lpl : BitVec 16) (bytes : List Byte) : List Instr :=
  [.slen k len, .slps k lps, .slpl k lpl, .pcmptr (pcmAddr k 0#18)] ++ bytes.map .pcmwr

end Sys2Proof.Machine
end

