-- ==== Sys2Proof/Safety.lean ====
section
/-! DEFINITION. What counts as a legal state and a safe run, in the terms the statements use: the invariant of the state (R9, R30, R31,
R35, R36, R37, R43, R142), when `GEN` is sure to complete (R125, R131), what two states share, and when a run has gone wrong (R14). -/

namespace Sys2Proof.Machine

/-- The block is not halted (R35). -/
abbrev State.Running (s : State) : Prop := s.fault = false

/-- A run that ends in this state has gone wrong (R14). -/
abbrev State.WentWrong (s : State) : Prop := s.fault = true

/-- A channel's registers and buffers are in their ranges (R25, R27, R30, R36): the volume at most 64, the read index at most 131072, the
remainder in [0, 1), the buffers of their sizes, a positive recorded ratio. -/
structure Channel.Ok (cfg : Cfg) (ch : Channel) : Prop where
  vol_le : ch.vol.toNat ≤ 64
  idx_le : ch.idx.toNat ≤ idxMax
  rem_nonneg : 0 ≤ ch.rem
  rem_lt_one : ch.rem < 1
  raw_length : ch.raw.length = cfg.rawcap
  rawn_le : ch.rawn ≤ cfg.rawcap
  out_length : ch.out.length = cfg.nout
  ratio_pos : 0 < ch.cv.ratio

/-- The invariant of the state. -/
structure State.Ok (s : State) : Prop where
  cfg_ok : s.cfg.Admissible
  chan_ok : ∀ c, Channel.Ok s.cfg (s.chan c)
  pcm_wf : Memory.wf s.cfg.initialByte s.pcm = true
  buf0_length : s.buf0.length = s.cfg.nout
  buf1_length : s.buf1.length = s.cfg.nout
  running_code : s.fault = false → s.fcode = 0#3
  halted_code : s.fault = true → 1 ≤ s.fcode.toNat ∧ s.fcode.toNat ≤ 6

/-- Every stored frame sample is zero or below the mixer threshold (R152). -/
def BelowThreshold (cfg : Cfg) (b : List Frame) : Prop := ∀ f ∈ b, ∀ side, f.get side = 0 ∨ f.get side < cfg.thresh

/-- `effectively_silent(c)` spelled out (R123). -/
def Silent (s : State) (c : Chan) : Prop :=
  (s.chan c).sil = true ∨ (s.chan c).smp = 0#5 ∨ (∃ d, s.desc? (s.chan c).smp = some d ∧ d.length = 0#16) ∨
    (s.chan c).period = 0#12

/-- The channel is active and plays the slot with descriptor `d` (R122, R123). -/
structure Active (s : State) (c : Chan) (d : Desc) : Prop where
  running : s.fault = false
  not_sil : (s.chan c).sil = false
  desc_eq : s.desc? (s.chan c).smp = some d
  length_ne : d.length ≠ 0#16
  period_ne : (s.chan c).period ≠ 0#12

/-- No wrap can take the read index out of the sample (R131): when looping is armed or the slot has a loop, the loop lies inside the
sample and starts before its end. -/
def LoopInside (d : Desc) (loopact : Bool) : Prop :=
  (loopact = true ∨ 1 < d.looplen.toNat) →
    d.loopstart.toNat + d.looplen.toNat ≤ d.length.toNat ∧ d.loopstart.toNat < d.length.toNat

/-! What two states share. -/

/-- Same PCM contents, byte by byte. -/
def SamePcm (s t : State) : Prop := ∀ a, t.pcmByte a = s.pcmByte a

/-- Same descriptors. -/
def SameDescs (s t : State) : Prop := ∀ k, t.desc? k = s.desc? k

/-- Same channel banks. -/
def SameChans (s t : State) : Prop := ∀ c, t.chan c = s.chan c

/-- Same channel banks but for channel `c`. -/
def SameOtherChans (c : Chan) (s t : State) : Prop := ∀ d, d ≠ c → t.chan d = s.chan d

/-- Same mixer state: `G`, `SW`, both buffers (R33, R34, R37). -/
def SameMixer (s t : State) : Prop := t.g = s.g ∧ t.swL = s.swL ∧ t.swR = s.swR ∧ t.buf0 = s.buf0 ∧ t.buf1 = s.buf1

/-- Same fault status (R35). -/
def SameStatus (s t : State) : Prop := t.fault = s.fault ∧ t.fcode = s.fcode

/-- Same configuration and same waiting actions. -/
def SamePorts (s t : State) : Prop := t.cfg = s.cfg ∧ t.inputs = s.inputs

/-- The command completed: status `ok` and the data `d` (R12, R83). -/
def Answered (t : State) (d : Data) : Prop := t.response = some { status := .ok, data := d }

/-- The command raised a fault or was refused: status `fault`, no data (R190, R191). -/
def Rejected (t : State) : Prop := t.response = some { status := .fault, data := .absent }

end Sys2Proof.Machine
end

