-- ==== Sys2Proof/Certificates/Slice0/Obligations.lean ====
section
/-! DEFINITION. The statements for the provers. Each docstring names the rules of `spec/` it formalises. The numbers of the rules (the
PCM scale 128, the volume scale 64, the saturation bound 131072) and the values the source gives to `TICK_SEC`, `BASE` and `THRESH` are
written out here, so that a slip in the model's own constants would make a statement false. Where a rule depends on `TICK_SEC`, `BASE` or
`THRESH` the statement holds for every configuration of R6. -/

open Sys2Proof Sys2Proof.Machine

/-! Encoding. -/

/-- Decoding the word of any command gives the command back, with every operand at every value its field admits (R70 to R78). -/
def Obligations.DecodeEncodeRoundTrip : Prop := ∀ i : Instr, decode (encode i) = some i

/-- A word that decodes is the word of the command it decodes to: no bit of it is ignored (R80: "every bit of every word is either a field
or must be zero"). -/
def Obligations.EncodeOfDecodedWord : Prop := ∀ (w : Word) (i : Instr), decode w = some i → encode i = w

/-- The decoder by formats (R71 to R76) and the mask and match columns of the opcode table (R78) are the same decoder: a decoded word hits
a row of the command's mnemonic, an illegal word hits none, and no word hits two rows (R79, R80). -/
def Obligations.DecodeAgreesWithOpcodeTable : Prop :=
  ∀ w : Word,
    (∀ i, decode w = some i → ∃ r ∈ opRows, r.hit w = true ∧ r.mnemonic = i.mnemonic) ∧
    (decode w = none → ∀ r ∈ opRows, r.hit w = false) ∧
    (∀ r ∈ opRows, ∀ r' ∈ opRows, r.hit w = true → r'.hit w = true → r = r')

/-- Rule R80: the 13 unassigned operation codes are illegal; so is every word with bit 24 set; so is every word with channel bits in a
format that has none (N, S, A, B, F). -/
def Obligations.ReservedEncodingsAreIllegal : Prop :=
  (∀ w : Word, w.toNat / 2 ^ 27 ∈ [0x06, 0x07, 0x0F, 0x13, 0x14, 0x15, 0x16, 0x17, 0x1B, 0x1C, 0x1D, 0x1E, 0x1F] → decode w = none) ∧
  (∀ w : Word, w.toNat / 2 ^ 24 % 2 = 1 → decode w = none) ∧
  (∀ w : Word, w.toNat / 2 ^ 27 ∈ [0x00, 0x01, 0x02, 0x03, 0x04, 0x05, 0x12, 0x18, 0x1A] → w.toNat / 2 ^ 25 % 4 ≠ 0 → decode w = none)

/-- The 19 examples of rule R85, text beside word: the assembler gives the word, and the word decodes to the command of the text. -/
def Obligations.SpecExampleWords : Prop :=
  ∀ p ∈ [("NOP", 0x00000000#32), ("PCMPTR 0x20000", 0x08020000#32), ("PCMWR -64", 0x100000C0#32), ("SLEN 1, 4", 0x18010004#32),
      ("SLPS 2, 1", 0x20020001#32), ("SLPL 2, 2", 0x28020002#32), ("CSMP 0, 1", 0x40000001#32), ("CPER 3, 428", 0x4E0001AC#32),
      ("CFT 1, -1", 0x5200000F#32), ("CVOL 2, 64", 0x5C000040#32), ("CIDX 0, 256", 0x60000100#32), ("CSIL 1, 1", 0x6A000001#32),
      ("CLOOP 0, 0", 0x70000000#32), ("GEN 2", 0x84000000#32), ("MIX 3", 0x8E000000#32), ("SWAP", 0x90000000#32),
      ("STAT", 0xC0000000#32), ("CHRD 1, 4", 0xCA000004#32), ("FRD R, 7", 0xD0010007#32)],
    (assemble p.1).map encode = some p.2 ∧ decode p.2 = assemble p.1

/-! The step, reset, the invariant. -/

/-- One step executes the command the presented word decodes to, on the state without that word; nothing else happens around it
(R12, R79). -/
def Obligations.StepRunsDecodedCommand : Prop :=
  ∀ (s : State) (w : Word) (rest : List Input) (i : Instr),
    s.inputs = .command w :: rest → decode w = some i → step s = exec i { s with inputs := rest }

/-- With no action of the environment pending nothing changes (the model's own choice, log 7; R12: "no state changes between
commands"). -/
def Obligations.IdleStepChangesNothing : Prop := ∀ s : State, s.inputs = [] → step s = .next s

/-- Rule R181: an illegal word sent to a running block is not executed, and nothing but `FAULT` and `FCODE` changes; the code is 1. -/
def Obligations.IllegalWordRaisesIllegalCommand : Prop :=
  ∀ (s : State) (w : Word) (rest : List Input), s.fault = false → s.inputs = .command w :: rest → decode w = none →
    step s = .next { s with inputs := rest, fault := true, fcode := 1#3, response := some { status := .fault, data := .absent } }

/-- Every register and buffer but `FAULT`, `FCODE` and the converters at its reset value (the table of R41), PCM as it was (R211). -/
def RegistersAreReset (s t : State) : Prop :=
  (∀ c, (t.chan c).smp.toNat = 0 ∧ (t.chan c).period.toNat = 0 ∧ (t.chan c).ft.toInt = 0 ∧ (t.chan c).vol.toNat = 0 ∧
    (t.chan c).idx.toNat = 0 ∧ (t.chan c).rem = 0 ∧ (t.chan c).sil = false ∧ (t.chan c).loopact = false ∧
    (t.chan c).raw.length = s.cfg.rawcap ∧ (∀ x ∈ (t.chan c).raw, x = 0) ∧ (t.chan c).rawn = 0 ∧
    (t.chan c).out.length = s.cfg.nout ∧ (∀ x ∈ (t.chan c).out, x = 0)) ∧
  (∀ k, k ≠ 0#5 → t.desc? k = some { length := 0#16, loopstart := 0#16, looplen := 0#16 }) ∧
  t.pcmptr.toNat = 0 ∧ t.g = false ∧ t.swL = false ∧ t.swR = false ∧
  t.buf0.length = s.cfg.nout ∧ t.buf1.length = s.cfg.nout ∧
  (∀ f ∈ t.buf0, f.left = 0 ∧ f.right = 0) ∧ (∀ f ∈ t.buf1, f.left = 0 ∧ f.right = 0) ∧
  t.frontBuf = t.buf1 ∧ t.genBuf = t.buf0 ∧ SamePcm s t ∧ t.cfg = s.cfg

/-- Rule R210 (with the values of R41): reset of a block whose converter can be constructed sets every register and buffer to its reset value,
from any state, the halted one among them; PCM and the configuration stay. -/
def Obligations.ResetSetsEveryRegister : Prop :=
  ∀ (s : State) (rest : List Input), s.inputs = .reset :: rest → s.cfg.conv ≠ .failing →
    ∃ t, step s = .next t ∧ RegistersAreReset s t ∧ t.fault = false ∧ t.fcode.toNat = 0 ∧
      (∀ c, convInit s.cfg.conv = some (t.chan c).cv ∧ (t.chan c).cv.ratio = 1) ∧ t.inputs = rest

/-- Rules R186 and R213: when the converter cannot be constructed, reset leaves the block halted with `FCODE` = 6, every other register at
its reset value and PCM kept (R211), and so does every further reset; with `CONV_LIN` it never halts. -/
def Obligations.FailedConstructionHaltsAtReset : Prop :=
  ∀ (s : State) (rest : List Input), s.inputs = .reset :: rest →
    ∃ t, step s = .next t ∧ t.inputs = rest ∧ RegistersAreReset s t ∧
      (s.cfg.conv = .failing → t.fault = true ∧ t.fcode.toNat = 6 ∧
        ∀ rest' u, step { t with inputs := .reset :: rest' } = .next u → u.fault = true ∧ u.fcode.toNat = 6) ∧
      (s.cfg.conv = .linear → t.fault = false ∧ t.fcode.toNat = 0)

/-- The state after reset is a legal state and runs. Its configuration is the model's own free one (log 2, log 5). -/
def Obligations.ResetStateIsLegal : Prop := State.reset.Ok ∧ State.reset.fault = false

/-- The configuration (R6, R20) has the source's values of `TICK_SEC`, `BASE` and `THRESH` in the machine after reset, with a positive output rate
and at least one frame a tick; no command and no reset changes any of it. -/
def Obligations.ConfigurationIsFixed : Prop :=
  State.reset.cfg.tickSec = 1 / 50 ∧ State.reset.cfg.base = 10072382087 / 10000000000 ∧ State.reset.cfg.thresh = 3 / 4 ∧
  State.reset.cfg.Admissible ∧ ((State.reset.cfg.nout : Int) = (State.reset.cfg.outputRate / 50).floor) ∧
  ∀ s t : State, step s = .next t → t.cfg = s.cfg

/-- Every step keeps a legal state legal, whatever the action: registers in range (R9, R25, R27, R30), buffers of their sizes (R36, R37), PCM in
canonical form, `FCODE` = 0 exactly while running and 1..6 while halted (R35, R180). -/
def Obligations.StepKeepsStateLegal : Prop := ∀ s t : State, s.Ok → step s = .next t → t.Ok

/-- Both frame buffers hold only samples that are zero or below `THRESH` at reset, and every step keeps it so (R152: every stored value at or
above the threshold is zero). -/
def Obligations.BuffersStayBelowThreshold : Prop :=
  (∀ f, f ∈ State.reset.buf0 ∨ f ∈ State.reset.buf1 → f.left < 3 / 4 ∧ f.right < 3 / 4) ∧
  ∀ s t : State, BelowThreshold s.cfg s.buf0 → BelowThreshold s.cfg s.buf1 → step s = .next t →
    BelowThreshold s.cfg t.buf0 ∧ BelowThreshold s.cfg t.buf1

/-- Every presented word gets exactly one response (R12, R83): status `fault` exactly when the block is halted afterwards, but for `STAT`
(R165), which is always `ok`; a rejected command has no data; only `STAT` and `CHRD` answer a word, only `FRD` a sample. -/
def Obligations.EveryCommandIsAnswered : Prop :=
  ∀ (s : State) (w : Word) (rest : List Input), s.inputs = .command w :: rest →
    ∃ (t : State) (r : Response), step s = .next t ∧ t.response = some r ∧ t.inputs = rest ∧ t.cfg = s.cfg ∧
      (w ≠ 0xC0000000#32 → (r.status = .fault ↔ t.fault = true)) ∧
      (w = 0xC0000000#32 → r.status = .ok) ∧
      (r.status = .fault → r.data = .absent) ∧
      (∀ x, r.data = .word x → decode w = some .stat ∨ ∃ c sel, decode w = some (.chrd c sel)) ∧
      (∀ v, r.data = .sample v → ∃ d j, decode w = some (.frd d j))

/-! The halted block and the faults. -/

/-- Rule R191: while `FAULT` = 1 every command except `STAT` (word 0xC0000000), an illegal word among them, is refused: no state changes,
`FCODE` among it, and the status is `fault`. -/
def Obligations.HaltedBlockRefusesAllButStat : Prop :=
  ∀ (s : State) (w : Word) (rest : List Input), s.fault = true → s.inputs = .command w :: rest → w ≠ 0xC0000000#32 →
    step s = .next { s with inputs := rest, response := some { status := .fault, data := .absent } }

/-- Rule R192: no command clears `FAULT` or changes the recorded cause; reset reinitialises everything but PCM. -/
def Obligations.OnlyResetLeavesTheHaltedState : Prop :=
  (∀ s t : State, s.fault = true → step s = .next t → (∀ rest, s.inputs ≠ .reset :: rest) → t.fault = true ∧ t.fcode = s.fcode) ∧
  (∀ (s t : State) (rest : List Input), s.cfg.conv ≠ .failing → s.inputs = .reset :: rest → step s = .next t →
    t.fault = false ∧ t = { State.initial s.cfg s.pcm with inputs := rest })

/-- Rule R185: an operand outside its range halts a running block with code 5, and nothing but `FAULT` and `FCODE` changes. -/
def Obligations.OperandRangeFault : Prop :=
  ∀ s : State, s.fault = false →
    (∀ v, exec (.slen 0#5 v) s =
      .next { s with fault := true, fcode := 5#3, response := some { status := .fault, data := .absent } }) ∧
    (∀ v, exec (.slps 0#5 v) s =
      .next { s with fault := true, fcode := 5#3, response := some { status := .fault, data := .absent } }) ∧
    (∀ v, exec (.slpl 0#5 v) s =
      .next { s with fault := true, fcode := 5#3, response := some { status := .fault, data := .absent } }) ∧
    (∀ c sel, 6 ≤ sel.toNat → exec (.chrd c sel) s =
      .next { s with fault := true, fcode := 5#3, response := some { status := .fault, data := .absent } }) ∧
    (∀ d j, s.cfg.nout ≤ j.toNat → exec (.frd d j) s =
      .next { s with fault := true, fcode := 5#3, response := some { status := .fault, data := .absent } })

/-- Which command can halt a running block, and with which code (R180, R193): an ill-formed operand (R81) with 5, or `GEN` with 2, 3
or 4; nothing else. -/
def Obligations.FaultCodesByCommand : Prop :=
  ∀ (i : Instr) (s t : State), s.fault = false → exec i s = .next t →
    (t.fault = true →
      (i.wellFormed s.cfg.nout = false ∧ t.fcode.toNat = 5) ∨
      (∃ c, i = .gen c ∧ (t.fcode.toNat = 2 ∨ t.fcode.toNat = 3 ∨ t.fcode.toNat = 4))) ∧
    (i.wellFormed s.cfg.nout = false → t.fault = true)

/-- What a fault leaves alone (R182 to R185, R190): the mixer and both buffers, PCM, the pointer, the descriptors, every channel's host-written
registers, its `OUT` and its converter; "a partial tick cannot be safely emitted". -/
def Obligations.FaultsEmitNothing : Prop :=
  ∀ (i : Instr) (s t : State), s.fault = false → exec i s = .next t → t.fault = true →
    SameMixer s t ∧ SamePcm s t ∧ t.pcmptr = s.pcmptr ∧ SameDescs s t ∧ SamePorts s t ∧ Rejected t ∧
    ∀ c, (t.chan c).out = (s.chan c).out ∧ (t.chan c).cv = (s.chan c).cv ∧ (t.chan c).smp = (s.chan c).smp ∧
      (t.chan c).period = (s.chan c).period ∧ (t.chan c).ft = (s.chan c).ft ∧ (t.chan c).vol = (s.chan c).vol

/-! Configuration commands. -/

/-- Rule R113: word 0 is `NOP`; on a running block it answers `(ok, absent)` and leaves every register as it was; on a halted one it is
refused. -/
def Obligations.NopChangesNothing : Prop :=
  decode 0x00000000#32 = some .nop ∧
  ∀ s : State,
    (s.fault = false → exec .nop s = .next { s with response := some { status := .ok, data := .absent } }) ∧
    (s.fault = true → exec .nop s = .next { s with response := some { status := .fault, data := .absent } })

/-- Rule R101: `PCMPTR a` (format A, operation code 1) sets the pointer, for every address, and touches nothing else. -/
def Obligations.PcmptrSetsThePointer : Prop :=
  ∀ a : BitVec 22, decode (BitVec.ofNat 32 (0x08000000 + a.toNat)) = some (.pcmptr a) ∧
    ∀ s : State, s.fault = false →
      exec (.pcmptr a) s = .next { s with pcmptr := a, response := some { status := .ok, data := .absent } }

/-- Rule R102: `PCMWR b` (format B, operation code 2) stores the byte at `PCMPTR`, leaves every other byte alone, and advances the pointer
modulo 2^22; nothing else changes. -/
def Obligations.PcmwrStoresAndAdvances : Prop :=
  ∀ b : Byte, decode (BitVec.ofNat 32 (0x10000000 + b.toNat)) = some (.pcmwr b) ∧
    ∀ s : State, s.fault = false → Memory.wf s.cfg.initialByte s.pcm = true →
      ∃ t, exec (.pcmwr b) s = .next t ∧ t.pcmByte s.pcmptr = b ∧ (∀ a, a ≠ s.pcmptr → t.pcmByte a = s.pcmByte a) ∧
        t.pcmptr.toNat = (s.pcmptr.toNat + 1) % 2 ^ 22 ∧ Answered t .absent ∧
        SameChans s t ∧ SameDescs s t ∧ SameMixer s t ∧ SameStatus s t ∧ SamePorts s t

/-- `SLEN`, `SLPS`, `SLPL` on a slot 1..31 (R103, R104, R105): the one field of the one slot; every other slot, the other fields and all
other state stay. -/
def Obligations.DescriptorWritesSetOneField : Prop :=
  ∀ (s : State) (k : Slot) (v : BitVec 16), s.fault = false → k ≠ 0#5 →
    ∃ d, s.desc? k = some d ∧
      (∃ t, exec (.slen k v) s = .next t ∧ t.desc? k = some { d with length := v } ∧ (∀ l, l ≠ k → t.desc? l = s.desc? l) ∧
        Answered t .absent ∧ SameChans s t ∧ SamePcm s t ∧ t.pcmptr = s.pcmptr ∧ SameMixer s t ∧ SameStatus s t ∧ SamePorts s t) ∧
      (∃ t, exec (.slps k v) s = .next t ∧ t.desc? k = some { d with loopstart := v } ∧ (∀ l, l ≠ k → t.desc? l = s.desc? l) ∧
        Answered t .absent ∧ SameChans s t ∧ SamePcm s t ∧ t.pcmptr = s.pcmptr ∧ SameMixer s t ∧ SameStatus s t ∧ SamePorts s t) ∧
      (∃ t, exec (.slpl k v) s = .next t ∧ t.desc? k = some { d with looplen := v } ∧ (∀ l, l ≠ k → t.desc? l = s.desc? l) ∧
        Answered t .absent ∧ SameChans s t ∧ SamePcm s t ∧ t.pcmptr = s.pcmptr ∧ SameMixer s t ∧ SameStatus s t ∧ SamePorts s t)

/-- The channel register writes (R106 to R112, R114): the named register, `CVOL` clamped at 64 (R109), `CIDX` with the remainder cleared
(R110); the channel's other registers, the other channels and all other state stay. -/
def Obligations.ChannelWritesSetOneRegister : Prop :=
  ∀ (s : State) (c : Chan), s.fault = false →
    (∀ i : Instr,
      (∃ x, i = .csmp c x) ∨ (∃ x, i = .cper c x) ∨ (∃ x, i = .cft c x) ∨ (∃ x, i = .cvol c x) ∨ (∃ x, i = .cidx c x) ∨
        (∃ x, i = .csil c x) ∨ (∃ x, i = .cloop c x) →
      ∃ t, exec i s = .next t ∧ Answered t .absent ∧ SameOtherChans c s t ∧ SameDescs s t ∧ SamePcm s t ∧ t.pcmptr = s.pcmptr ∧
        SameMixer s t ∧ SameStatus s t ∧ SamePorts s t) ∧
    (∀ x, (after (.csmp c x) s).chan c = { s.chan c with smp := x }) ∧
    (∀ x, (after (.cper c x) s).chan c = { s.chan c with period := x }) ∧
    (∀ x, (after (.cft c x) s).chan c = { s.chan c with ft := x }) ∧
    (∀ x, ((after (.cvol c x) s).chan c).vol.toNat = min x.toNat 64 ∧
      (after (.cvol c x) s).chan c = { s.chan c with vol := ((after (.cvol c x) s).chan c).vol }) ∧
    (∀ x, ((after (.cidx c x) s).chan c).idx.toNat = x.toNat ∧
      (after (.cidx c x) s).chan c = { s.chan c with idx := ((after (.cidx c x) s).chan c).idx, rem := 0 }) ∧
    (∀ x, (after (.csil c x) s).chan c = { s.chan c with sil := x }) ∧
    (∀ x, (after (.cloop c x) s).chan c = { s.chan c with loopact := x })

/-- What the host writes into a channel it reads back through `CHRD` (R106 to R112 against R166): the register, zero-extended; the
finetune sign-extended; the volume clamped. -/
def Obligations.WrittenRegistersReadBack : Prop :=
  ∀ (s : State) (c : Chan), s.fault = false →
    (∀ x, ∃ w, Answered (after (.chrd c 0#3) (after (.csmp c x) s)) (.word w) ∧ w.toNat = x.toNat) ∧
    (∀ x, ∃ w, Answered (after (.chrd c 1#3) (after (.cper c x) s)) (.word w) ∧ w.toNat = x.toNat) ∧
    (∀ x, ∃ w, Answered (after (.chrd c 2#3) (after (.cft c x) s)) (.word w) ∧ w.toInt = x.toInt) ∧
    (∀ x, ∃ w, Answered (after (.chrd c 3#3) (after (.cvol c x) s)) (.word w) ∧ w.toNat = min x.toNat 64) ∧
    (∀ x, ∃ w, Answered (after (.chrd c 4#3) (after (.cidx c x) s)) (.word w) ∧ w.toNat = x.toNat) ∧
    (∀ x y, ∃ w, Answered (after (.chrd c 5#3) (after (.cloop c y) (after (.csil c x) s))) (.word w) ∧
      w.toNat = x.toNat + 2 * y.toNat)

/-! `GEN`: rate and sample count. -/

/-- Rules R120 and R121 with the power of the rationals: `rate(p, f) = CLOCK_CONST / (2 * p) * BASE^f`, positive, and a lower period gives a
higher rate; of a channel, the native rate is that of its `PERIOD` and `FT`, `need` is the rate times `TICK_SEC` (the rate over 50 with
the source's value), and `N` is its floor. -/
def Obligations.RateIsTheSpecFormula : Prop :=
  ∀ cfg : Cfg, cfg.Admissible →
    (∀ (p : Nat) (f : Int), 0 < p →
      rate cfg p f = cfg.clockConst / (2 * (p : Rat)) * cfg.base ^ f ∧ 0 < rate cfg p f ∧ ∀ q : Nat, p < q → rate cfg q f < rate cfg p f) ∧
    (∀ ch : Channel, ch.period ≠ 0#12 →
      nativeRate cfg ch = cfg.clockConst / (2 * (ch.period.toNat : Rat)) * cfg.base ^ ch.ft.toInt ∧
      tickNeed cfg ch = nativeRate cfg ch * cfg.tickSec ∧ 0 < tickNeed cfg ch ∧
      (cfg.tickSec = 1 / 50 → tickNeed cfg ch = nativeRate cfg ch / 50) ∧
      (tickCount cfg ch : Int) = (tickNeed cfg ch).floor)

/-- Rule R184: an active `GEN` that needs more than `RAWCAP` samples, `floor(rate * TICK_SEC) > RAWCAP`, which is `floor(rate / 50) > RAWCAP` with the
source's tick, halts with code 4 before any other change. -/
def Obligations.RateRangeFault : Prop :=
  ∀ (s : State) (c : Chan) (d : Desc) (r : Rat), Active s c d →
    r = s.cfg.clockConst / (2 * ((s.chan c).period.toNat : Rat)) * s.cfg.base ^ (s.chan c).ft.toInt →
    ((s.cfg.rawcap : Int) < (r * s.cfg.tickSec).floor ∨ (s.cfg.tickSec = 1 / 50 ∧ (s.cfg.rawcap : Int) < (r / 50).floor)) →
    exec (.gen c) s =
      .next { s with fault := true, fcode := 4#3, response := some { status := .fault, data := .absent } }

/-! `GEN`: the silent path, the frame, the read loop. -/

/-- Rule R124: `GEN` on an effectively silent channel emits `NOUT` zeros and forces the converter's ratio to 1; nothing else of the
channel, and nothing else at all, changes. -/
def Obligations.GenSilentPath : Prop :=
  ∀ (s : State) (c : Chan), s.fault = false → Silent s c →
    ∃ t, exec (.gen c) s = .next t ∧ Answered t .absent ∧
      (t.chan c).out.length = s.cfg.nout ∧ (∀ x ∈ (t.chan c).out, x = 0) ∧
      (t.chan c).cv = convSetRatio s.cfg.conv (s.chan c).cv 1 ∧ (t.chan c).cv.ratio = 1 ∧
      t.chan c = { s.chan c with out := (t.chan c).out, cv := (t.chan c).cv } ∧
      SameOtherChans c s t ∧ SameDescs s t ∧ SamePcm s t ∧ t.pcmptr = s.pcmptr ∧ SameMixer s t ∧ SameStatus s t ∧ SamePorts s t

/-- The frame of `GEN c` (R122, R60), on every path: nothing of any other channel, nothing of the mixer, no memory, no descriptor; of its own
channel not the host-written registers; `SIL` and `LOOPACT` are only ever set. -/
def Obligations.GenTouchesOnlyItsChannel : Prop :=
  ∀ (s t : State) (c : Chan), exec (.gen c) s = .next t →
    SameOtherChans c s t ∧ SameDescs s t ∧ SamePcm s t ∧ t.pcmptr = s.pcmptr ∧ SameMixer s t ∧ SamePorts s t ∧
    (t.chan c).smp = (s.chan c).smp ∧ (t.chan c).period = (s.chan c).period ∧ (t.chan c).ft = (s.chan c).ft ∧
    (t.chan c).vol = (s.chan c).vol ∧ ((s.chan c).sil = true → (t.chan c).sil = true) ∧
    ((s.chan c).loopact = true → (t.chan c).loopact = true)

/-- The sample `GEN` takes from index `i` of its slot (R51, R53, R130): the signed byte at `slot * 131072 + i`, over 128, times the volume, times
the headroom, rounded. -/
def ScaledAt (s : State) (c : Chan) (i : Nat) (v : Rat) : Prop :=
  ∀ a : BitVec 22, a.toNat = (s.chan c).smp.toNat * 131072 + i →
    v = s.cfg.round (((s.pcmByte a).toInt : Rat) / 128 * (((s.chan c).vol.toNat : Rat) / 64) * s.cfg.headroom)

/-- How an active `GEN` whose read loop was not stopped ends (R134, R138, R182), for any converter: with `ok` when the converter answers, which
`CONV_LIN` always does, and with `ConvFail` when it fails. -/
def ConverterDecides (s t : State) (c : Chan) : Prop :=
  (s.cfg.conv = .linear → Answered t .absent ∧ t.fault = false) ∧
  ∀ answer, answer = convProcess s.cfg.conv (s.chan c).cv (s.cfg.outputRate / nativeRate s.cfg (s.chan c))
      ((t.chan c).raw.take (tickCount s.cfg (s.chan c))) s.cfg.nout →
    (answer ≠ none → Answered t .absent ∧ t.fault = false) ∧ (answer = none → Rejected t ∧ t.fault = true ∧ t.fcode.toNat = 2)

/-- The tick's raw samples are the first `N` entries of `RAW`, and the entries beyond them are as they were (R122, R126). -/
def RawFilled (s t : State) (c : Chan) : Prop :=
  (t.chan c).rawn = tickCount s.cfg (s.chan c) ∧
  ∀ i, tickCount s.cfg (s.chan c) ≤ i → (t.chan c).raw.getD i 0 = (s.chan c).raw.getD i 0

/-- The carry (R132) after a read loop that left the read index at `pos`: the fraction of the tick is added to the remainder, and a whole
sample is folded into the index, which saturates at 131072. -/
def CarriedFrom (s t : State) (c : Chan) (pos : Nat) : Prop :=
  ∀ frac : Rat, frac = tickNeed s.cfg (s.chan c) - (tickCount s.cfg (s.chan c) : Rat) →
    ((s.chan c).rem + frac < 1 → (t.chan c).idx.toNat = pos ∧ (t.chan c).rem = s.cfg.round ((s.chan c).rem + frac)) ∧
    (1 ≤ (s.chan c).rem + frac →
      (t.chan c).idx.toNat = min (pos + 1) 131072 ∧ (t.chan c).rem = s.cfg.round ((s.chan c).rem + frac - 1))

/-- Playing with no end in the tick (R122, R126, R132), for any converter: while the tick's `N` samples lie before the end that is looked at,
`GEN` stores exactly those samples scaled, leaves the flags, and moves the position on by `N` and the carried fraction. With `N` = 0 no end
is looked at, wherever the index stands (R143): it creeps by folds alone, up to 131072. -/
def Obligations.GenPlaysConsecutiveSamples : Prop :=
  ∀ (s : State) (c : Chan) (d : Desc), Active s c d → tickCount s.cfg (s.chan c) ≤ s.cfg.rawcap →
    (tickCount s.cfg (s.chan c) = 0 ∨
      ((s.chan c).idx.toNat + tickCount s.cfg (s.chan c) ≤ (if (s.chan c).loopact then d.lend else d.send) ∧
        (s.chan c).idx.toNat + tickCount s.cfg (s.chan c) ≤ d.send)) →
    ∃ t, exec (.gen c) s = .next t ∧ ConverterDecides s t c ∧ RawFilled s t c ∧
      (∀ i, i < tickCount s.cfg (s.chan c) → ScaledAt s c ((s.chan c).idx.toNat + i) ((t.chan c).raw.getD i 0)) ∧
      (t.chan c).sil = (s.chan c).sil ∧ (t.chan c).loopact = (s.chan c).loopact ∧
      CarriedFrom s t c ((s.chan c).idx.toNat + tickCount s.cfg (s.chan c))

/-- Playing inside an armed loop (R127, R128), for any converter: raw sample `i` comes from the position that runs to the loop end and from
there round and round the loop (a loop of no words, armed by the host, repeats the sample at its start); an index at or beyond the loop end
starts at the loop start. The flags stay; the index
ends one beyond the last sample read (where it stood when `N` = 0), and the carry follows as on any tick (R132): a wrap leaves the remainder
alone. -/
def Obligations.GenPlaysTheLoop : Prop :=
  ∀ (s : State) (c : Chan) (d : Desc) (p n : Nat), Active s c d → n = tickCount s.cfg (s.chan c) → n ≤ s.cfg.rawcap →
    (s.chan c).loopact = true → d.lend ≤ d.send → d.lbeg < d.send →
    p = (if d.lend ≤ (s.chan c).idx.toNat then d.lbeg else (s.chan c).idx.toNat) →
    ∃ t, exec (.gen c) s = .next t ∧ ConverterDecides s t c ∧ RawFilled s t c ∧
      (∀ i, i < n →
        (p + i < d.lend → ScaledAt s c (p + i) ((t.chan c).raw.getD i 0)) ∧
        (d.lend ≤ p + i → ScaledAt s c (d.lbeg + (p + i - d.lend) % max 1 (2 * d.looplen.toNat)) ((t.chan c).raw.getD i 0))) ∧
      (t.chan c).sil = (s.chan c).sil ∧ (t.chan c).loopact = true ∧
      (n = 0 → CarriedFrom s t c (s.chan c).idx.toNat) ∧
      (1 ≤ n → p + n ≤ d.lend → CarriedFrom s t c (p + n)) ∧
      (d.lend < p + n → CarriedFrom s t c (d.lbeg + (p + n - 1 - d.lend) % max 1 (2 * d.looplen.toNat) + 1))

/-- The end of a sample without a loop (R129), for any converter: the samples up to the end, then zeros; `SIL` is set, the index stays at the end
(or beyond it, where the host put it), and the carry is skipped (R132). -/
def Obligations.GenZeroFillsAtSampleEnd : Prop :=
  ∀ (s : State) (c : Chan) (d : Desc), Active s c d → tickCount s.cfg (s.chan c) ≤ s.cfg.rawcap →
    (s.chan c).loopact = false → d.looplen.toNat ≤ 1 → 1 ≤ tickCount s.cfg (s.chan c) →
    d.send < (s.chan c).idx.toNat + tickCount s.cfg (s.chan c) →
    ∃ t, exec (.gen c) s = .next t ∧ ConverterDecides s t c ∧ RawFilled s t c ∧
      (∀ i, i < tickCount s.cfg (s.chan c) →
        ((s.chan c).idx.toNat + i < d.send → ScaledAt s c ((s.chan c).idx.toNat + i) ((t.chan c).raw.getD i 0)) ∧
        (d.send ≤ (s.chan c).idx.toNat + i → (t.chan c).raw.getD i 0 = 0)) ∧
      (t.chan c).sil = true ∧ (t.chan c).loopact = false ∧ (t.chan c).idx.toNat = max (s.chan c).idx.toNat d.send ∧
      (t.chan c).rem = (s.chan c).rem

/-- The end of a sample with a loop (R129), for any converter: `LOOPACT` is armed, and the tick goes on in the loop from its start; so the first
pass plays the whole sample, later passes only the loop. The index ends one beyond the last sample read, and the carry follows (R132): a
wrap leaves the remainder alone (R128). -/
def Obligations.GenArmsTheLoopAtSampleEnd : Prop :=
  ∀ (s : State) (c : Chan) (d : Desc) (n : Nat), Active s c d → n = tickCount s.cfg (s.chan c) → n ≤ s.cfg.rawcap →
    (s.chan c).loopact = false → 1 < d.looplen.toNat → d.loopstart.toNat + d.looplen.toNat ≤ d.length.toNat →
    1 ≤ n → d.send < (s.chan c).idx.toNat + n →
    ∃ t, exec (.gen c) s = .next t ∧ ConverterDecides s t c ∧ RawFilled s t c ∧
      (∀ i, i < n →
        ((s.chan c).idx.toNat + i < d.send → ScaledAt s c ((s.chan c).idx.toNat + i) ((t.chan c).raw.getD i 0)) ∧
        (d.send ≤ (s.chan c).idx.toNat + i →
          ScaledAt s c (d.lbeg + (i - (d.send - (s.chan c).idx.toNat)) % (2 * d.looplen.toNat)) ((t.chan c).raw.getD i 0))) ∧
      (t.chan c).sil = (s.chan c).sil ∧ (t.chan c).loopact = true ∧
      CarriedFrom s t c (d.lbeg + (n - 1 - (d.send - (s.chan c).idx.toNat)) % (2 * d.looplen.toNat) + 1)

/-- `GEN` completes (R131, R125, R142): on a running block, for an active channel whose tick fits `RAWCAP` and whose loop, where one is armed or
there is one, lies inside the sample, and with the reference converter (R140), `GEN` never faults; the whole of `OUT` is written. -/
def Obligations.GenCompletesWhenLoopInside : Prop :=
  ∀ (s : State) (c : Chan) (d : Desc), Active s c d → s.cfg.conv = .linear → tickCount s.cfg (s.chan c) ≤ s.cfg.rawcap →
    LoopInside d (s.chan c).loopact →
    ∃ t, exec (.gen c) s = .next t ∧ Answered t .absent ∧ SameStatus s t ∧ (t.chan c).rawn = tickCount s.cfg (s.chan c) ∧
      (t.chan c).out.length = s.cfg.nout ∧ (t.chan c).cv.ratio = s.cfg.outputRate / nativeRate s.cfg (s.chan c) ∧
      ((s.chan c).idx.toNat ≤ 131072 → (t.chan c).idx.toNat ≤ 131072) ∧
      (0 ≤ (s.chan c).rem → (s.chan c).rem < 1 → s.cfg.Admissible → 0 ≤ (t.chan c).rem ∧ (t.chan c).rem < 1)

/-- `GEN` reads no PCM byte outside `[0, SEND)` of its slot, no other channel and no other descriptor (R54, R142): two states that agree
on the rest of what it may read give the same channel, the same fault and the same response. -/
def Obligations.GenReadsOnlyInsideTheSample : Prop :=
  ∀ (s u : State) (c : Chan), s.cfg = u.cfg → s.fault = u.fault → s.fcode = u.fcode → s.chan c = u.chan c →
    s.desc? (s.chan c).smp = u.desc? (s.chan c).smp →
    (∀ d, s.desc? (s.chan c).smp = some d → ∀ a : BitVec 22, (s.chan c).smp.toNat * 131072 ≤ a.toNat →
      a.toNat < (s.chan c).smp.toNat * 131072 + d.send → s.pcmByte a = u.pcmByte a) →
    (after (.gen c) s).chan c = (after (.gen c) u).chan c ∧ (after (.gen c) s).fault = (after (.gen c) u).fault ∧
      (after (.gen c) s).fcode = (after (.gen c) u).fcode ∧ (after (.gen c) s).response = (after (.gen c) u).response

/-- Rule R183: what `PcmBounds` leaves: the index stands at or beyond the sample end; `REM`, `RAWN`, `SIL`, `OUT` and the converter are as
before. -/
def Obligations.PcmBoundsStopsBeforeTheRead : Prop :=
  ∀ (s t : State) (c : Chan), s.fault = false → exec (.gen c) s = .next t → t.fault = true → t.fcode.toNat = 3 →
    (∃ d, Active s c d ∧ d.send ≤ (t.chan c).idx.toNat) ∧
    (t.chan c).rem = (s.chan c).rem ∧ (t.chan c).rawn = (s.chan c).rawn ∧ (t.chan c).sil = (s.chan c).sil ∧
    (t.chan c).out = (s.chan c).out ∧ (t.chan c).cv = (s.chan c).cv

/-- `GEN` halted with `PcmBounds` (R183, R190): code 3, `LOOPACT` set, the index at `pos`, the first `k` entries of `RAW` written and the rest as
they were, `REM`, `RAWN`, `SIL`, `OUT`, `CV` as they were. -/
def StoppedAtBounds (s t : State) (c : Chan) (pos k : Nat) : Prop :=
  Rejected t ∧ t.fault = true ∧ t.fcode.toNat = 3 ∧ (t.chan c).idx.toNat = pos ∧ (t.chan c).loopact = true ∧
  (∀ i, k ≤ i → (t.chan c).raw.getD i 0 = (s.chan c).raw.getD i 0) ∧
  (t.chan c).rem = (s.chan c).rem ∧ (t.chan c).rawn = (s.chan c).rawn ∧ (t.chan c).sil = (s.chan c).sil ∧
  (t.chan c).out = (s.chan c).out ∧ (t.chan c).cv = (s.chan c).cv

/-- When `PcmBounds` is raised (R131), with the samples read before it kept in `RAW` (R183). An armed loop that ends beyond the sample end, or
starts at or beyond it: `GEN` plays up to the sample end and halts there, or at once at the loop start, as soon as the tick asks for one
sample more. A loop that is armed in this tick and is not inside the sample: the samples up to the end, then those from the loop start up
to the end, if any. -/
def Obligations.GenRaisesPcmBoundsOutsideTheSample : Prop :=
  (∀ (s : State) (c : Chan) (d : Desc) (p n : Nat), Active s c d → n = tickCount s.cfg (s.chan c) → n ≤ s.cfg.rawcap →
    (s.chan c).loopact = true → (d.send < d.lend ∨ d.send ≤ d.lbeg) →
    p = (if d.lend ≤ (s.chan c).idx.toNat then d.lbeg else (s.chan c).idx.toNat) → 1 ≤ n → d.send < p + n →
    ∃ t, exec (.gen c) s = .next t ∧ StoppedAtBounds s t c (max p d.send) (d.send - p) ∧
      ∀ i, p + i < d.send → ScaledAt s c (p + i) ((t.chan c).raw.getD i 0)) ∧
  (∀ (s : State) (c : Chan) (d : Desc) (n k : Nat), Active s c d → n = tickCount s.cfg (s.chan c) → n ≤ s.cfg.rawcap →
    (s.chan c).loopact = false → 1 < d.looplen.toNat → d.length.toNat < d.loopstart.toNat + d.looplen.toNat →
    k = d.send - (s.chan c).idx.toNat → k + (d.send - d.lbeg) < n →
    ∃ t, exec (.gen c) s = .next t ∧ StoppedAtBounds s t c (max d.lbeg d.send) (k + (d.send - d.lbeg)) ∧
      (∀ i, i < k → ScaledAt s c ((s.chan c).idx.toNat + i) ((t.chan c).raw.getD i 0)) ∧
      (∀ i, d.lbeg + i < d.send → ScaledAt s c (d.lbeg + i) ((t.chan c).raw.getD (k + i) 0)))

/-- Rule R182: `ConvFail` is raised when the converter fails, with the synthesizer's part of the command done: the channel is as the
reference converter would have left it, but for `CV` and `OUT`, which are unchanged. The reference converter never fails. -/
def Obligations.ConvFailKeepsTheSynthesizerPart : Prop :=
  (∀ (s t u : State) (c : Chan), s.fault = false → exec (.gen c) s = .next t → t.fault = true → t.fcode.toNat = 2 →
    exec (.gen c) { s with cfg := { s.cfg with conv := .linear } } = .next u →
    u.fault = false ∧ t.chan c = { u.chan c with cv := (s.chan c).cv, out := (s.chan c).out }) ∧
  (∀ (s t : State) (c : Chan), s.fault = false → s.cfg.conv = .linear → exec (.gen c) s = .next t → t.fcode.toNat = 2 →
    s.fcode.toNat = 2)

/-! `GEN`: conversion. -/

/-- What `GEN` does with the answer of any converter (R133, R134, R136, R182), reference or not: the converter gets its own state, the ratio
`OUTPUT_RATE / rate`, the tick's raw samples and `NOUT`; when it answers, `CV` is its new state and `OUT` its frames, each rounded, the last
one repeated, zeros when it made none; when it fails, `ConvFail`. -/
def Obligations.GenPadsAnyConverterOutput : Prop :=
  ∀ (s t : State) (c : Chan) (d : Desc) (answer : Option (ConvState × List Rat)), Active s c d →
    tickCount s.cfg (s.chan c) ≤ s.cfg.rawcap → LoopInside d (s.chan c).loopact → exec (.gen c) s = .next t →
    answer = convProcess s.cfg.conv (s.chan c).cv (s.cfg.outputRate / nativeRate s.cfg (s.chan c))
      ((t.chan c).raw.take (tickCount s.cfg (s.chan c))) s.cfg.nout →
    (answer = none → t.fault = true ∧ t.fcode.toNat = 2 ∧ Rejected t ∧ (t.chan c).cv = (s.chan c).cv ∧ (t.chan c).out = (s.chan c).out) ∧
    (∀ cv ys, answer = some (cv, ys) → t.fault = false ∧ Answered t .absent ∧ (t.chan c).cv = cv ∧ ys.length ≤ s.cfg.nout ∧
      (t.chan c).out.length = s.cfg.nout ∧
      (∀ j, j < ys.length → (t.chan c).out.getD j 0 = s.cfg.round (ys.getD j 0)) ∧
      (∀ j, ys.length ≤ j → j < s.cfg.nout →
        (0 < ys.length → (t.chan c).out.getD j 0 = s.cfg.round (ys.getD (ys.length - 1) 0)) ∧
        (ys.length = 0 → (t.chan c).out.getD j 0 = 0)))

/-- Output of an active `GEN` with the reference converter (R133, R134, R140): frame `j` sits at input position `j / R`, interpolated between
its two neighbours in `RAW`; beyond the last interval it is the last sample; frames the converter did not make repeat the last one it
made; every frame is rounded once. -/
def Obligations.GenOutputIsInterpolated : Prop :=
  ∀ (s t : State) (c : Chan) (d : Desc) (r : Rat) (g : Nat), Active s c d → s.cfg.conv = .linear → exec (.gen c) s = .next t →
    t.fault = false → r = s.cfg.outputRate / nativeRate s.cfg (s.chan c) →
    g = min s.cfg.nout (((t.chan c).rawn : Rat) * r).ceil.toNat →
    (t.chan c).out.length = s.cfg.nout ∧ (t.chan c).cv.ratio = r ∧
    (∀ (j i : Nat) (p : Rat), j < g → p = (j : Rat) / r → i = p.floor.toNat →
      (i + 1 < (t.chan c).rawn →
        (t.chan c).out.getD j 0 = s.cfg.round ((t.chan c).raw.getD i 0 +
          (p - (i : Rat)) * ((t.chan c).raw.getD (i + 1) 0 - (t.chan c).raw.getD i 0))) ∧
      ((t.chan c).rawn ≤ i + 1 → (t.chan c).out.getD j 0 = s.cfg.round ((t.chan c).raw.getD ((t.chan c).rawn - 1) 0))) ∧
    (∀ j, g ≤ j → j < s.cfg.nout →
      (0 < g → (t.chan c).out.getD j 0 = (t.chan c).out.getD (g - 1) 0) ∧ (g = 0 → (t.chan c).out.getD j 0 = 0))

/-- At ratio 1 the reference converter changes nothing (R141 (a)). -/
def Obligations.RatioOneIsIdentity : Prop :=
  ∀ (xs : List Rat) (nout : Nat), convLin 1 xs nout = xs.take nout

/-- Every frame of the reference converter lies between the least and the greatest input sample (R141 (b)), for every positive ratio. -/
def Obligations.InterpolationStaysInRange : Prop :=
  ∀ (r : Rat) (xs : List Rat) (nout : Nat) (lo hi : Rat), 0 < r → (∀ x ∈ xs, lo ≤ x ∧ x ≤ hi) →
    ∀ y ∈ convLin r xs nout, lo ≤ y ∧ y ≤ hi

/-- Where `GEN` pads with the reference converter, the pad is the tick's last raw sample, so the two readings of conflict C2 agree
(R141 (e)); with no raw sample at all the tick is zeros. -/
def Obligations.PadIsTheLastRawSample : Prop :=
  ∀ (s t : State) (c : Chan) (d : Desc), Active s c d → s.cfg.Admissible → s.cfg.conv = .linear → s.cfg.rnd = .identity →
    exec (.gen c) s = .next t → t.fault = false →
    ∀ j, linCount (s.cfg.outputRate / nativeRate s.cfg (s.chan c)) (t.chan c).rawn s.cfg.nout ≤ j → j < s.cfg.nout →
      1 ≤ s.cfg.outputRate / nativeRate s.cfg (s.chan c) ∧
      (0 < (t.chan c).rawn → (t.chan c).out.getD j 0 = (t.chan c).raw.getD ((t.chan c).rawn - 1) 0) ∧
      ((t.chan c).rawn = 0 → (t.chan c).out.getD j 0 = 0)

/-- With the reference converter and no rounding, every output sample of a completed `GEN` is at most headroom times volume (R142). -/
def Obligations.OutputStaysInHeadroom : Prop :=
  ∀ (s t : State) (c : Chan) (d : Desc), Active s c d → s.cfg.Admissible → s.cfg.conv = .linear → s.cfg.rnd = .identity →
    exec (.gen c) s = .next t → t.fault = false →
    ∀ x ∈ (t.chan c).out,
      -(s.cfg.headroom * (((s.chan c).vol.toNat : Rat) / 64)) ≤ x ∧ x ≤ s.cfg.headroom * (((s.chan c).vol.toNat : Rat) / 64)

/-- Pitch stays exact over any number of ticks (R132), for any converter: with no rounding, `k` ticks of a channel that meets no sample end move its
exact position `IDX + REM` by exactly `k` times `need`, unless the converter failed, which `CONV_LIN` never does. -/
def Obligations.PitchIsExactOverManyTicks : Prop :=
  ∀ (s : State) (c : Chan) (d : Desc) (k : Nat), Active s c d → s.cfg.Admissible →
    s.cfg.rnd = .identity → tickCount s.cfg (s.chan c) ≤ s.cfg.rawcap → (s.chan c).loopact = false →
    0 ≤ (s.chan c).rem → (s.chan c).rem < 1 →
    (s.chan c).idx.toNat + k * (tickCount s.cfg (s.chan c) + 1) ≤ d.send →
    (s.cfg.conv = .linear → ((after (.gen c))^[k] s).fault = false) ∧
    (((after (.gen c))^[k] s).fault = false →
      (((after (.gen c))^[k] s).chan c).idx.toNat + (((after (.gen c))^[k] s).chan c).rem =
        ((s.chan c).idx.toNat : Rat) + (s.chan c).rem + (k : Rat) * (nativeRate s.cfg (s.chan c) * s.cfg.tickSec))

/-! The mixer and the buffers. -/

/-- What the mixer stores (R151, R152): rounded, and zero at or above the threshold. -/
def ClippedSum (cfg : Cfg) (x y : Rat) : Prop :=
  (cfg.thresh ≤ cfg.round x → y = 0) ∧ (cfg.round x < cfg.thresh → y = cfg.round x)

/-- `MIX c` (R150 to R153): all `NOUT` frames of the channel's side of the generator buffer, the first writer overwriting and later ones
accumulating; the other side, the front buffer, the other side's flag and everything else stay. -/
def Obligations.MixStoresClippedSums : Prop :=
  ∀ (s : State) (c : Chan) (side : Side), s.fault = false → (side = .left ↔ c = 0 ∨ c = 3) →
    ∃ t, exec (.mix c) s = .next t ∧ Answered t .absent ∧ t.genBuf.length = s.cfg.nout ∧
      (∀ j, j < s.cfg.nout →
        (s.sw side = false → ClippedSum s.cfg ((s.chan c).out.getD j 0) ((frameAt t.genBuf j).get side)) ∧
        (s.sw side = true →
          ClippedSum s.cfg ((frameAt s.genBuf j).get side + (s.chan c).out.getD j 0) ((frameAt t.genBuf j).get side)) ∧
        (∀ other, other ≠ side → (frameAt t.genBuf j).get other = (frameAt s.genBuf j).get other)) ∧
      t.sw side = true ∧ (∀ other, other ≠ side → t.sw other = s.sw other) ∧ t.g = s.g ∧ t.frontBuf = s.frontBuf ∧
      SameChans s t ∧ SameDescs s t ∧ SamePcm s t ∧ t.pcmptr = s.pcmptr ∧ SameStatus s t ∧ SamePorts s t

/-- The order of a side's two channels does not matter when neither has a sample at the threshold (R157). -/
def Obligations.MixOrderDoesNotMatter : Prop :=
  ∀ (s : State) (a b : Chan), s.fault = false → s.cfg.rnd = .identity → sideOf a = sideOf b → s.sw (sideOf a) = false →
    (∀ j, j < s.cfg.nout → (s.chan a).out.getD j 0 < s.cfg.thresh ∧ (s.chan b).out.getD j 0 < s.cfg.thresh) →
    (after (.mix b) (after (.mix a) s)).genBuf = (after (.mix a) (after (.mix b) s)).genBuf

/-- Rule R154: `SWAP` (word 0x90000000) toggles `G` and clears `SW`, and moves no sample; twice it gives the earlier front buffer back; no
other command changes what `FRD` returns. -/
def Obligations.SwapExchangesTheBuffers : Prop :=
  decode 0x90000000#32 = some .swap ∧
  (∀ s : State, s.fault = false →
    exec .swap s = .next { s with g := !s.g, swL := false, swR := false, response := some { status := .ok, data := .absent } } ∧
    (after .swap s).frontBuf = s.genBuf ∧ (after .swap s).genBuf = s.frontBuf ∧
    (after .swap (after .swap s)).frontBuf = s.frontBuf) ∧
  (∀ (i : Instr) (s t : State), i ≠ .swap → exec i s = .next t → t.frontBuf = s.frontBuf)

/-- `FRD side, j` with `j < NOUT` (R55, R167): the sample of `BUF[1-G]`, and no state changes. -/
def Obligations.FrdReadsTheFrontBuffer : Prop :=
  ∀ (s : State) (j : BitVec 16), s.fault = false → j.toNat < s.cfg.nout →
    (∀ side v, (s.g = false → (s.buf1.getD j.toNat { left := 0, right := 0 }).get side = v) →
      (s.g = true → (s.buf0.getD j.toNat { left := 0, right := 0 }).get side = v) →
      exec (.frd side j) s = .next { s with response := some { status := .ok, data := .sample v } })

/-- A mixed sample is what the sink gets after the next `SWAP` (R151, R154, R167), for a side's first writer. -/
def Obligations.MixedSampleReachesTheSink : Prop :=
  ∀ (s : State) (c : Chan) (j : BitVec 16), s.fault = false → s.sw (sideOf c) = false → j.toNat < s.cfg.nout →
    ∃ v, ClippedSum s.cfg ((s.chan c).out.getD j.toNat 0) v ∧
      Answered (after (.frd (sideOf c) j) (after .swap (after (.mix c) s))) (.sample v)

/-! The read-backs. -/

/-- Rule R165: `STAT` is word 0xC0000000 and no other word of its operation code; it executes in every state, halted or not, changes
nothing, and answers `FAULT` in bit 0, `FCODE` in bits 3:1, `G` in bit 4, `SW[L]` in bit 5, `SW[R]` in bit 6, zeros above. -/
def Obligations.StatAnswersTheStatusWord : Prop :=
  decode 0xC0000000#32 = some .stat ∧
  (∀ w : Word, w.toNat / 2 ^ 27 = 0x18 → w ≠ 0xC0000000#32 → decode w = none) ∧
  ∀ s : State, ∃ w : Word, exec .stat s = .next { s with response := some { status := .ok, data := .word w } } ∧
    w.toNat = s.fault.toNat + 2 * s.fcode.toNat + 16 * s.g.toNat + 32 * s.swL.toNat + 64 * s.swR.toNat

/-- Rule R166: `CHRD c, sel` (operation code 0x19) answers the selected register and changes nothing; `sel` 6 and 7 raise `OperandRange`;
it is refused while halted. -/
def Obligations.ChrdAnswersTheRegister : Prop :=
  ∀ (c : Chan) (sel : BitVec 3),
    decode (BitVec.ofNat 32 (0xC8000000 + c.val * 2 ^ 25 + sel.toNat)) = some (.chrd c sel) ∧
    ∀ s : State,
      (s.fault = true → exec (.chrd c sel) s = .next { s with response := some { status := .fault, data := .absent } }) ∧
      (s.fault = false → 6 ≤ sel.toNat → exec (.chrd c sel) s =
        .next { s with fault := true, fcode := 5#3, response := some { status := .fault, data := .absent } }) ∧
      (s.fault = false → sel.toNat < 6 → ∃ w : Word,
        exec (.chrd c sel) s = .next { s with response := some { status := .ok, data := .word w } } ∧
        (sel.toNat = 0 → w.toNat = (s.chan c).smp.toNat) ∧ (sel.toNat = 1 → w.toNat = (s.chan c).period.toNat) ∧
        (sel.toNat = 2 → w.toInt = (s.chan c).ft.toInt) ∧ (sel.toNat = 3 → w.toNat = (s.chan c).vol.toNat) ∧
        (sel.toNat = 4 → w.toNat = (s.chan c).idx.toNat) ∧
        (sel.toNat = 5 → w.toNat = (s.chan c).sil.toNat + 2 * (s.chan c).loopact.toNat))

/-! Whole-machine rules and the host's sequences. -/

/-- Who may write what (the table of R60), over all commands. -/
def Obligations.WhoWritesWhat : Prop :=
  ∀ (i : Instr) (s t : State), exec i s = .next t →
    SamePorts s t ∧
    (t.pcm ≠ s.pcm → ∃ b, i = .pcmwr b) ∧
    (t.pcmptr ≠ s.pcmptr → (∃ a, i = .pcmptr a) ∨ ∃ b, i = .pcmwr b) ∧
    (∀ k, t.desc? k ≠ s.desc? k → ∃ v, i = .slen k v ∨ i = .slps k v ∨ i = .slpl k v) ∧
    (∀ c, t.chan c ≠ s.chan c → i = .gen c ∨ (∃ x, i = .csmp c x) ∨ (∃ x, i = .cper c x) ∨ (∃ x, i = .cft c x) ∨
      (∃ x, i = .cvol c x) ∨ (∃ x, i = .cidx c x) ∨ (∃ x, i = .csil c x) ∨ (∃ x, i = .cloop c x)) ∧
    (∀ c, (t.chan c).out ≠ (s.chan c).out ∨ (t.chan c).cv ≠ (s.chan c).cv ∨ (t.chan c).raw ≠ (s.chan c).raw ∨
      (t.chan c).rawn ≠ (s.chan c).rawn → i = .gen c) ∧
    (t.buf0 ≠ s.buf0 → (∃ c, i = .mix c) ∧ s.g = false) ∧ (t.buf1 ≠ s.buf1 → (∃ c, i = .mix c) ∧ s.g = true) ∧
    (t.g ≠ s.g → i = .swap) ∧
    (t.swL ≠ s.swL → i = .swap ∨ i = .mix 0 ∨ i = .mix 3) ∧ (t.swR ≠ s.swR → i = .swap ∨ i = .mix 1 ∨ i = .mix 2)

/-- A tick of four effectively silent channels (R90, R124, R153, R220): all nine commands complete, and the new front buffer is all zero,
whatever the buffers held before. -/
def Obligations.SilentTickIsAllZero : Prop :=
  ∀ (s : State) (r : List Response × State), s.fault = false → s.swL = false → s.swR = false → (∀ c, Silent s c) →
    r = runInputs (commandsOf pseudoTick) s →
    r.1 = List.replicate 9 { status := .ok, data := .absent } ∧ r.2.fault = false ∧ r.2.g = !s.g ∧
    r.2.swL = false ∧ r.2.swR = false ∧ r.2.frontBuf = List.replicate s.cfg.nout { left := 0, right := 0 }

/-- A tick that completes (R90, R153): the left side of the new front buffer is channel 0 clipped plus channel 3, clipped; the right side
is channel 1 clipped plus channel 2, clipped; nothing of the buffer's stale contents is left. -/
def Obligations.TickMixesTheFourChannels : Prop :=
  ∀ (s : State) (t : State), s.fault = false → s.swL = false → s.swR = false →
    t = (runInputs (commandsOf pseudoTick) s).2 → t.fault = false →
    t.frontBuf.length = s.cfg.nout ∧
    ∀ j, j < s.cfg.nout →
      (∃ x, ClippedSum s.cfg ((t.chan 0).out.getD j 0) x ∧
        ClippedSum s.cfg (x + (t.chan 3).out.getD j 0) (frameAt t.frontBuf j).left) ∧
      (∃ x, ClippedSum s.cfg ((t.chan 1).out.getD j 0) x ∧
        ClippedSum s.cfg (x + (t.chan 2).out.getD j 0) (frameAt t.frontBuf j).right)

/-- `LOADSMP` (R98, R51): the descriptor of the slot and its bytes from sample 0 on are as given, every other byte and descriptor is as before,
and all commands complete. -/
def Obligations.LoadsmpLoadsTheSample : Prop :=
  ∀ (s t : State) (k : Slot) (len lps lpl : BitVec 16) (bytes : List Byte), s.fault = false →
    Memory.wf s.cfg.initialByte s.pcm = true → k ≠ 0#5 → bytes.length = 2 * len.toNat →
    t = (runInputs (commandsOf (pseudoLoadsmp k len lps lpl bytes)) s).2 →
    (∀ r ∈ (runInputs (commandsOf (pseudoLoadsmp k len lps lpl bytes)) s).1, r = { status := .ok, data := .absent }) ∧
    t.desc? k = some { length := len, loopstart := lps, looplen := lpl } ∧ (∀ l, l ≠ k → t.desc? l = s.desc? l) ∧
    (∀ a : BitVec 22, ∀ i, a.toNat = k.toNat * 131072 + i → i < bytes.length → t.pcmByte a = bytes.getD i 0#8) ∧
    (∀ a : BitVec 22, a.toNat < k.toNat * 131072 ∨ k.toNat * 131072 + bytes.length ≤ a.toNat → t.pcmByte a = s.pcmByte a) ∧
    SameChans s t ∧ SameMixer s t ∧ SameStatus s t

/-- `TRIG` (R92): the slot, the volume (clamped), the read index and remainder at 0, the loop flag cleared; `SIL`, `FT`, `PERIOD` and all else of
the channel stay (R106, R228), and so do the other channels. -/
def Obligations.TrigRestartsTheChannel : Prop :=
  ∀ (s t : State) (c : Chan) (k : Slot) (v : BitVec 7), s.fault = false →
    t = (runInputs (commandsOf (pseudoTrig c k v)) s).2 →
    (t.chan c).vol.toNat = min v.toNat 64 ∧
    t.chan c = { s.chan c with smp := k, vol := (t.chan c).vol, idx := 0#18, rem := 0, loopact := false } ∧
    SameOtherChans c s t ∧ t.fault = false

/-- The one-command pseudo-commands (R93 to R97): `NOTE` sets the period, `OFFS` the read index `d * 256` with the remainder cleared, `SETVOL` the
clamped volume, `SETFT` the finetune, `MUTE` and `UNMUTE` the silence flag; nothing else of the channel and no other channel changes. -/
def Obligations.PseudoCommandsSetOneRegister : Prop :=
  ∀ (s : State) (c : Chan), s.fault = false →
    (∀ (is : List Instr) (t : State), is ∈ [pseudoMute c, pseudoUnmute c] ∨ (∃ p, is = pseudoNote c p) ∨ (∃ d, is = pseudoOffs c d) ∨
        (∃ k, is = pseudoSetvol c k) ∨ (∃ n, is = pseudoSetft c n) →
      t = (runInputs (commandsOf is) s).2 → t.fault = false ∧ SameOtherChans c s t ∧ SameDescs s t ∧ SameMixer s t) ∧
    (∀ p, (runInputs (commandsOf (pseudoNote c p)) s).2.chan c = { s.chan c with period := p }) ∧
    (∀ d, ∃ i, (runInputs (commandsOf (pseudoOffs c d)) s).2.chan c = { s.chan c with idx := i, rem := 0 } ∧ i.toNat = d.toNat * 256) ∧
    (∀ k, ∃ v, (runInputs (commandsOf (pseudoSetvol c k)) s).2.chan c = { s.chan c with vol := v } ∧ v.toNat = min k.toNat 64) ∧
    (∀ n, (runInputs (commandsOf (pseudoSetft c n)) s).2.chan c = { s.chan c with ft := n }) ∧
    (runInputs (commandsOf (pseudoMute c)) s).2.chan c = { s.chan c with sil := true } ∧
    (runInputs (commandsOf (pseudoUnmute c)) s).2.chan c = { s.chan c with sil := false }

/-- A channel whose sample has ended is silent from the next tick on (R124, R129): `GEN` after `GEN`, all zeros and the position frozen, as long
as the host writes nothing. -/
def Obligations.SilencedChannelStaysSilent : Prop :=
  ∀ (s : State) (c : Chan) (k : Nat), s.fault = false → (s.chan c).sil = true →
    ((after (.gen c))^[k] s).fault = false ∧
    (((after (.gen c))^[k] s).chan c).sil = true ∧ (((after (.gen c))^[k] s).chan c).idx = (s.chan c).idx ∧
    (((after (.gen c))^[k] s).chan c).rem = (s.chan c).rem ∧
    (0 < k → (((after (.gen c))^[k] s).chan c).out = List.replicate s.cfg.nout 0 ∧ (((after (.gen c))^[k] s).chan c).cv.ratio = 1)
end

