-- ==== Sys2Proof/Laws/Bits.lean ====
section
/-! SUPPORT. Fields of a word as numbers: every field extraction and every concatenation of `Decode.lean` in terms of division, remainder
and sum, so that statements about encodings become linear arithmetic. -/

namespace Sys2Proof.Laws

@[simp] theorem bits_toNat (w : Word) (lo len : Nat) : (bits w lo len).toNat = w.toNat / 2 ^ lo % 2 ^ len := by
  simp [bits, BitVec.extractLsb'_toNat, Nat.shiftRight_eq_div_pow]

theorem bits_eq_iff (w : Word) (lo len : Nat) (x : BitVec len) : bits w lo len = x ↔ w.toNat / 2 ^ lo % 2 ^ len = x.toNat := by
  rw [BitVec.toNat_eq, bits_toNat]

theorem append_toNat {m n : Nat} (x : BitVec m) (y : BitVec n) : (x ++ y).toNat = x.toNat * 2 ^ n + y.toNat := by
  rw [BitVec.toNat_append, Nat.shiftLeft_eq, ← Nat.shiftLeft_eq, ← Nat.shiftLeft_add_eq_or_of_lt y.isLt, Nat.shiftLeft_eq]

theorem append3_toNat {a b c : Nat} (x : BitVec a) (y : BitVec b) (z : BitVec c) :
    (x ++ y ++ z).toNat = (x.toNat * 2 ^ b + y.toNat) * 2 ^ c + z.toNat := by
  rw [append_toNat, append_toNat]

theorem append4_toNat {a b c d : Nat} (x : BitVec a) (y : BitVec b) (z : BitVec c) (u : BitVec d) :
    (x ++ y ++ z ++ u).toNat = ((x.toNat * 2 ^ b + y.toNat) * 2 ^ c + z.toNat) * 2 ^ d + u.toNat := by
  rw [append_toNat, append3_toNat]

theorem chField_val (w : Word) : (chField w).val = w.toNat / 2 ^ 25 % 4 := by
  change (bits w 25 2).toNat = _
  simp

theorem flagField_eq (w : Word) : flagField w = decide (w.toNat % 2 = 1) := by
  simp [flagField, BitVec.getLsbD, Nat.testBit_zero]

theorem sideField_eq (w : Word) : sideField w = if w.toNat / 2 ^ 16 % 2 = 1 then .right else .left := by
  simp [sideField, BitVec.getLsbD, Nat.testBit_eq_decide_div_mod_eq]

@[simp] theorem chBits_toNat (c : Chan) : (chBits c).toNat = c.val := rfl

@[simp] theorem sideBit_left : (sideBit .left).toNat = 0 := rfl

@[simp] theorem sideBit_right : (sideBit .right).toNat = 1 := rfl

theorem whenZero_eq_some {n : Nat} (z : BitVec n) (i j : Instr) : whenZero z i = some j ↔ z = 0#n ∧ i = j := by
  simp [whenZero]

theorem whenZero_eq_none {n : Nat} (z : BitVec n) (i : Instr) : whenZero z i = none ↔ z ≠ 0#n := by
  simp [whenZero]

end Sys2Proof.Laws
end

