-- ==== Sys2Proof/Laws/State.lean ====
section
/-! SUPPORT. One lemma per field per update of State, all true by unfolding, so that no later proof unfolds a record update; and the
reads (`chan`, `desc?`, `pcmByte`, the buffers, `SW`) across every update. -/

namespace Sys2Proof.Machine

@[simp] theorem answer_cfg (s : State) (d : Data) : (s.answer d).cfg = s.cfg := rfl
@[simp] theorem answer_chans (s : State) (d : Data) : (s.answer d).chans = s.chans := rfl
@[simp] theorem answer_descs (s : State) (d : Data) : (s.answer d).descs = s.descs := rfl
@[simp] theorem answer_pcmptr (s : State) (d : Data) : (s.answer d).pcmptr = s.pcmptr := rfl
@[simp] theorem answer_pcm (s : State) (d : Data) : (s.answer d).pcm = s.pcm := rfl
@[simp] theorem answer_g (s : State) (d : Data) : (s.answer d).g = s.g := rfl
@[simp] theorem answer_swL (s : State) (d : Data) : (s.answer d).swL = s.swL := rfl
@[simp] theorem answer_swR (s : State) (d : Data) : (s.answer d).swR = s.swR := rfl
@[simp] theorem answer_fault (s : State) (d : Data) : (s.answer d).fault = s.fault := rfl
@[simp] theorem answer_fcode (s : State) (d : Data) : (s.answer d).fcode = s.fcode := rfl
@[simp] theorem answer_buf0 (s : State) (d : Data) : (s.answer d).buf0 = s.buf0 := rfl
@[simp] theorem answer_buf1 (s : State) (d : Data) : (s.answer d).buf1 = s.buf1 := rfl
@[simp] theorem answer_inputs (s : State) (d : Data) : (s.answer d).inputs = s.inputs := rfl
@[simp] theorem answer_response (s : State) (d : Data) : (s.answer d).response = some { status := .ok, data := d } := rfl

@[simp] theorem raise_cfg (s : State) (f : Fault) : (s.raise f).cfg = s.cfg := rfl
@[simp] theorem raise_chans (s : State) (f : Fault) : (s.raise f).chans = s.chans := rfl
@[simp] theorem raise_descs (s : State) (f : Fault) : (s.raise f).descs = s.descs := rfl
@[simp] theorem raise_pcmptr (s : State) (f : Fault) : (s.raise f).pcmptr = s.pcmptr := rfl
@[simp] theorem raise_pcm (s : State) (f : Fault) : (s.raise f).pcm = s.pcm := rfl
@[simp] theorem raise_g (s : State) (f : Fault) : (s.raise f).g = s.g := rfl
@[simp] theorem raise_swL (s : State) (f : Fault) : (s.raise f).swL = s.swL := rfl
@[simp] theorem raise_swR (s : State) (f : Fault) : (s.raise f).swR = s.swR := rfl
@[simp] theorem raise_fault (s : State) (f : Fault) : (s.raise f).fault = true := rfl
@[simp] theorem raise_fcode (s : State) (f : Fault) : (s.raise f).fcode = f.code := rfl
@[simp] theorem raise_buf0 (s : State) (f : Fault) : (s.raise f).buf0 = s.buf0 := rfl
@[simp] theorem raise_buf1 (s : State) (f : Fault) : (s.raise f).buf1 = s.buf1 := rfl
@[simp] theorem raise_inputs (s : State) (f : Fault) : (s.raise f).inputs = s.inputs := rfl
@[simp] theorem raise_response (s : State) (f : Fault) : (s.raise f).response = some faultResponse := rfl

@[simp] theorem refuse_cfg (s : State) : (s.refuse).cfg = s.cfg := rfl
@[simp] theorem refuse_chans (s : State) : (s.refuse).chans = s.chans := rfl
@[simp] theorem refuse_descs (s : State) : (s.refuse).descs = s.descs := rfl
@[simp] theorem refuse_pcmptr (s : State) : (s.refuse).pcmptr = s.pcmptr := rfl
@[simp] theorem refuse_pcm (s : State) : (s.refuse).pcm = s.pcm := rfl
@[simp] theorem refuse_g (s : State) : (s.refuse).g = s.g := rfl
@[simp] theorem refuse_swL (s : State) : (s.refuse).swL = s.swL := rfl
@[simp] theorem refuse_swR (s : State) : (s.refuse).swR = s.swR := rfl
@[simp] theorem refuse_fault (s : State) : (s.refuse).fault = s.fault := rfl
@[simp] theorem refuse_fcode (s : State) : (s.refuse).fcode = s.fcode := rfl
@[simp] theorem refuse_buf0 (s : State) : (s.refuse).buf0 = s.buf0 := rfl
@[simp] theorem refuse_buf1 (s : State) : (s.refuse).buf1 = s.buf1 := rfl
@[simp] theorem refuse_inputs (s : State) : (s.refuse).inputs = s.inputs := rfl
@[simp] theorem refuse_response (s : State) : (s.refuse).response = some faultResponse := rfl

@[simp] theorem setChan_cfg (s : State) (c : Chan) (ch : Channel) : (s.setChan c ch).cfg = s.cfg := rfl
@[simp] theorem setChan_chans (s : State) (c : Chan) (ch : Channel) : (s.setChan c ch).chans = s.chans.set c ch := rfl
@[simp] theorem setChan_descs (s : State) (c : Chan) (ch : Channel) : (s.setChan c ch).descs = s.descs := rfl
@[simp] theorem setChan_pcmptr (s : State) (c : Chan) (ch : Channel) : (s.setChan c ch).pcmptr = s.pcmptr := rfl
@[simp] theorem setChan_pcm (s : State) (c : Chan) (ch : Channel) : (s.setChan c ch).pcm = s.pcm := rfl
@[simp] theorem setChan_g (s : State) (c : Chan) (ch : Channel) : (s.setChan c ch).g = s.g := rfl
@[simp] theorem setChan_swL (s : State) (c : Chan) (ch : Channel) : (s.setChan c ch).swL = s.swL := rfl
@[simp] theorem setChan_swR (s : State) (c : Chan) (ch : Channel) : (s.setChan c ch).swR = s.swR := rfl
@[simp] theorem setChan_fault (s : State) (c : Chan) (ch : Channel) : (s.setChan c ch).fault = s.fault := rfl
@[simp] theorem setChan_fcode (s : State) (c : Chan) (ch : Channel) : (s.setChan c ch).fcode = s.fcode := rfl
@[simp] theorem setChan_buf0 (s : State) (c : Chan) (ch : Channel) : (s.setChan c ch).buf0 = s.buf0 := rfl
@[simp] theorem setChan_buf1 (s : State) (c : Chan) (ch : Channel) : (s.setChan c ch).buf1 = s.buf1 := rfl
@[simp] theorem setChan_inputs (s : State) (c : Chan) (ch : Channel) : (s.setChan c ch).inputs = s.inputs := rfl
@[simp] theorem setChan_response (s : State) (c : Chan) (ch : Channel) : (s.setChan c ch).response = s.response := rfl

@[simp] theorem setPcmByte_cfg (s : State) (a : BitVec 22) (b : Byte) : (s.setPcmByte a b).cfg = s.cfg := rfl
@[simp] theorem setPcmByte_chans (s : State) (a : BitVec 22) (b : Byte) : (s.setPcmByte a b).chans = s.chans := rfl
@[simp] theorem setPcmByte_descs (s : State) (a : BitVec 22) (b : Byte) : (s.setPcmByte a b).descs = s.descs := rfl
@[simp] theorem setPcmByte_pcmptr (s : State) (a : BitVec 22) (b : Byte) : (s.setPcmByte a b).pcmptr = s.pcmptr := rfl
@[simp] theorem setPcmByte_pcm (s : State) (a : BitVec 22) (b : Byte) : (s.setPcmByte a b).pcm = Memory.write s.cfg.initialByte s.pcm a.toNat b := rfl
@[simp] theorem setPcmByte_g (s : State) (a : BitVec 22) (b : Byte) : (s.setPcmByte a b).g = s.g := rfl
@[simp] theorem setPcmByte_swL (s : State) (a : BitVec 22) (b : Byte) : (s.setPcmByte a b).swL = s.swL := rfl
@[simp] theorem setPcmByte_swR (s : State) (a : BitVec 22) (b : Byte) : (s.setPcmByte a b).swR = s.swR := rfl
@[simp] theorem setPcmByte_fault (s : State) (a : BitVec 22) (b : Byte) : (s.setPcmByte a b).fault = s.fault := rfl
@[simp] theorem setPcmByte_fcode (s : State) (a : BitVec 22) (b : Byte) : (s.setPcmByte a b).fcode = s.fcode := rfl
@[simp] theorem setPcmByte_buf0 (s : State) (a : BitVec 22) (b : Byte) : (s.setPcmByte a b).buf0 = s.buf0 := rfl
@[simp] theorem setPcmByte_buf1 (s : State) (a : BitVec 22) (b : Byte) : (s.setPcmByte a b).buf1 = s.buf1 := rfl
@[simp] theorem setPcmByte_inputs (s : State) (a : BitVec 22) (b : Byte) : (s.setPcmByte a b).inputs = s.inputs := rfl
@[simp] theorem setPcmByte_response (s : State) (a : BitVec 22) (b : Byte) : (s.setPcmByte a b).response = s.response := rfl

@[simp] theorem setGenBuf_cfg (s : State) (b : List Frame) : (s.setGenBuf b).cfg = s.cfg := by
  unfold State.setGenBuf; split <;> rfl
@[simp] theorem setGenBuf_chans (s : State) (b : List Frame) : (s.setGenBuf b).chans = s.chans := by
  unfold State.setGenBuf; split <;> rfl
@[simp] theorem setGenBuf_descs (s : State) (b : List Frame) : (s.setGenBuf b).descs = s.descs := by
  unfold State.setGenBuf; split <;> rfl
@[simp] theorem setGenBuf_pcmptr (s : State) (b : List Frame) : (s.setGenBuf b).pcmptr = s.pcmptr := by
  unfold State.setGenBuf; split <;> rfl
@[simp] theorem setGenBuf_pcm (s : State) (b : List Frame) : (s.setGenBuf b).pcm = s.pcm := by
  unfold State.setGenBuf; split <;> rfl
@[simp] theorem setGenBuf_g (s : State) (b : List Frame) : (s.setGenBuf b).g = s.g := by
  unfold State.setGenBuf; split <;> rfl
@[simp] theorem setGenBuf_swL (s : State) (b : List Frame) : (s.setGenBuf b).swL = s.swL := by
  unfold State.setGenBuf; split <;> rfl
@[simp] theorem setGenBuf_swR (s : State) (b : List Frame) : (s.setGenBuf b).swR = s.swR := by
  unfold State.setGenBuf; split <;> rfl
@[simp] theorem setGenBuf_fault (s : State) (b : List Frame) : (s.setGenBuf b).fault = s.fault := by
  unfold State.setGenBuf; split <;> rfl
@[simp] theorem setGenBuf_fcode (s : State) (b : List Frame) : (s.setGenBuf b).fcode = s.fcode := by
  unfold State.setGenBuf; split <;> rfl
@[simp] theorem setGenBuf_inputs (s : State) (b : List Frame) : (s.setGenBuf b).inputs = s.inputs := by
  unfold State.setGenBuf; split <;> rfl
@[simp] theorem setGenBuf_response (s : State) (b : List Frame) : (s.setGenBuf b).response = s.response := by
  unfold State.setGenBuf; split <;> rfl

@[simp] theorem markSide_cfg (s : State) (d : Side) : (s.markSide d).cfg = s.cfg := by
  cases d <;> rfl
@[simp] theorem markSide_chans (s : State) (d : Side) : (s.markSide d).chans = s.chans := by
  cases d <;> rfl
@[simp] theorem markSide_descs (s : State) (d : Side) : (s.markSide d).descs = s.descs := by
  cases d <;> rfl
@[simp] theorem markSide_pcmptr (s : State) (d : Side) : (s.markSide d).pcmptr = s.pcmptr := by
  cases d <;> rfl
@[simp] theorem markSide_pcm (s : State) (d : Side) : (s.markSide d).pcm = s.pcm := by
  cases d <;> rfl
@[simp] theorem markSide_g (s : State) (d : Side) : (s.markSide d).g = s.g := by
  cases d <;> rfl
@[simp] theorem markSide_fault (s : State) (d : Side) : (s.markSide d).fault = s.fault := by
  cases d <;> rfl
@[simp] theorem markSide_fcode (s : State) (d : Side) : (s.markSide d).fcode = s.fcode := by
  cases d <;> rfl
@[simp] theorem markSide_buf0 (s : State) (d : Side) : (s.markSide d).buf0 = s.buf0 := by
  cases d <;> rfl
@[simp] theorem markSide_buf1 (s : State) (d : Side) : (s.markSide d).buf1 = s.buf1 := by
  cases d <;> rfl
@[simp] theorem markSide_inputs (s : State) (d : Side) : (s.markSide d).inputs = s.inputs := by
  cases d <;> rfl
@[simp] theorem markSide_response (s : State) (d : Side) : (s.markSide d).response = s.response := by
  cases d <;> rfl

@[simp] theorem answer_chan (s : State) (d : Data) (e : Chan) : (s.answer d).chan e = s.chan e := rfl
@[simp] theorem answer_desc (s : State) (d : Data) (k : Slot) : (s.answer d).desc? k = s.desc? k := rfl
@[simp] theorem answer_pcmByte (s : State) (d : Data) (x : BitVec 22) : (s.answer d).pcmByte x = s.pcmByte x := rfl
@[simp] theorem answer_genBuf (s : State) (d : Data) : (s.answer d).genBuf = s.genBuf := rfl
@[simp] theorem answer_frontBuf (s : State) (d : Data) : (s.answer d).frontBuf = s.frontBuf := rfl
@[simp] theorem answer_sw (s : State) (d : Data) (e : Side) : (s.answer d).sw e = s.sw e := rfl

@[simp] theorem raise_chan (s : State) (f : Fault) (e : Chan) : (s.raise f).chan e = s.chan e := rfl
@[simp] theorem raise_desc (s : State) (f : Fault) (k : Slot) : (s.raise f).desc? k = s.desc? k := rfl
@[simp] theorem raise_pcmByte (s : State) (f : Fault) (x : BitVec 22) : (s.raise f).pcmByte x = s.pcmByte x := rfl
@[simp] theorem raise_genBuf (s : State) (f : Fault) : (s.raise f).genBuf = s.genBuf := rfl
@[simp] theorem raise_frontBuf (s : State) (f : Fault) : (s.raise f).frontBuf = s.frontBuf := rfl
@[simp] theorem raise_sw (s : State) (f : Fault) (e : Side) : (s.raise f).sw e = s.sw e := rfl

@[simp] theorem refuse_chan (s : State) (e : Chan) : (s.refuse).chan e = s.chan e := rfl
@[simp] theorem refuse_desc (s : State) (k : Slot) : (s.refuse).desc? k = s.desc? k := rfl
@[simp] theorem refuse_pcmByte (s : State) (x : BitVec 22) : (s.refuse).pcmByte x = s.pcmByte x := rfl
@[simp] theorem refuse_genBuf (s : State) : (s.refuse).genBuf = s.genBuf := rfl
@[simp] theorem refuse_frontBuf (s : State) : (s.refuse).frontBuf = s.frontBuf := rfl
@[simp] theorem refuse_sw (s : State) (e : Side) : (s.refuse).sw e = s.sw e := rfl

@[simp] theorem setChan_desc (s : State) (c : Chan) (ch : Channel) (k : Slot) : (s.setChan c ch).desc? k = s.desc? k := rfl
@[simp] theorem setChan_pcmByte (s : State) (c : Chan) (ch : Channel) (x : BitVec 22) : (s.setChan c ch).pcmByte x = s.pcmByte x := rfl
@[simp] theorem setChan_genBuf (s : State) (c : Chan) (ch : Channel) : (s.setChan c ch).genBuf = s.genBuf := rfl
@[simp] theorem setChan_frontBuf (s : State) (c : Chan) (ch : Channel) : (s.setChan c ch).frontBuf = s.frontBuf := rfl
@[simp] theorem setChan_sw (s : State) (c : Chan) (ch : Channel) (e : Side) : (s.setChan c ch).sw e = s.sw e := rfl

@[simp] theorem setPcmByte_chan (s : State) (a : BitVec 22) (b : Byte) (e : Chan) : (s.setPcmByte a b).chan e = s.chan e := rfl
@[simp] theorem setPcmByte_desc (s : State) (a : BitVec 22) (b : Byte) (k : Slot) : (s.setPcmByte a b).desc? k = s.desc? k := rfl
@[simp] theorem setPcmByte_genBuf (s : State) (a : BitVec 22) (b : Byte) : (s.setPcmByte a b).genBuf = s.genBuf := rfl
@[simp] theorem setPcmByte_frontBuf (s : State) (a : BitVec 22) (b : Byte) : (s.setPcmByte a b).frontBuf = s.frontBuf := rfl
@[simp] theorem setPcmByte_sw (s : State) (a : BitVec 22) (b : Byte) (e : Side) : (s.setPcmByte a b).sw e = s.sw e := rfl

@[simp] theorem setGenBuf_chan (s : State) (b : List Frame) (e : Chan) : (s.setGenBuf b).chan e = s.chan e := by
  simp [State.chan]
@[simp] theorem setGenBuf_desc (s : State) (b : List Frame) (k : Slot) : (s.setGenBuf b).desc? k = s.desc? k := by
  simp [State.desc?]
@[simp] theorem setGenBuf_pcmByte (s : State) (b : List Frame) (x : BitVec 22) : (s.setGenBuf b).pcmByte x = s.pcmByte x := by
  simp [State.pcmByte]
@[simp] theorem markSide_chan (s : State) (d : Side) (e : Chan) : (s.markSide d).chan e = s.chan e := by
  simp [State.chan]
@[simp] theorem markSide_desc (s : State) (d : Side) (k : Slot) : (s.markSide d).desc? k = s.desc? k := by
  simp [State.desc?]
@[simp] theorem markSide_pcmByte (s : State) (d : Side) (x : BitVec 22) : (s.markSide d).pcmByte x = s.pcmByte x := by
  simp [State.pcmByte]

@[simp] theorem setGenBuf_genBuf (s : State) (b : List Frame) : (s.setGenBuf b).genBuf = b := by
  cases h : s.g <;> simp [State.genBuf, State.setGenBuf, h]

@[simp] theorem setGenBuf_frontBuf (s : State) (b : List Frame) : (s.setGenBuf b).frontBuf = s.frontBuf := by
  cases h : s.g <;> simp [State.frontBuf, State.setGenBuf, h]

@[simp] theorem setGenBuf_sw (s : State) (b : List Frame) (d : Side) : (s.setGenBuf b).sw d = s.sw d := by
  cases d <;> simp [State.sw]

@[simp] theorem markSide_genBuf (s : State) (d : Side) : (s.markSide d).genBuf = s.genBuf := by
  simp [State.genBuf]

@[simp] theorem markSide_frontBuf (s : State) (d : Side) : (s.markSide d).frontBuf = s.frontBuf := by
  simp [State.frontBuf]

@[simp] theorem markSide_sw_same (s : State) (d : Side) : (s.markSide d).sw d = true := by
  cases d <;> rfl

theorem markSide_sw_other (s : State) {d e : Side} (h : e ≠ d) : (s.markSide d).sw e = s.sw e := by
  cases d <;> cases e <;> first | rfl | exact absurd rfl h

@[simp] theorem setChan_chan_same (s : State) (c : Chan) (ch : Channel) : (s.setChan c ch).chan c = ch := by
  simp [State.chan, State.setChan]

theorem setChan_chan_other (s : State) {c e : Chan} (ch : Channel) (h : e ≠ c) : (s.setChan c ch).chan e = s.chan e := by
  have : (c : Nat) ≠ e := fun x => h (Fin.ext x.symm)
  simp [State.chan, State.setChan, this]

theorem setChan_chan (s : State) (c e : Chan) (ch : Channel) : (s.setChan c ch).chan e = if e = c then ch else s.chan e := by
  split
  · next h => subst h; simp
  · next h => exact setChan_chan_other s ch h

@[simp] theorem setChan_chan_self (s : State) (c : Chan) : s.setChan c (s.chan c) = s := by
  simp [State.chan, State.setChan]

@[simp] theorem frame_get_set_same (f : Frame) (d : Side) (v : Rat) : (f.set d v).get d = v := by
  cases d <;> rfl

theorem frame_get_set_other (f : Frame) {d e : Side} (v : Rat) (h : e ≠ d) : (f.set d v).get e = f.get e := by
  cases d <;> cases e <;> first | rfl | exact absurd rfl h

theorem frame_ext_get {f f' : Frame} (h : ∀ d, f.get d = f'.get d) : f = f' := by
  cases f; cases f'
  have hl := h .left
  have hr := h .right
  simp only [Frame.get] at hl hr
  rw [hl, hr]

theorem frontBuf_eq (s : State) : s.frontBuf = if s.g then s.buf0 else s.buf1 := rfl

theorem genBuf_eq (s : State) : s.genBuf = if s.g then s.buf1 else s.buf0 := rfl

/-! Slots and descriptors. -/

@[simp] theorem slotIndex_zero : slotIndex 0#5 = none := rfl

theorem slotIndex_isSome {k : Slot} (h : k ≠ 0#5) : ∃ i, slotIndex k = some i ∧ i.val + 1 = k.toNat := by
  have : k.toNat ≠ 0 := fun e => h (BitVec.eq_of_toNat_eq e)
  exact ⟨⟨k.toNat - 1, by have := k.isLt; omega⟩, by simp [slotIndex, h], by simp; omega⟩

theorem slotIndex_eq_none {k : Slot} : slotIndex k = none ↔ k = 0#5 := by
  simp [slotIndex]

theorem slotIndex_inj {k l : Slot} {i : Fin 31} (hk : slotIndex k = some i) (hl : slotIndex l = some i) : k = l := by
  have hk0 : k ≠ 0#5 := fun e => by simp [e] at hk
  have hl0 : l ≠ 0#5 := fun e => by simp [e] at hl
  obtain ⟨a, ha, ha'⟩ := slotIndex_isSome hk0
  obtain ⟨b, hb, hb'⟩ := slotIndex_isSome hl0
  rw [ha] at hk; rw [hb] at hl
  cases hk; cases hl
  exact BitVec.eq_of_toNat_eq (by omega)

@[simp] theorem desc_zero (s : State) : s.desc? 0#5 = none := rfl

theorem desc_isSome (s : State) {k : Slot} (h : k ≠ 0#5) : ∃ d, s.desc? k = some d := by
  obtain ⟨i, hi, -⟩ := slotIndex_isSome h
  exact ⟨s.descs[i], by simp [State.desc?, hi]⟩

/-- A descriptor write through a slot's place: that slot reads the new descriptor, every other slot reads as before. -/
theorem desc_set (s : State) {k : Slot} {i : Fin 31} (hk : slotIndex k = some i) (d : Desc) (l : Slot) :
    ({ s with descs := s.descs.set i d } : State).desc? l = if l = k then some d else s.desc? l := by
  unfold State.desc?
  by_cases h : l = k
  · subst h
    simp [hk]
  · rw [if_neg h]
    cases hl : slotIndex l with
    | none => rfl
    | some j =>
      have : (i : Nat) ≠ j := fun e => h (slotIndex_inj hl (by rw [hk, Fin.ext e]))
      simp [this]

end Sys2Proof.Machine
end

