-- ==== Sys2Proof/Laws/Synth.lean ====
section
/-! SUPPORT. The read loop of `GEN` (R126 to R131), said once: how many samples it gives, which flags it may set, that a loop inside the
sample never meets the bounds check, and which samples it reads. -/

namespace Sys2Proof.Machine

theorem Desc.send_le (d : Desc) : d.send ≤ 131070 := by
  have := d.length.isLt
  simp only [Desc.send]
  omega

theorem Desc.lbeg_le (d : Desc) : d.lbeg ≤ 131070 := by
  have := d.loopstart.isLt
  simp only [Desc.lbeg]
  omega

@[simp] theorem Desc.lbeg_toNat (d : Desc) : (BitVec.ofNat 18 d.lbeg).toNat = d.lbeg := by
  have := d.lbeg_le
  rw [BitVec.toNat_ofNat]
  omega

theorem idx_succ_toNat {i : BitVec 18} {d : Desc} (h : i.toNat < d.send) : (i + 1#18).toNat = i.toNat + 1 := by
  have := d.send_le
  rw [BitVec.toNat_add]
  simp
  omega

/-! One end check. -/

theorem endChecks_cases (d : Desc) (cur : Cursor) :
    (endChecks d cur = cur ∧ ((cur.loopact = true ∧ cur.idx.toNat < d.lend) ∨ (cur.loopact = false ∧ cur.idx.toNat < d.send))) ∨
    (endChecks d cur = { cur with idx := BitVec.ofNat 18 d.lbeg } ∧ cur.loopact = true ∧ d.lend ≤ cur.idx.toNat) ∨
    (endChecks d cur = { cur with loopact := true, idx := BitVec.ofNat 18 d.lbeg } ∧ cur.loopact = false ∧
      d.send ≤ cur.idx.toNat ∧ 1 < d.looplen.toNat) ∨
    (endChecks d cur = { cur with zf := true, sil := true } ∧ cur.loopact = false ∧ d.send ≤ cur.idx.toNat ∧
      d.looplen.toNat ≤ 1) := by
  unfold endChecks
  cases hl : cur.loopact with
  | true =>
    by_cases h : d.lend ≤ cur.idx.toNat
    · simp [h]
    · simp [h]; omega
  | false =>
    by_cases h : d.send ≤ cur.idx.toNat
    · by_cases h' : 1 < d.looplen.toNat
      · simp [h, h', Desc.hasLoop]
      · simp [h, h', Desc.hasLoop]; omega
    · simp [h]; omega

/-- An end check sets flags, never clears one. -/
theorem endChecks_flags (d : Desc) (cur : Cursor) :
    (cur.loopact = true → (endChecks d cur).loopact = true) ∧ (cur.sil = true → (endChecks d cur).sil = true) ∧
    ((endChecks d cur).zf = false → (endChecks d cur).sil = cur.sil) := by
  rcases endChecks_cases d cur with ⟨e, -⟩ | ⟨e, -⟩ | ⟨e, -⟩ | ⟨e, -⟩ <;> rw [e] <;> simp

theorem endChecks_idx_le (d : Desc) (cur : Cursor) (h : cur.idx.toNat ≤ idxMax) : (endChecks d cur).idx.toNat ≤ idxMax := by
  have := d.lbeg_le
  rcases endChecks_cases d cur with ⟨e, -⟩ | ⟨e, -⟩ | ⟨e, -⟩ | ⟨e, -⟩ <;> rw [e] <;> simp [idxMax] at h ⊢ <;> omega

/-! The loop. -/

variable (sample : BitVec 18 → Rat) (d : Desc)

theorem readLoop_zf : ∀ (n : Nat) {cur : Cursor}, cur.zf = true →
    readLoop sample d n cur = { samples := List.replicate n 0, cur := cur, bounds := false }
  | 0, _, _ => rfl
  | n + 1, cur, h => by
    simp only [readLoop, h, if_true]
    rw [readLoop_zf n h]
    rfl

/-- One turn of the loop while zero fill is not in force. -/
theorem readLoop_succ (n : Nat) {cur : Cursor} (h : cur.zf = false) :
    readLoop sample d (n + 1) cur =
      if (endChecks d cur).zf then { samples := List.replicate (n + 1) 0, cur := endChecks d cur, bounds := false }
      else if d.send ≤ (endChecks d cur).idx.toNat then { samples := [], cur := endChecks d cur, bounds := true }
      else
        { readLoop sample d n { endChecks d cur with idx := (endChecks d cur).idx + 1#18 } with
          samples := sample (endChecks d cur).idx ::
            (readLoop sample d n { endChecks d cur with idx := (endChecks d cur).idx + 1#18 }).samples } := by
  simp only [readLoop, h, Bool.false_eq_true, if_false]
  split
  · next hz => rw [readLoop_zf sample d n hz]; rfl
  · rfl

/-- An induction over the loop: it ends, it zero-fills, it stops at the bounds check, or it reads one sample and goes on. -/
theorem readLoop_induction {P : Nat → Cursor → ReadOut → Prop}
    (done : ∀ cur, P 0 cur { samples := [], cur := cur, bounds := false })
    (fill : ∀ n cur, cur.zf = true → P n cur { samples := List.replicate n 0, cur := cur, bounds := false })
    (ends : ∀ n cur, cur.zf = false → (endChecks d cur).zf = true →
      P (n + 1) cur { samples := List.replicate (n + 1) 0, cur := endChecks d cur, bounds := false })
    (stop : ∀ n cur, cur.zf = false → (endChecks d cur).zf = false → d.send ≤ (endChecks d cur).idx.toNat →
      P (n + 1) cur { samples := [], cur := endChecks d cur, bounds := true })
    (next : ∀ n cur r, cur.zf = false → (endChecks d cur).zf = false → (endChecks d cur).idx.toNat < d.send →
      P n { endChecks d cur with idx := (endChecks d cur).idx + 1#18 } r →
      P (n + 1) cur { r with samples := sample (endChecks d cur).idx :: r.samples }) :
    ∀ n cur, P n cur (readLoop sample d n cur) := by
  intro n
  induction n with
  | zero => exact done
  | succ n ih =>
    intro cur
    cases hz : cur.zf with
    | true => rw [readLoop_zf sample d _ hz]; exact fill _ _ hz
    | false =>
      rw [readLoop_succ sample d n hz]
      split
      · next h => exact ends n cur hz h
      · next h =>
        have h' : (endChecks d cur).zf = false := by simpa using h
        split
        · next hs => exact stop n cur hz h' hs
        · next hs => exact next n cur _ hz h' (Nat.lt_of_not_le hs) (ih _)

/-- A loop that is not stopped gives exactly the samples asked for; a stopped one gives fewer. -/
theorem readLoop_length (n : Nat) (cur : Cursor) :
    ((readLoop sample d n cur).bounds = false → (readLoop sample d n cur).samples.length = n) ∧
    (readLoop sample d n cur).samples.length ≤ n := by
  refine readLoop_induction sample d (P := fun n _ r => (r.bounds = false → r.samples.length = n) ∧ r.samples.length ≤ n)
    ?_ ?_ ?_ ?_ ?_ n cur
  · intro cur; simp
  · intro n cur _; simp
  · intro n cur _ _; simp
  · intro n cur _ _ _; simp
  · intro n cur r _ _ _ ih
    exact ⟨fun h => by simpa using ih.1 h, by simpa using ih.2⟩

/-- The loop sets flags and never clears one; a stopped loop has set neither `SIL` nor zero fill, and a loop that did not zero-fill left
`SIL` alone (R127, R183). -/
theorem readLoop_flags (n : Nat) (cur : Cursor) :
    (cur.loopact = true → (readLoop sample d n cur).cur.loopact = true) ∧
    (cur.sil = true → (readLoop sample d n cur).cur.sil = true) ∧
    ((readLoop sample d n cur).cur.zf = false → (readLoop sample d n cur).cur.sil = cur.sil) ∧
    ((readLoop sample d n cur).bounds = true → (readLoop sample d n cur).cur.zf = false) := by
  refine readLoop_induction sample d
    (P := fun _ cur r => (cur.loopact = true → r.cur.loopact = true) ∧ (cur.sil = true → r.cur.sil = true) ∧
      (r.cur.zf = false → r.cur.sil = cur.sil) ∧ (r.bounds = true → r.cur.zf = false)) ?_ ?_ ?_ ?_ ?_ n cur
  · intro cur; simp
  · intro n cur _; simp
  · intro n cur _ h
    have := endChecks_flags d cur
    exact ⟨this.1, this.2.1, this.2.2, by simp⟩
  · intro n cur _ h _
    have := endChecks_flags d cur
    exact ⟨this.1, this.2.1, this.2.2, fun _ => h⟩
  · intro n cur r _ h _ ih
    have := endChecks_flags d cur
    exact ⟨fun h => ih.1 (this.1 h), fun h => ih.2.1 (this.2.1 h), fun hz => (ih.2.2.1 hz).trans (this.2.2 h), ih.2.2.2⟩

/-- The read index stays in its range (R30). -/
theorem readLoop_idx_le (n : Nat) (cur : Cursor) (h : cur.idx.toNat ≤ idxMax) : (readLoop sample d n cur).cur.idx.toNat ≤ idxMax := by
  refine readLoop_induction sample d (P := fun _ cur r => cur.idx.toNat ≤ idxMax → r.cur.idx.toNat ≤ idxMax) ?_ ?_ ?_ ?_ ?_ n cur h
  · intro cur h; exact h
  · intro n cur _ h; exact h
  · intro n cur _ _ h; exact endChecks_idx_le d cur h
  · intro n cur _ _ _ h; exact endChecks_idx_le d cur h
  · intro n cur r _ _ hs ih _
    apply ih
    have := d.send_le
    show ((endChecks d cur).idx + 1#18).toNat ≤ idxMax
    rw [idx_succ_toNat hs, idxMax]
    omega

/-- A loop that lies inside the sample never meets the bounds check (R131). -/
theorem readLoop_inside (n : Nat) (cur : Cursor)
    (h : (cur.loopact = true ∨ 1 < d.looplen.toNat) →
      d.loopstart.toNat + d.looplen.toNat ≤ d.length.toNat ∧ d.loopstart.toNat < d.length.toNat) :
    (readLoop sample d n cur).bounds = false := by
  refine readLoop_induction sample d
    (P := fun _ cur r => ((cur.loopact = true ∨ 1 < d.looplen.toNat) →
      d.loopstart.toNat + d.looplen.toNat ≤ d.length.toNat ∧ d.loopstart.toNat < d.length.toNat) → r.bounds = false)
    ?_ ?_ ?_ ?_ ?_ n cur h
  · intro cur _; rfl
  · intro n cur _ _; rfl
  · intro n cur _ _ _; rfl
  · intro n cur _ hz hs hin
    exfalso
    simp only [Desc.send] at hs
    rcases endChecks_cases d cur with ⟨e, ⟨hl, hi⟩ | ⟨hl, hi⟩⟩ | ⟨e, hl, -⟩ | ⟨e, hl, -, hn⟩ | ⟨e, -⟩
    · rw [e] at hs
      have := hin (.inl hl)
      simp only [Desc.lend] at hi
      omega
    · rw [e] at hs
      simp only [Desc.send] at hi
      omega
    · rw [e] at hs
      have := hin (.inl hl)
      have hs : 2 * d.length.toNat ≤ d.lbeg := by rwa [Desc.lbeg_toNat] at hs
      simp only [Desc.lbeg] at hs
      omega
    · rw [e] at hs
      have := hin (.inr hn)
      have hs : 2 * d.length.toNat ≤ d.lbeg := by rwa [Desc.lbeg_toNat] at hs
      simp only [Desc.lbeg] at hs
      omega
    · rw [e] at hz
      exact Bool.noConfusion hz
  · intro n cur r _ _ _ ih hin
    refine ih fun hl => hin ?_
    rcases endChecks_cases d cur with ⟨e, -⟩ | ⟨e, hl', -⟩ | ⟨e, -, -, hn⟩ | ⟨e, -⟩
    · rw [e] at hl; exact hl
    · exact .inl hl'
    · exact .inr hn
    · rw [e] at hl; exact hl

/-- The loop reads no sample at or beyond the sample end (R54, R131). -/
theorem readLoop_congr {sample' : BitVec 18 → Rat} (h : ∀ i : BitVec 18, i.toNat < d.send → sample i = sample' i) (n : Nat) (cur : Cursor) :
    readLoop sample d n cur = readLoop sample' d n cur := by
  refine readLoop_induction sample d (P := fun n cur r => r = readLoop sample' d n cur) ?_ ?_ ?_ ?_ ?_ n cur
  · intro cur; rfl
  · intro n cur hz; rw [readLoop_zf sample' d n hz]
  · intro n cur hz he; rw [readLoop_succ sample' d n hz, if_pos he]
  · intro n cur hz he hs
    rw [readLoop_succ sample' d n hz, if_neg (by simp [he]), if_pos hs]
  · intro n cur r hz he hs ih
    rw [readLoop_succ sample' d n hz, if_neg (by simp [he]), if_neg (by omega), ← ih, h _ hs]

/-- Every raw sample is zero or a sample below the sample end. -/
theorem readLoop_samples (n : Nat) (cur : Cursor) :
    ∀ v ∈ (readLoop sample d n cur).samples, v = 0 ∨ ∃ i : BitVec 18, i.toNat < d.send ∧ v = sample i := by
  refine readLoop_induction sample d
    (P := fun _ _ r => ∀ v ∈ r.samples, v = 0 ∨ ∃ i : BitVec 18, i.toNat < d.send ∧ v = sample i) ?_ ?_ ?_ ?_ ?_ n cur
  · intro cur v hv; simp at hv
  · intro n cur _ v hv; exact .inl (List.eq_of_mem_replicate hv)
  · intro n cur _ _ v hv; exact .inl (List.eq_of_mem_replicate hv)
  · intro n cur _ _ _ v hv; simp at hv
  · intro n cur r _ _ hs ih v hv
    rcases List.mem_cons.1 hv with rfl | hv
    · exact .inr ⟨_, hs, rfl⟩
    · exact ih v hv

/-! The rounding hook, the carry, the output. -/

@[simp] theorem roundWith_zero (f : Rat → Rat) : roundWith f 0 = 0 := by simp [roundWith]

theorem roundWith_unit (f : Rat → Rat) {v : Rat} (h0 : 0 ≤ v) (h1 : v < 1) : 0 ≤ roundWith f v ∧ roundWith f v < 1 := by
  unfold roundWith
  split
  · exact ⟨le_refl 0, zero_lt_one⟩
  · rw [if_pos ⟨h0, h1⟩]
    split
    · next h => exact h
    · exact ⟨le_refl 0, zero_lt_one⟩

/-- A function that already meets the constraints of U1 is left alone. -/
theorem roundWith_admissible {f : Rat → Rat} (h0 : f 0 = 0) (h1 : ∀ v, 0 ≤ v → v < 1 → 0 ≤ f v ∧ f v < 1) : roundWith f = f := by
  funext v
  unfold roundWith
  split
  · next h => rw [h, h0]
  · split
    · next h => rw [if_pos (h1 v h.1 h.2)]
    · rfl

@[simp] theorem cfg_round_zero (cfg : Cfg) : cfg.round 0 = 0 := by
  unfold Cfg.round RndSel.apply
  split <;> simp

theorem cfg_round_unit (cfg : Cfg) {v : Rat} (h0 : 0 ≤ v) (h1 : v < 1) : 0 ≤ cfg.round v ∧ cfg.round v < 1 := by
  unfold Cfg.round RndSel.apply
  split
  · exact ⟨h0, h1⟩
  · exact roundWith_unit _ h0 h1

theorem cfg_round_identity {cfg : Cfg} (h : cfg.rnd = .identity) (v : Rat) : cfg.round v = v := by
  simp [Cfg.round, RndSel.apply, h]

@[simp] theorem padOut_length (rnd : Rat → Rat) (ys : List Rat) (nout : Nat) : (padOut rnd ys nout).length = nout := by
  simp [padOut]

theorem padOut_getD (rnd : Rat → Rat) (ys : List Rat) {nout j : Nat} (hj : j < nout) :
    (padOut rnd ys nout).getD j 0 =
      if j < ys.length then rnd (ys.getD j 0) else if 0 < ys.length then rnd (ys.getD (ys.length - 1) 0) else 0 := by
  simp [padOut, hj]

@[simp] theorem convLin_length (r : Rat) (xs : List Rat) (nout : Nat) : (convLin r xs nout).length = linCount r xs.length nout := by
  simp [convLin]

theorem convLin_getD (r : Rat) (xs : List Rat) {nout j : Nat} (hj : j < linCount r xs.length nout) :
    (convLin r xs nout).getD j 0 = linFrame r xs j := by
  simp [convLin, hj]

/-- The converter never makes more frames than asked for (R136). -/
theorem convProcess_count {sel : ConvSel} {st st' : ConvState} {r : Rat} {xs ys : List Rat} {nout : Nat}
    (h : convProcess sel st r xs nout = some (st', ys)) : ys.length ≤ nout := by
  cases sel with
  | linear =>
    simp only [convProcess, Option.some.injEq, Prod.mk.injEq] at h
    rw [← h.2, convLin_length]
    exact Nat.min_le_left _ _
  | custom k =>
    simp only [convProcess, Option.map_eq_some_iff, Prod.mk.injEq] at h
    obtain ⟨a, -, -, h⟩ := h
    rw [← h, List.length_take]
    exact Nat.min_le_left _ _
  | failing => simp [convProcess] at h

/-- The instance records the ratio it processed (R36, R137). -/
theorem convProcess_ratio {sel : ConvSel} {st st' : ConvState} {r : Rat} {xs ys : List Rat} {nout : Nat}
    (h : convProcess sel st r xs nout = some (st', ys)) : st'.ratio = r := by
  cases sel with
  | linear =>
    simp only [convProcess, Option.some.injEq, Prod.mk.injEq] at h
    rw [← h.1]
  | custom k =>
    simp only [convProcess, Option.map_eq_some_iff, Prod.mk.injEq] at h
    obtain ⟨a, -, h, -⟩ := h
    rw [← h]
  | failing => simp [convProcess] at h

@[simp] theorem convSetRatio_ratio (sel : ConvSel) (st : ConvState) (r : Rat) : (convSetRatio sel st r).ratio = r := by
  cases sel <;> rfl

/-- What `GEN` never writes of its channel, and what the carry writes (R132). -/
theorem carry_frame (cfg : Cfg) (frac : Rat) (ch : Channel) :
    carry cfg frac ch = { ch with rem := (carry cfg frac ch).rem, idx := (carry cfg frac ch).idx } := by
  unfold carry
  dsimp only
  split <;> rfl

/-- All that a completed read loop and the carry write: `RAW`, `RAWN`, `IDX`, `LOOPACT`, `SIL`, `REM`. -/
theorem afterSynth_frame (cfg : Cfg) (ch : Channel) (r : ReadOut) :
    afterSynth cfg ch r = { ch with
      raw := r.samples ++ ch.raw.drop r.samples.length, rawn := tickCount cfg ch, loopact := r.cur.loopact, sil := r.cur.sil,
      idx := (afterSynth cfg ch r).idx, rem := (afterSynth cfg ch r).rem } := by
  unfold afterSynth
  dsimp only
  split
  · rfl
  · rw [carry_frame]; rfl

@[simp] theorem afterSynth_cv (cfg : Cfg) (ch : Channel) (r : ReadOut) : (afterSynth cfg ch r).cv = ch.cv := by
  rw [afterSynth_frame]

@[simp] theorem afterSynth_rawn (cfg : Cfg) (ch : Channel) (r : ReadOut) : (afterSynth cfg ch r).rawn = tickCount cfg ch := by
  rw [afterSynth_frame]

@[simp] theorem afterSynth_raw (cfg : Cfg) (ch : Channel) (r : ReadOut) :
    (afterSynth cfg ch r).raw = r.samples ++ ch.raw.drop r.samples.length := by
  rw [afterSynth_frame]

/-- The converter's input is exactly the samples the loop produced. -/
theorem afterSynth_take (cfg : Cfg) (ch : Channel) (r : ReadOut) (h : r.samples.length = tickCount cfg ch) :
    (afterSynth cfg ch r).raw.take (afterSynth cfg ch r).rawn = r.samples := by
  rw [afterSynth_raw, afterSynth_rawn, ← h, List.take_left]

end Sys2Proof.Machine
end

