-- ==== Sys2Proof/Laws/Exec.lean ====
section
/-! SUPPORT. What `exec` and `step` answer, said once: always a next state; what every command but `STAT` does while halted (R100); what
each shape of command does while running. Provers cite these instead of unfolding the meanings. -/

namespace Sys2Proof.Machine

@[simp] theorem unlessHalted_running {s : State} (h : s.fault = false) (run : State → State) : s.unlessHalted run = run s := by
  simp [State.unlessHalted, h]

@[simp] theorem unlessHalted_halted {s : State} (h : s.fault = true) (run : State → State) : s.unlessHalted run = s.refuse := by
  simp [State.unlessHalted, h]

/-- Every command in every state answers a next state. -/
theorem exec_after (i : Instr) (s : State) : exec i s = .next (after i s) := by
  cases i <;> rfl

theorem exec_eq_next {i : Instr} {s t : State} : exec i s = .next t ↔ t = after i s := by
  rw [exec_after]
  exact ⟨fun h => (Host.Outcome.next.inj h).symm, fun h => by rw [h]⟩

theorem after_eq {i : Instr} {s t : State} (h : exec i s = .next t) : after i s = t := (exec_eq_next.1 h).symm

/-- While halted every command but `STAT` is refused (R100, R191). -/
theorem exec_halted {i : Instr} {s : State} (h : s.fault = true) (hi : i ≠ .stat) : exec i s = .next s.refuse := by
  cases i <;> first
    | exact absurd rfl hi
    | exact congrArg Host.Outcome.next (unlessHalted_halted h _)

theorem exec_stat (s : State) : exec .stat s = .next (s.answer (.word s.statusWord)) := rfl

theorem execIllegal_running {s : State} (h : s.fault = false) : execIllegal s = .next (s.raise .illegalCommand) :=
  congrArg Host.Outcome.next (unlessHalted_running h _)

theorem execIllegal_halted {s : State} (h : s.fault = true) : execIllegal s = .next s.refuse :=
  congrArg Host.Outcome.next (unlessHalted_halted h _)

/-! The register writes. -/

theorem writeChannel_running {s : State} (h : s.fault = false) (c : Chan) (f : Channel → Channel) :
    writeChannel c f s = .next ((s.setChan c (f (s.chan c))).answer .absent) :=
  congrArg Host.Outcome.next (unlessHalted_running h _)

theorem writeDesc_zero {s : State} (h : s.fault = false) (f : Desc → Desc) : writeDesc 0#5 f s = .next (s.raise .operandRange) :=
  congrArg Host.Outcome.next (unlessHalted_running h _)

/-- A descriptor write to a slot 1..31 changes that slot's descriptor by `f` and nothing else. -/
theorem writeDesc_running {s : State} (h : s.fault = false) {k : Slot} (hk : k ≠ 0#5) (f : Desc → Desc) :
    ∃ (t : State) (d : Desc), writeDesc k f s = .next (t.answer .absent) ∧ s.desc? k = some d ∧ t.desc? k = some (f d) ∧
      (∀ l, l ≠ k → t.desc? l = s.desc? l) ∧ t = { s with descs := t.descs } := by
  obtain ⟨i, hi, -⟩ := slotIndex_isSome hk
  refine ⟨{ s with descs := s.descs.set i (f s.descs[i]) }, s.descs[i], ?_, by simp [State.desc?, hi], ?_, ?_, rfl⟩
  · rw [writeDesc, unlessHalted_running h, hi]
  · rw [desc_set s hi, if_pos rfl]
  · intro l hl
    rw [desc_set s hi, if_neg hl]

theorem exec_slen_zero {s : State} (h : s.fault = false) (v : BitVec 16) : exec (.slen 0#5 v) s = .next (s.raise .operandRange) :=
  congrArg Host.Outcome.next (unlessHalted_running h _)

theorem exec_slen {s : State} (h : s.fault = false) {k : Slot} (hk : k ≠ 0#5) (v : BitVec 16) :
    ∃ (t : State) (d : Desc), exec (.slen k v) s = .next (t.answer .absent) ∧ s.desc? k = some d ∧
      t.desc? k = some { d with length := v } ∧ (∀ l, l ≠ k → t.desc? l = s.desc? l) ∧ t = { s with descs := t.descs } :=
  writeDesc_running h hk fun d => { d with length := v }

theorem exec_slps_zero {s : State} (h : s.fault = false) (v : BitVec 16) : exec (.slps 0#5 v) s = .next (s.raise .operandRange) :=
  congrArg Host.Outcome.next (unlessHalted_running h _)

theorem exec_slps {s : State} (h : s.fault = false) {k : Slot} (hk : k ≠ 0#5) (v : BitVec 16) :
    ∃ (t : State) (d : Desc), exec (.slps k v) s = .next (t.answer .absent) ∧ s.desc? k = some d ∧
      t.desc? k = some { d with loopstart := v } ∧ (∀ l, l ≠ k → t.desc? l = s.desc? l) ∧ t = { s with descs := t.descs } :=
  writeDesc_running h hk fun d => { d with loopstart := v }

theorem exec_slpl_zero {s : State} (h : s.fault = false) (v : BitVec 16) : exec (.slpl 0#5 v) s = .next (s.raise .operandRange) :=
  congrArg Host.Outcome.next (unlessHalted_running h _)

theorem exec_slpl {s : State} (h : s.fault = false) {k : Slot} (hk : k ≠ 0#5) (v : BitVec 16) :
    ∃ (t : State) (d : Desc), exec (.slpl k v) s = .next (t.answer .absent) ∧ s.desc? k = some d ∧
      t.desc? k = some { d with looplen := v } ∧ (∀ l, l ≠ k → t.desc? l = s.desc? l) ∧ t = { s with descs := t.descs } :=
  writeDesc_running h hk fun d => { d with looplen := v }

theorem exec_csmp {s : State} (h : s.fault = false) (c : Chan) (x : Slot) :
    exec (.csmp c x) s = .next ((s.setChan c { s.chan c with smp := x }).answer .absent) :=
  congrArg Host.Outcome.next (unlessHalted_running h _)

theorem exec_cper {s : State} (h : s.fault = false) (c : Chan) (x : BitVec 12) :
    exec (.cper c x) s = .next ((s.setChan c { s.chan c with period := x }).answer .absent) :=
  congrArg Host.Outcome.next (unlessHalted_running h _)

theorem exec_cft {s : State} (h : s.fault = false) (c : Chan) (x : BitVec 4) :
    exec (.cft c x) s = .next ((s.setChan c { s.chan c with ft := x }).answer .absent) :=
  congrArg Host.Outcome.next (unlessHalted_running h _)

theorem exec_cvol {s : State} (h : s.fault = false) (c : Chan) (x : BitVec 7) :
    exec (.cvol c x) s = .next ((s.setChan c { s.chan c with vol := clampVol x }).answer .absent) :=
  congrArg Host.Outcome.next (unlessHalted_running h _)

theorem exec_cidx {s : State} (h : s.fault = false) (c : Chan) (x : BitVec 17) :
    exec (.cidx c x) s = .next ((s.setChan c { s.chan c with idx := idxOperand x, rem := 0 }).answer .absent) :=
  congrArg Host.Outcome.next (unlessHalted_running h _)

theorem exec_csil {s : State} (h : s.fault = false) (c : Chan) (x : Bool) :
    exec (.csil c x) s = .next ((s.setChan c { s.chan c with sil := x }).answer .absent) :=
  congrArg Host.Outcome.next (unlessHalted_running h _)

theorem exec_cloop {s : State} (h : s.fault = false) (c : Chan) (x : Bool) :
    exec (.cloop c x) s = .next ((s.setChan c { s.chan c with loopact := x }).answer .absent) :=
  congrArg Host.Outcome.next (unlessHalted_running h _)

theorem clampVol_toNat (k : BitVec 7) : (clampVol k).toNat = min k.toNat 64 := by
  unfold clampVol
  split
  · simp; omega
  · omega

theorem idxOperand_toNat (i : BitVec 17) : (idxOperand i).toNat = i.toNat := by
  have := i.isLt
  simp [idxOperand]
  omega

/-- `CHRD` selects a register for the selectors 0..5 and none for 6 and 7 (R81, R166). -/
theorem channelWord_none (ch : Channel) {sel : BitVec 3} (h : 6 ≤ sel.toNat) : channelWord ch sel = none := by
  have : sel = 6#3 ∨ sel = 7#3 := by
    simp only [BitVec.toNat_eq]
    simp
    omega
  rcases this with rfl | rfl <;> rfl

theorem channelWord_some (ch : Channel) {sel : BitVec 3} (h : sel.toNat < 6) : ∃ w, channelWord ch sel = some w := by
  have : sel = 0#3 ∨ sel = 1#3 ∨ sel = 2#3 ∨ sel = 3#3 ∨ sel = 4#3 ∨ sel = 5#3 := by
    simp only [BitVec.toNat_eq]
    simp
    omega
  rcases this with rfl | rfl | rfl | rfl | rfl | rfl <;> exact ⟨_, rfl⟩

theorem exec_nop {s : State} (h : s.fault = false) : exec .nop s = .next (s.answer .absent) :=
  congrArg Host.Outcome.next (unlessHalted_running h _)

theorem exec_pcmptr {s : State} (h : s.fault = false) (a : BitVec 22) :
    exec (.pcmptr a) s = .next ({ s with pcmptr := a }.answer .absent) :=
  congrArg Host.Outcome.next (unlessHalted_running h _)

theorem exec_pcmwr {s : State} (h : s.fault = false) (b : Byte) :
    exec (.pcmwr b) s = .next ({ s.setPcmByte s.pcmptr b with pcmptr := s.pcmptr + 1#22 }.answer .absent) :=
  congrArg Host.Outcome.next (unlessHalted_running h _)

/-! The mixer and the read-backs. -/

theorem exec_mix {s : State} (h : s.fault = false) (c : Chan) :
    exec (.mix c) s = .next (((s.setGenBuf (mixedBuf c s)).markSide (sideOf c)).answer .absent) :=
  congrArg Host.Outcome.next (unlessHalted_running h _)

theorem exec_swap {s : State} (h : s.fault = false) :
    exec .swap s = .next ({ s with g := !s.g, swL := false, swR := false }.answer .absent) :=
  congrArg Host.Outcome.next (unlessHalted_running h _)

theorem exec_chrd {s : State} (h : s.fault = false) {c : Chan} {sel : BitVec 3} {w : Word} (hw : channelWord (s.chan c) sel = some w) :
    exec (.chrd c sel) s = .next (s.answer (.word w)) := by
  show execChrd c sel s = _
  rw [execChrd, unlessHalted_running h, hw]

theorem exec_chrd_range {s : State} (h : s.fault = false) {c : Chan} {sel : BitVec 3} (hw : channelWord (s.chan c) sel = none) :
    exec (.chrd c sel) s = .next (s.raise .operandRange) := by
  show execChrd c sel s = _
  rw [execChrd, unlessHalted_running h, hw]

theorem exec_frd {s : State} (h : s.fault = false) (d : Side) {j : BitVec 16} (hj : j.toNat < s.cfg.nout) :
    exec (.frd d j) s = .next (s.answer (.sample ((frameAt s.frontBuf j.toNat).get d))) := by
  show execFrd d j s = _
  rw [execFrd, unlessHalted_running h, if_neg (by omega)]

theorem exec_frd_range {s : State} (h : s.fault = false) (d : Side) {j : BitVec 16} (hj : s.cfg.nout ≤ j.toNat) :
    exec (.frd d j) s = .next (s.raise .operandRange) := by
  show execFrd d j s = _
  rw [execFrd, unlessHalted_running h, if_pos hj]

/-- A frame of the buffer `MIX` leaves (R151). -/
theorem frameAt_mixedBuf (c : Chan) (s : State) {j : Nat} (hj : j < s.cfg.nout) :
    frameAt (mixedBuf c s) j = (frameAt s.genBuf j).set (sideOf c)
      (mixValue s.cfg (s.sw (sideOf c)) ((frameAt s.genBuf j).get (sideOf c)) ((s.chan c).out.getD j 0)) := by
  simp [mixedBuf, frameAt, hj]

@[simp] theorem mixedBuf_length (c : Chan) (s : State) : (mixedBuf c s).length = s.cfg.nout := by
  simp [mixedBuf]

/-! `GEN`. -/

theorem effectivelySilent_iff (s : State) (c : Chan) : effectivelySilent s (s.chan c) = true ↔ Silent s c := by
  unfold effectivelySilent Silent
  by_cases hk : (s.chan c).smp = 0#5
  · simp [hk]
  · obtain ⟨d, hd⟩ := desc_isSome s hk
    simp [hd, hk, or_assoc]

theorem exec_gen_silent {s : State} (h : s.fault = false) {c : Chan} (hs : Silent s c) :
    exec (.gen c) s = .next ((s.setChan c (silentPath s.cfg (s.chan c))).answer .absent) := by
  show execGen c s = _
  simp only [execGen, unlessHalted_running h, (effectivelySilent_iff s c).2 hs]

theorem active_not_silent {s : State} {c : Chan} {d : Desc} (h : Active s c d) : ¬ Silent s c := by
  rintro (e | e | ⟨d', e, e'⟩ | e)
  · rw [h.not_sil] at e; exact Bool.noConfusion e
  · have := h.desc_eq; rw [e, desc_zero] at this; cases this
  · have := h.desc_eq; rw [e] at this; cases this; exact h.length_ne e'
  · exact h.period_ne e

theorem active_of_not_silent {s : State} {c : Chan} (h : s.fault = false) (hs : ¬ Silent s c) : ∃ d, Active s c d := by
  have hk : (s.chan c).smp ≠ 0#5 := fun e => hs (.inr (.inl e))
  obtain ⟨d, hd⟩ := desc_isSome s hk
  exact ⟨d, h, by simpa using fun e => hs (.inl e), hd, fun e => hs (.inr (.inr (.inl ⟨d, hd, e⟩))),
    fun e => hs (.inr (.inr (.inr e)))⟩

theorem exec_gen_active {s : State} {c : Chan} {d : Desc} (h : Active s c d) : exec (.gen c) s = .next (genActive c d s) := by
  show execGen c s = _
  have hs : effectivelySilent s (s.chan c) = false := by
    rw [Bool.eq_false_iff]
    exact fun e => active_not_silent h ((effectivelySilent_iff s c).1 e)
  simp only [execGen, unlessHalted_running h.running, hs, h.desc_eq]

/-- The four ways an active `GEN` ends (R122): `RateRange`, `PcmBounds`, `ConvFail`, or a whole tick. -/
theorem genActive_cases (c : Chan) (d : Desc) (s : State) :
    (s.cfg.rawcap < tickCount s.cfg (s.chan c) ∧ genActive c d s = s.raise .rateRange) ∨
    ∃ r, tickCount s.cfg (s.chan c) ≤ s.cfg.rawcap ∧
      r = readLoop (scaledSample s (s.chan c)) d (tickCount s.cfg (s.chan c)) (s.chan c).cursor ∧
      ((r.bounds = true ∧ genActive c d s = (s.setChan c ((s.chan c).afterReads r)).raise .pcmBounds) ∨
       ∃ ch, r.bounds = false ∧ ch = afterSynth s.cfg (s.chan c) r ∧
        ((convProcess s.cfg.conv ch.cv (tickRatio s.cfg (s.chan c)) (ch.raw.take ch.rawn) s.cfg.nout = none ∧
            genActive c d s = (s.setChan c ch).raise .convFail) ∨
         ∃ cv ys, convProcess s.cfg.conv ch.cv (tickRatio s.cfg (s.chan c)) (ch.raw.take ch.rawn) s.cfg.nout = some (cv, ys) ∧
            genActive c d s =
              (s.setChan c { ch with cv := cv, out := padOut s.cfg.round ys s.cfg.nout }).answer .absent)) := by
  by_cases h1 : s.cfg.rawcap < tickCount s.cfg (s.chan c)
  · exact .inl ⟨h1, by simp only [genActive, if_pos h1]⟩
  · refine .inr ⟨_, Nat.le_of_not_lt h1, rfl, ?_⟩
    cases h2 : (readLoop (scaledSample s (s.chan c)) d (tickCount s.cfg (s.chan c)) (s.chan c).cursor).bounds with
    | true => exact .inl ⟨rfl, by simp only [genActive, if_neg h1, h2, if_true]⟩
    | false =>
      refine .inr ⟨_, rfl, rfl, ?_⟩
      cases h3 : convProcess s.cfg.conv
          (afterSynth s.cfg (s.chan c) (readLoop (scaledSample s (s.chan c)) d (tickCount s.cfg (s.chan c)) (s.chan c).cursor)).cv
          (tickRatio s.cfg (s.chan c))
          ((afterSynth s.cfg (s.chan c)
            (readLoop (scaledSample s (s.chan c)) d (tickCount s.cfg (s.chan c)) (s.chan c).cursor)).raw.take
            (afterSynth s.cfg (s.chan c)
              (readLoop (scaledSample s (s.chan c)) d (tickCount s.cfg (s.chan c)) (s.chan c).cursor)).rawn) s.cfg.nout with
      | none => exact .inl ⟨rfl, by simp only [genActive, if_neg h1, h2, h3]; rfl⟩
      | some a => exact .inr ⟨a.1, a.2, rfl, by simp only [genActive, if_neg h1, h2, h3]; rfl⟩

/-- All that a `GEN` on a running block can do (R122): it replaces the bank of its own channel, in which the host-written registers stay
and the two flags are only ever set, and then completes or halts with one of its three causes; a halt leaves `OUT` and the converter. -/
theorem exec_gen_cases {s : State} (h : s.fault = false) (c : Chan) :
    ∃ ch : Channel, ((s.chan c).sil = true → ch.sil = true) ∧ ((s.chan c).loopact = true → ch.loopact = true) ∧
      ((exec (.gen c) s = .next ((s.setChan c ch).answer .absent) ∧ ch.out.length = s.cfg.nout ∧
          ch = { s.chan c with raw := ch.raw, rawn := ch.rawn, idx := ch.idx, rem := ch.rem, loopact := ch.loopact, sil := ch.sil,
                               out := ch.out, cv := ch.cv }) ∨
       ∃ f, exec (.gen c) s = .next ((s.setChan c ch).raise f) ∧ (f = .rateRange ∨ f = .pcmBounds ∨ f = .convFail) ∧
          ch = { s.chan c with raw := ch.raw, rawn := ch.rawn, idx := ch.idx, rem := ch.rem, loopact := ch.loopact, sil := ch.sil }) := by
  by_cases hs : Silent s c
  · exact ⟨silentPath s.cfg (s.chan c), id, id, .inl ⟨exec_gen_silent h hs, by simp [silentPath], rfl⟩⟩
  · obtain ⟨d, ha⟩ := active_of_not_silent h hs
    have fl := readLoop_flags (scaledSample s (s.chan c)) d (tickCount s.cfg (s.chan c)) (s.chan c).cursor
    rcases genActive_cases c d s with ⟨_, e⟩ | ⟨r, _, hr, ⟨_, e⟩ | ⟨ch, hb, hch, ⟨_, e⟩ | ⟨cv, ys, _, e⟩⟩⟩
    · exact ⟨s.chan c, id, id, .inr ⟨_, by rw [exec_gen_active ha, e, setChan_chan_self], .inl rfl, rfl⟩⟩
    · subst hr
      exact ⟨(s.chan c).afterReads _, fl.2.1, fl.1, .inr ⟨_, by rw [exec_gen_active ha, e], .inr (.inl rfl), rfl⟩⟩
    · rw [afterSynth_frame] at hch
      exact ⟨ch, by rw [hch, hr]; exact fl.2.1, by rw [hch, hr]; exact fl.1,
        .inr ⟨_, by rw [exec_gen_active ha, e], .inr (.inr rfl), by rw [hch]⟩⟩
    · rw [afterSynth_frame] at hch
      refine ⟨{ ch with cv := cv, out := padOut s.cfg.round ys s.cfg.nout }, ?_, ?_,
        .inl ⟨by rw [exec_gen_active ha, e], by simp, by rw [hch]⟩⟩
      · show _ → ch.sil = true
        rw [hch, hr]; exact fl.2.1
      · show _ → ch.loopact = true
        rw [hch, hr]; exact fl.1

/-! `step`. -/

theorem step_idle {s : State} (h : s.inputs = []) : step s = .next s := by
  simp [step, fetch, h]

theorem step_reset {s : State} {rest : List Input} (h : s.inputs = .reset :: rest) :
    step s = .next { s with inputs := rest }.resetAction := by
  simp [step, fetch, h]

theorem step_command {s : State} {w : Word} {i : Instr} {rest : List Input} (h : s.inputs = .command w :: rest)
    (hd : decode w = some i) : step s = exec i { s with inputs := rest } := by
  simp [step, fetch, h, hd]

theorem step_illegal {s : State} {w : Word} {rest : List Input} (h : s.inputs = .command w :: rest) (hd : decode w = none) :
    step s = execIllegal { s with inputs := rest } := by
  simp [step, fetch, h, hd]

/-- Every step of every state answers a next state. -/
theorem step_next (s : State) : ∃ t, step s = .next t := by
  cases h : s.inputs with
  | nil => exact ⟨s, step_idle h⟩
  | cons a rest =>
    cases a with
    | reset => exact ⟨_, step_reset h⟩
    | command w =>
      cases hd : decode w with
      | none => exact ⟨_, step_illegal h hd⟩
      | some i => exact ⟨_, (step_command h hd).trans (exec_after i _)⟩

theorem resetTo_ok {cfg : Cfg} (pcm : List Host.Cell) (h : cfg.conv ≠ .failing) : resetTo cfg pcm = State.initial cfg pcm := by
  cases hc : cfg.conv with
  | failing => exact absurd hc h
  | linear => simp [resetTo, convInit, hc]
  | custom k => simp [resetTo, convInit, hc]

theorem resetTo_failing {cfg : Cfg} (pcm : List Host.Cell) (h : cfg.conv = .failing) :
    resetTo cfg pcm = { State.initial cfg pcm with fault := true, fcode := 6#3 } := by
  simp [resetTo, convInit, h, Fault.code]

/-- The state after reset is the reset of a block with the configuration of the machine. -/
theorem reset_eq_resetTo : State.reset = resetTo Config.cfg [] := rfl

end Sys2Proof.Machine
end

