-- ==== Sys2Proof/Laws/Gen.lean ====
section
/-! SUPPORT. `GEN` in closed form: the rate, the ranges the carry keeps, the stretches of the read loop (consecutive samples, a walk round an
armed loop), and a whole `GEN` with the reference converter. -/

namespace Sys2Proof.Machine

/-! The configuration (R6) and the rate (R120, R121). -/

theorem Cfg.Admissible.tickSec_pos {cfg : Cfg} (h : cfg.Admissible) : 0 < cfg.tickSec := by
  obtain ⟨-, -, -, ho, h1, -⟩ := h
  by_contra hn
  have := mul_nonpos_of_nonneg_of_nonpos ho.le (not_lt.1 hn)
  linarith

theorem ratPow_eq (q : Rat) (n : Nat) : ratPow q n = q ^ n := by
  induction n with
  | zero => simp [ratPow]
  | succ n ih => simp [ratPow, ih, pow_succ]

theorem basePow_eq (b : Rat) (f : Int) : basePow b f = b ^ f := by
  cases f with
  | ofNat n => simp [basePow, ratPow_eq]
  | negSucc n => simp [basePow, ratPow_eq, zpow_negSucc]

theorem rate_eq (cfg : Cfg) (p : Nat) (f : Int) : rate cfg p f = cfg.clockConst / (2 * (p : Rat)) * cfg.base ^ f := by
  rw [rate, basePow_eq]

theorem rat_floor_eq (x : Rat) : x.floor = ⌊x⌋ := rfl

theorem rate_pos {cfg : Cfg} {p : Nat} (f : Int) (hc : 0 < cfg.clockConst) (hb : 0 < cfg.base) (hp : 0 < p) : 0 < rate cfg p f := by
  have hp' : (0 : Rat) < p := by exact_mod_cast hp
  have hb : (0 : Rat) < cfg.base ^ f := zpow_pos hb f
  rw [rate_eq]
  positivity

/-- A channel with a period has a positive native rate. -/
theorem nativeRate_pos {cfg : Cfg} {ch : Channel} (hc : cfg.Admissible) (hp : ch.period ≠ 0#12) : 0 < nativeRate cfg ch :=
  rate_pos _ hc.1 hc.2.1 (Nat.pos_of_ne_zero fun e => hp (BitVec.eq_of_toNat_eq e))

/-- A channel with a period needs a positive number of samples a tick, not in general a whole one. -/
theorem tickNeed_pos {cfg : Cfg} {ch : Channel} (hc : cfg.Admissible) (hp : ch.period ≠ 0#12) : 0 < tickNeed cfg ch :=
  mul_pos (nativeRate_pos hc hp) (Cfg.Admissible.tickSec_pos hc)

/-- `N` is the floor of `need` (R121). -/
theorem tickCount_eq_floor {cfg : Cfg} {ch : Channel} (h : 0 ≤ tickNeed cfg ch) : (tickCount cfg ch : Int) = (tickNeed cfg ch).floor := by
  unfold tickCount
  rw [Int.toNat_of_nonneg (by rw [rat_floor_eq]; exact Int.floor_nonneg.2 h)]

theorem tickCount_spec {cfg : Cfg} {ch : Channel} (h : 0 ≤ tickNeed cfg ch) :
    (tickCount cfg ch : Rat) ≤ tickNeed cfg ch ∧ tickNeed cfg ch < tickCount cfg ch + 1 := by
  have h1 : (tickCount cfg ch : Int) = ⌊tickNeed cfg ch⌋ := tickCount_eq_floor h
  have h2 : ((tickCount cfg ch : Nat) : Rat) = ((⌊tickNeed cfg ch⌋ : Int) : Rat) := by rw [← h1]; simp
  rw [h2]
  exact ⟨Int.floor_le _, Int.lt_floor_add_one _⟩

/-! The carry keeps its ranges (R30, R132). -/

theorem carry_idx (cfg : Cfg) (f : Rat) (ch : Channel) (h : ch.idx.toNat ≤ idxMax) : (carry cfg f ch).idx.toNat ≤ idxMax := by
  unfold carry; dsimp only; split
  · simp [idxMax] at h ⊢
    omega
  · exact h

theorem carry_rem (cfg : Cfg) (f : Rat) (ch : Channel) (h0 : 0 ≤ ch.rem) (h1 : ch.rem < 1) (f0 : 0 ≤ f) (f1 : f < 1) :
    0 ≤ (carry cfg f ch).rem ∧ (carry cfg f ch).rem < 1 := by
  unfold carry; dsimp only; split
  · next h => exact cfg_round_unit cfg (by linarith) (by linarith)
  · next h => exact cfg_round_unit cfg (by linarith) (by linarith)

theorem afterSynth_bounds (cfg : Cfg) (ch : Channel) (d : Desc) (sample) (hi : ch.idx.toNat ≤ idxMax) :
    (afterSynth cfg ch (readLoop sample d (tickCount cfg ch) ch.cursor)).idx.toNat ≤ idxMax := by
  have h := readLoop_idx_le sample d (tickCount cfg ch) ch.cursor hi
  unfold afterSynth; dsimp only; split
  · exact h
  · exact carry_idx _ _ _ h

theorem afterSynth_rem (cfg : Cfg) (ch : Channel) (r : ReadOut) (h0 : 0 ≤ ch.rem) (h1 : ch.rem < 1) (hr : 0 ≤ tickNeed cfg ch) :
    0 ≤ (afterSynth cfg ch r).rem ∧ (afterSynth cfg ch r).rem < 1 := by
  have := tickCount_spec hr
  unfold afterSynth; dsimp only; split
  · exact ⟨h0, h1⟩
  · exact carry_rem _ _ _ h0 h1 (by linarith) (by linarith)

/-! Stretches of the read loop. -/

/-- While no end is met the loop reads consecutive samples (R126): the first `m` turns of `m + n`. -/
theorem readLoop_run (sample : BitVec 18 → Rat) (d : Desc) : ∀ (m n : Nat) (cur : Cursor), cur.zf = false →
    (∀ i, i < m → cur.idx.toNat + i < (if cur.loopact then d.lend else d.send) ∧ cur.idx.toNat + i < d.send) →
    readLoop sample d (m + n) cur =
      { readLoop sample d n { cur with idx := BitVec.ofNat 18 (cur.idx.toNat + m) } with
        samples := (List.range m).map (fun i => sample (BitVec.ofNat 18 (cur.idx.toNat + i))) ++
          (readLoop sample d n { cur with idx := BitVec.ofNat 18 (cur.idx.toNat + m) }).samples }
  | 0, n, cur, _, _ => by simp
  | m + 1, n, cur, hz, h => by
    obtain ⟨h0, hs⟩ := h 0 (by omega)
    have he : endChecks d cur = cur := by
      unfold endChecks
      cases hl : cur.loopact <;> simp [hl] at h0 ⊢ <;> omega
    have hi : (cur.idx + 1#18).toNat = cur.idx.toNat + 1 := idx_succ_toNat (d := d) (by omega)
    rw [show m + 1 + n = (m + n) + 1 by omega, readLoop_succ _ _ _ hz, he, if_neg (by simp [hz]), if_neg (by omega)]
    rw [readLoop_run sample d m n { cur with idx := cur.idx + 1#18 } hz (fun i hi' => by
      dsimp only; rw [hi, Nat.add_right_comm, Nat.add_assoc]; exact h (i + 1) (by omega))]
    dsimp only
    rw [hi, show cur.idx.toNat + 1 + m = cur.idx.toNat + (m + 1) by omega]
    congr 1
    rw [List.range_succ_eq_map]
    simp [List.map_map, Function.comp_def]
    intro a _; congr 2; omega

/-- At the sample end without a loop the rest of the tick is zeros (R129). -/
theorem readLoop_fill (sample : BitVec 18 → Rat) {d : Desc} (n : Nat) {cur : Cursor} (hz : cur.zf = false) (hl : cur.loopact = false)
    (hL : d.looplen.toNat ≤ 1) (hs : d.send ≤ cur.idx.toNat) :
    readLoop sample d (n + 1) cur =
      { samples := List.replicate (n + 1) 0, cur := { cur with zf := true, sil := true }, bounds := false } := by
  have he : endChecks d cur = { cur with zf := true, sil := true } := by
    unfold endChecks; simp [hl, hs, Desc.hasLoop]; omega
  rw [readLoop_succ _ _ _ hz, he, if_pos rfl]

/-- At the loop end of an armed loop the tick goes on as from the loop start (R128). -/
theorem readLoop_wrap (sample : BitVec 18 → Rat) {d : Desc} (n : Nat) {cur : Cursor} (hz : cur.zf = false) (hl : cur.loopact = true)
    (hs : d.lend ≤ cur.idx.toNat) :
    readLoop sample d (n + 1) cur = readLoop sample d (n + 1) { cur with idx := BitVec.ofNat 18 d.lbeg } := by
  have he : endChecks d cur = { cur with idx := BitVec.ofNat 18 d.lbeg } := by unfold endChecks; simp [hl, hs]
  have he2 : endChecks d { cur with idx := BitVec.ofNat 18 d.lbeg } = { cur with idx := BitVec.ofNat 18 d.lbeg } := by
    unfold endChecks; simp [hl]
  rw [readLoop_succ _ _ _ hz, readLoop_succ _ _ _ (cur := { cur with idx := BitVec.ofNat 18 d.lbeg }) hz, he, he2]

/-- At the sample end with a loop the tick goes on as from the loop start with looping armed (R129). -/
theorem readLoop_arm (sample : BitVec 18 → Rat) {d : Desc} (n : Nat) {cur : Cursor} (hz : cur.zf = false) (hl : cur.loopact = false)
    (hL : 1 < d.looplen.toNat) (hs : d.send ≤ cur.idx.toNat) :
    readLoop sample d (n + 1) cur = readLoop sample d (n + 1) { cur with loopact := true, idx := BitVec.ofNat 18 d.lbeg } := by
  have he : endChecks d cur = { cur with loopact := true, idx := BitVec.ofNat 18 d.lbeg } := by
    unfold endChecks; simp [hl, hs, Desc.hasLoop, hL]
  have he2 : endChecks d { cur with loopact := true, idx := BitVec.ofNat 18 d.lbeg } =
      { cur with loopact := true, idx := BitVec.ofNat 18 d.lbeg } := by unfold endChecks; simp
  rw [readLoop_succ _ _ _ hz, readLoop_succ _ _ _ (cur := { cur with loopact := true, idx := BitVec.ofNat 18 d.lbeg }) hz, he, he2]

/-- An armed loop that is not inside the sample runs into the bounds check at the sample end (R131), or at once where it starts beyond. -/
theorem readLoop_stop (sample : BitVec 18 → Rat) {d : Desc} {n : Nat} {cur : Cursor} {p : Nat} (hz : cur.zf = false)
    (hl : cur.loopact = true) (hout : d.send < d.lend ∨ d.send ≤ d.lbeg)
    (hp : p = if d.lend ≤ cur.idx.toNat then d.lbeg else cur.idx.toNat) (hn : 1 ≤ n) (hr : d.send < p + n) :
    readLoop sample d n cur =
      { samples := (List.range (d.send - p)).map (fun i => sample (BitVec.ofNat 18 (p + i))),
        cur := { cur with idx := BitVec.ofNat 18 (max p d.send) }, bounds := true } := by
  have hlb := d.lbeg_le
  have hle : d.lbeg ≤ d.lend := by simp [Desc.lend, Desc.lbeg]
  obtain ⟨n, rfl⟩ : ∃ m, n = m + 1 := ⟨n - 1, by omega⟩
  -- from the wrapped position on
  have hw : readLoop sample d (n + 1) cur = readLoop sample d (n + 1) { cur with idx := BitVec.ofNat 18 p } := by
    by_cases h : d.lend ≤ cur.idx.toNat
    · rw [readLoop_wrap sample n hz hl h, hp, if_pos h]
    · rw [hp, if_neg h, BitVec.ofNat_toNat, BitVec.setWidth_eq]
  have hpn : (BitVec.ofNat 18 p).toNat = p := by
    rw [hp]; split
    · exact d.lbeg_toNat
    · simp
  -- a turn that stands at or beyond the sample end stops there
  have stop : ∀ (k q : Nat), d.send ≤ q → (BitVec.ofNat 18 q).toNat = q → (d.lend ≤ q → q = d.lbeg) →
      readLoop sample d (k + 1) { cur with idx := BitVec.ofNat 18 q } =
        { samples := [], cur := { cur with idx := BitVec.ofNat 18 q }, bounds := true } := by
    intro k q hq hqn hqe
    have he : endChecks d { cur with idx := BitVec.ofNat 18 q } = { cur with idx := BitVec.ofNat 18 q } := by
      unfold endChecks; simp only [hl, if_true, hqn]
      split
      · next h => rw [← hqe h]
      · rfl
    rw [readLoop_succ _ _ _ (cur := { cur with idx := BitVec.ofNat 18 q }) hz, he, if_neg (by simp [hz]),
      if_pos (by dsimp only; omega)]
  rw [hw]
  by_cases h : d.send ≤ p
  · rw [stop n p h hpn (fun h' => by rw [hp] at h' ⊢; split at h' <;> simp_all), Nat.sub_eq_zero_of_le h, Nat.max_eq_left h]
    rfl
  · have hsend := d.send_le
    have hrun := readLoop_run sample d (d.send - p) (n - (d.send - p) + 1) { cur with idx := BitVec.ofNat 18 p } hz (fun i hi => by
      simp only [hpn, hl, if_true]; omega)
    rw [show d.send - p + (n - (d.send - p) + 1) = n + 1 by omega] at hrun
    dsimp only at hrun
    rw [hpn, show p + (d.send - p) = d.send by omega, stop (n - (d.send - p)) d.send le_rfl
      (by rw [BitVec.toNat_ofNat]; omega) (fun h' => by omega)] at hrun
    rw [hrun, Nat.max_eq_right (by omega)]
    simp

/-- Position `i` of a walk that starts at `p` and goes round and round the loop (R128); a loop of no words repeats its start. -/
def loopPos (d : Desc) (p i : Nat) : Nat :=
  if p + i < d.lend then p + i else d.lbeg + (p + i - d.lend) % max 1 (2 * d.looplen.toNat)

theorem Desc.lend_eq (d : Desc) : d.lend = d.lbeg + 2 * d.looplen.toNat := by simp [Desc.lend, Desc.lbeg]; omega

theorem loopPos_lt {d : Desc} (hin : d.lend ≤ d.send) (hb : d.lbeg < d.send) (p i : Nat) : loopPos d p i < d.send := by
  have e := d.lend_eq
  have := Nat.mod_lt (p + i - d.lend) (show 0 < max 1 (2 * d.looplen.toNat) by omega)
  unfold loopPos
  split <;> omega

/-- The start of a turn: before the loop end, or at the loop start after a wrap. -/
theorem loopPos_zero {d : Desc} {p : Nat} (hp : p < d.lend ∨ p = d.lbeg) : loopPos d p 0 = p := by
  have e := d.lend_eq
  unfold loopPos
  split
  · omega
  · next h =>
    have h0 : p + 0 - d.lend = 0 := by omega
    rw [h0, Nat.zero_mod]
    omega

theorem loopPos_next {d : Desc} {p : Nat} (i : Nat) (hp : p < d.lend ∨ p = d.lbeg) :
    loopPos d (if d.lend ≤ p + 1 then d.lbeg else p + 1) i = loopPos d p (i + 1) := by
  have e := d.lend_eq
  have again : ∀ j, loopPos d d.lbeg j = d.lbeg + j % max 1 (2 * d.looplen.toNat) := by
    intro j
    unfold loopPos
    split
    · rw [Nat.mod_eq_of_lt (by omega)]
    · by_cases h0 : d.looplen.toNat = 0
      · rw [h0, Nat.mul_zero, Nat.max_eq_left (Nat.zero_le 1), Nat.mod_one, Nat.mod_one]
      · rw [Nat.max_eq_right (by omega), show d.lbeg + j - d.lend = j - 2 * d.looplen.toNat by omega,
          ← Nat.mod_eq_sub_mod (by omega)]
  by_cases h : d.lend ≤ p + 1
  · rw [if_pos h, again]
    rcases Nat.lt_or_ge p d.lend with h' | h'
    · unfold loopPos
      rw [if_neg (show ¬ p + (i + 1) < d.lend by omega), show p + (i + 1) - d.lend = i by omega]
    · rw [show p = d.lbeg by omega, again, show max 1 (2 * d.looplen.toNat) = 1 by omega, Nat.mod_one, Nat.mod_one]
  · rw [if_neg h]
    unfold loopPos
    rw [show p + 1 + i = p + (i + 1) by omega]

/-- With the loop armed and inside the sample the read loop walks round the loop and never stops or zero-fills (R127, R128); the read index
ends one beyond the last sample read. -/
theorem readLoop_loop (sample : BitVec 18 → Rat) (d : Desc) (hin : d.lend ≤ d.send) (hb : d.lbeg < d.send) :
    ∀ (n : Nat) (cur : Cursor), cur.zf = false → cur.loopact = true →
    (readLoop sample d n cur).samples = (List.range n).map (fun i =>
        sample (BitVec.ofNat 18 (loopPos d (if d.lend ≤ cur.idx.toNat then d.lbeg else cur.idx.toNat) i))) ∧
    (readLoop sample d n cur).bounds = false ∧ (readLoop sample d n cur).cur.zf = false ∧
    (readLoop sample d n cur).cur.loopact = true ∧ (readLoop sample d n cur).cur.sil = cur.sil ∧
    (readLoop sample d n cur).cur.idx.toNat =
      (if n = 0 then cur.idx.toNat
       else loopPos d (if d.lend ≤ cur.idx.toNat then d.lbeg else cur.idx.toNat) (n - 1) + 1)
  | 0, cur, hz, hl => by simp [readLoop, hz, hl]
  | n + 1, cur, hz, hl => by
    have e := d.lend_eq
    have hsend := d.send_le
    have hen : (endChecks d cur).idx.toNat = (if d.lend ≤ cur.idx.toNat then d.lbeg else cur.idx.toNat) ∧
        (endChecks d cur).zf = false ∧ (endChecks d cur).loopact = true ∧ (endChecks d cur).sil = cur.sil := by
      unfold endChecks; rw [hl]; simp only [if_true]; split
      · simp [hz]
        omega
      · simp [hz, hl]
    have hst : (endChecks d cur).idx.toNat < d.lend ∨ (endChecks d cur).idx.toNat = d.lbeg := by rw [hen.1]; split <;> omega
    have hlt : (endChecks d cur).idx.toNat < d.send := by omega
    rw [readLoop_succ _ _ _ hz, if_neg (by simp [hen.2.1]), if_neg (by omega)]
    have ih := readLoop_loop sample d hin hb n { endChecks d cur with idx := (endChecks d cur).idx + 1#18 } hen.2.1 hen.2.2.1
    dsimp only at ih ⊢
    have hi := idx_succ_toNat (d := d) (i := (endChecks d cur).idx) hlt
    refine ⟨?_, ih.2.1, ih.2.2.1, ih.2.2.2.1, ih.2.2.2.2.1.trans hen.2.2.2, ?_⟩
    · rw [ih.1, hi, ← hen.1, List.range_succ_eq_map]
      simp only [List.map_cons, List.map_map, Function.comp_def]
      congr 1
      · rw [loopPos_zero hst, BitVec.ofNat_toNat, BitVec.setWidth_eq]
      · apply List.map_congr_left; intro i _
        rw [loopPos_next _ hst]
    · rw [ih.2.2.2.2.2, hi, ← hen.1, if_neg (Nat.succ_ne_zero n), Nat.add_sub_cancel]
      by_cases h0 : n = 0
      · subst h0; rw [if_pos rfl, loopPos_zero hst]
      · rw [if_neg h0, loopPos_next _ hst, show n - 1 + 1 = n by omega]

/-- Where `IDX` and `REM` stand after the carry that follows a read loop with no zero fill (R132). -/
theorem afterSynth_carry (cfg : Cfg) (ch : Channel) {r : ReadOut} (hz : r.cur.zf = false) :
    (ch.rem + (tickNeed cfg ch - (tickCount cfg ch : Rat)) < 1 →
      (afterSynth cfg ch r).idx = r.cur.idx ∧
      (afterSynth cfg ch r).rem = cfg.round (ch.rem + (tickNeed cfg ch - (tickCount cfg ch : Rat)))) ∧
    (1 ≤ ch.rem + (tickNeed cfg ch - (tickCount cfg ch : Rat)) →
      (afterSynth cfg ch r).idx.toNat = min (r.cur.idx.toNat + 1) 131072 ∧
      (afterSynth cfg ch r).rem = cfg.round (ch.rem + (tickNeed cfg ch - (tickCount cfg ch : Rat)) - 1)) := by
  refine ⟨fun h => ?_, fun h => ?_⟩
  · simp [afterSynth, hz, carry, Channel.afterReads, not_le.2 h]
  · simp [afterSynth, hz, carry, Channel.afterReads, h, idxMax]

/-! A whole `GEN`. -/

/-- An active `GEN` that the bounds check stops (R131, R183). -/
theorem exec_gen_bounds {s : State} {c : Chan} {d : Desc} (ha : Active s c d) (hn : tickCount s.cfg (s.chan c) ≤ s.cfg.rawcap)
    (hb : (readLoop (scaledSample s (s.chan c)) d (tickCount s.cfg (s.chan c)) (s.chan c).cursor).bounds = true) :
    exec (.gen c) s = .next ((s.setChan c ((s.chan c).afterReads
      (readLoop (scaledSample s (s.chan c)) d (tickCount s.cfg (s.chan c)) (s.chan c).cursor))).raise .pcmBounds) := by
  rw [exec_gen_active ha]
  rcases genActive_cases c d s with ⟨h, e⟩ | ⟨r, _, hr, ⟨h, e⟩ | ⟨ch, h, _⟩⟩
  · omega
  · rw [e, hr]
  · rw [hr, hb] at h; cases h

/-- An active `GEN` whose read loop is not stopped (R122, R182): whatever the converter, the synthesizer's part is done, and the
converter's answer decides how the command ends. -/
theorem exec_gen_synth {s : State} {c : Chan} {d : Desc} {r : ReadOut} (ha : Active s c d)
    (hn : tickCount s.cfg (s.chan c) ≤ s.cfg.rawcap)
    (hr : readLoop (scaledSample s (s.chan c)) d (tickCount s.cfg (s.chan c)) (s.chan c).cursor = r) (hb : r.bounds = false) :
    exec (.gen c) s = .next (match convProcess s.cfg.conv (s.chan c).cv (tickRatio s.cfg (s.chan c)) r.samples s.cfg.nout with
      | none => (s.setChan c (afterSynth s.cfg (s.chan c) r)).raise .convFail
      | some (cv, ys) =>
        (s.setChan c { afterSynth s.cfg (s.chan c) r with cv := cv, out := padOut s.cfg.round ys s.cfg.nout }).answer .absent) := by
  have hl := (readLoop_length (scaledSample s (s.chan c)) d (tickCount s.cfg (s.chan c)) (s.chan c).cursor).1 (by rw [hr]; exact hb)
  rw [hr] at hl
  rw [exec_gen_active ha]
  rcases genActive_cases c d s with ⟨h, e⟩ | ⟨r', _, hr', ⟨h, e⟩ | ⟨ch, _, hch, ⟨h, e⟩ | ⟨cv, ys, h, e⟩⟩⟩
  · omega
  · rw [hr', hr, hb] at h; cases h
  · rw [e]; rw [hr] at hr'; subst hr'; subst hch
    rw [afterSynth_take _ _ _ hl, afterSynth_cv] at h
    rw [h]
  · rw [e]; rw [hr] at hr'; subst hr'; subst hch
    rw [afterSynth_take _ _ _ hl, afterSynth_cv] at h
    rw [h]

/-- An active `GEN` whose read loop is not stopped (R122, R140). -/
theorem exec_gen_linear {s : State} {c : Chan} {d : Desc} (ha : Active s c d) (hc : s.cfg.conv = .linear)
    (hn : tickCount s.cfg (s.chan c) ≤ s.cfg.rawcap)
    (hb : (readLoop (scaledSample s (s.chan c)) d (tickCount s.cfg (s.chan c)) (s.chan c).cursor).bounds = false) :
    exec (.gen c) s = .next ((s.setChan c {
      afterSynth s.cfg (s.chan c) (readLoop (scaledSample s (s.chan c)) d (tickCount s.cfg (s.chan c)) (s.chan c).cursor) with
      cv := { (s.chan c).cv with ratio := tickRatio s.cfg (s.chan c) },
      out := padOut s.cfg.round (convLin (tickRatio s.cfg (s.chan c))
        (readLoop (scaledSample s (s.chan c)) d (tickCount s.cfg (s.chan c)) (s.chan c).cursor).samples s.cfg.nout)
        s.cfg.nout }).answer .absent) := by
  rw [exec_gen_synth ha hn rfl hb, hc]
  rfl

theorem append_getD {l1 l2 : List Rat} {i : Nat} (h : i < l1.length) : (l1 ++ l2).getD i 0 = l1.getD i 0 := by
  simp [List.getElem?_append, h]

/-- What a completed active `GEN` has left in its channel (R122, R132, R134). -/
theorem gen_linear_inv {s t : State} {c : Chan} {d : Desc} (ha : Active s c d) (hc : s.cfg.conv = .linear)
    (hx : exec (.gen c) s = .next t) (hft : t.fault = false) :
    ∃ r, r = readLoop (scaledSample s (s.chan c)) d (tickCount s.cfg (s.chan c)) (s.chan c).cursor ∧ r.bounds = false ∧
      tickCount s.cfg (s.chan c) ≤ s.cfg.rawcap ∧ r.samples.length = tickCount s.cfg (s.chan c) ∧
      (t.chan c).rawn = tickCount s.cfg (s.chan c) ∧
      (∀ i, i < tickCount s.cfg (s.chan c) → (t.chan c).raw.getD i 0 = r.samples.getD i 0) ∧
      (t.chan c).cv.ratio = tickRatio s.cfg (s.chan c) ∧
      (t.chan c).out = padOut s.cfg.round (convLin (tickRatio s.cfg (s.chan c)) r.samples s.cfg.nout) s.cfg.nout ∧
      (t.chan c).idx = (afterSynth s.cfg (s.chan c) r).idx ∧ (t.chan c).rem = (afterSynth s.cfg (s.chan c) r).rem := by
  have hx' := hx
  rw [exec_gen_active ha] at hx'
  rcases genActive_cases c d s with ⟨_, e⟩ | ⟨r, hn, hr', ⟨hb, e⟩ | ⟨ch, hb, hc', ⟨h, e⟩ | ⟨cv, ys, hcv, e⟩⟩⟩
  · rw [e] at hx'; cases hx'; simp at hft
  · rw [e] at hx'; cases hx'; simp at hft
  · rw [hc] at h; simp [convProcess] at h
  · have hb' := hb; rw [hr'] at hb'
    have := exec_gen_linear ha hc hn hb'
    rw [← hr'] at this
    rw [this] at hx; cases hx
    have hl := (readLoop_length (scaledSample s (s.chan c)) d (tickCount s.cfg (s.chan c)) (s.chan c).cursor).1 hb'
    rw [← hr'] at hl
    refine ⟨r, hr', hb, hn, hl, by simp, ?_, by simp, by simp, by simp, by simp⟩
    intro i hi
    simp only [answer_chan, setChan_chan_same, afterSynth_raw]
    exact append_getD (by omega)

end Sys2Proof.Machine
end

