-- ==== Sys2Proof/Laws/Memory.lean ====
section
/-! SUPPORT. The laws of PCM memory (R52, R61, R65): a read after a write, the canonical form kept by every write, and equal contents are
equal data. -/

namespace Sys2Proof.Machine

variable {dflt : Nat → Byte}

theorem Memory.wfFrom_cons {lo x : Nat} {v : Byte} {m : List Host.Cell} :
    Memory.wfFrom dflt lo ((x, v) :: m) = true ↔ lo ≤ x ∧ x < 2 ^ 22 ∧ v ≠ dflt x ∧ Memory.wfFrom dflt (x + 1) m = true := by
  simp [Memory.wfFrom, and_assoc]

theorem Memory.wfFrom_mono {lo lo' : Nat} (h : lo' ≤ lo) : ∀ {m : List Host.Cell}, Memory.wfFrom dflt lo m = true →
    Memory.wfFrom dflt lo' m = true
  | [], _ => rfl
  | (x, v) :: m, hm => by
    rw [Memory.wfFrom_cons] at hm ⊢
    exact ⟨h.trans hm.1, hm.2⟩

/-- Below its first cell a canonical memory holds the initial bytes. -/
theorem Memory.read_below : ∀ {m : List Host.Cell} {lo a : Nat}, Memory.wfFrom dflt lo m = true → a < lo →
    Memory.read dflt m a = dflt a
  | [], _, _, _, _ => rfl
  | (x, v) :: m, lo, a, hm, ha => by
    rw [Memory.wfFrom_cons] at hm
    have hx : x ≠ a := by omega
    rw [Memory.read, if_neg hx]
    exact Memory.read_below hm.2.2.2 (by omega)

theorem Memory.read_put_other {a x : Nat} {b : Byte} {m : List Host.Cell} (h : x ≠ a) :
    Memory.read dflt (Memory.put dflt a b m) x = Memory.read dflt m x := by
  unfold Memory.put
  split
  · rfl
  · rw [Memory.read, if_neg (Ne.symm h)]

theorem Memory.read_put_same {a lo : Nat} {b : Byte} {m : List Host.Cell} (hm : Memory.wfFrom dflt lo m = true) (h : a < lo) :
    Memory.read dflt (Memory.put dflt a b m) a = b := by
  unfold Memory.put
  split
  · next e => rw [Memory.read_below hm h, e]
  · rw [Memory.read, if_pos rfl]

theorem Memory.wfFrom_put {a lo lo' : Nat} {b : Byte} {m : List Host.Cell} (hm : Memory.wfFrom dflt lo m = true) (hlo : lo' ≤ a)
    (h : a < lo) (ha : a < 2 ^ 22) : Memory.wfFrom dflt lo' (Memory.put dflt a b m) = true := by
  unfold Memory.put
  split
  · exact Memory.wfFrom_mono (by omega) hm
  · next e => exact Memory.wfFrom_cons.2 ⟨hlo, ha, e, Memory.wfFrom_mono (by omega) hm⟩

/-- A write leaves every other address alone. -/
theorem Memory.read_write_other {a x : Nat} {b : Byte} (h : x ≠ a) : ∀ (m : List Host.Cell),
    Memory.read dflt (Memory.write dflt m a b) x = Memory.read dflt m x
  | [] => Memory.read_put_other h
  | (y, v) :: m => by
    rw [Memory.write]
    split
    · exact Memory.read_put_other h
    · split
      · next e =>
        rw [Memory.read_put_other h, Memory.read, if_neg (by omega)]
      · rw [Memory.read, Memory.read, Memory.read_write_other h m]

/-- A read after a write to the same address gives the byte written. -/
theorem Memory.read_write_same {a : Nat} {b : Byte} : ∀ {m : List Host.Cell} {lo : Nat}, Memory.wfFrom dflt lo m = true →
    Memory.read dflt (Memory.write dflt m a b) a = b
  | [], lo, _ => Memory.read_put_same (m := []) (lo := a + 1) rfl (by omega)
  | (y, v) :: m, lo, hm => by
    have hm' := Memory.wfFrom_cons.1 hm
    rw [Memory.write]
    split
    · next e => exact Memory.read_put_same (lo := y) (Memory.wfFrom_cons.2 ⟨le_refl _, hm'.2⟩) e
    · split
      · next e => exact Memory.read_put_same hm'.2.2.2 (by omega)
      · next e => rw [Memory.read, if_neg (Ne.symm e)]; exact Memory.read_write_same hm'.2.2.2

/-- A write keeps the canonical form. -/
theorem Memory.wfFrom_write {a : Nat} {b : Byte} (ha : a < 2 ^ 22) : ∀ {m : List Host.Cell} {lo : Nat}, lo ≤ a →
    Memory.wfFrom dflt lo m = true → Memory.wfFrom dflt lo (Memory.write dflt m a b) = true
  | [], lo, hlo, _ => Memory.wfFrom_put (m := []) (lo := a + 1) rfl hlo (by omega) ha
  | (y, v) :: m, lo, hlo, hm => by
    have hm' := Memory.wfFrom_cons.1 hm
    rw [Memory.write]
    split
    · next e => exact Memory.wfFrom_put (lo := y) (Memory.wfFrom_cons.2 ⟨le_refl _, hm'.2⟩) hlo e ha
    · split
      · next e => exact Memory.wfFrom_put hm'.2.2.2 hlo (by omega) ha
      · next e => exact Memory.wfFrom_cons.2 ⟨hm'.1, hm'.2.1, hm'.2.2.1, Memory.wfFrom_write ha (by omega) hm'.2.2.2⟩

theorem Memory.wf_write {a : Nat} {b : Byte} {m : List Host.Cell} (ha : a < 2 ^ 22) (hm : Memory.wf dflt m = true) :
    Memory.wf dflt (Memory.write dflt m a b) = true :=
  Memory.wfFrom_write ha (Nat.zero_le a) hm

theorem Memory.wf_nil : Memory.wf dflt [] = true := rfl

/-- Canonical memories with the same contents are the same list. -/
theorem Memory.ext_of_read : ∀ {m m' : List Host.Cell} {lo lo' : Nat}, Memory.wfFrom dflt lo m = true →
    Memory.wfFrom dflt lo' m' = true → (∀ a, Memory.read dflt m a = Memory.read dflt m' a) → m = m'
  | [], [], _, _, _, _, _ => rfl
  | [], (x, v) :: m', _, _, _, hm', h => by
    have := h x
    rw [Memory.read, Memory.read, if_pos rfl] at this
    exact absurd this.symm (Memory.wfFrom_cons.1 hm').2.2.1
  | (x, v) :: m, [], _, _, hm, _, h => by
    have := h x
    rw [Memory.read, Memory.read, if_pos rfl] at this
    exact absurd this (Memory.wfFrom_cons.1 hm).2.2.1
  | (x, v) :: m, (y, u) :: m', _, _, hm, hm', h => by
    have k := Memory.wfFrom_cons.1 hm
    have k' := Memory.wfFrom_cons.1 hm'
    have hxy : x = y := by
      by_contra hne
      rcases Nat.lt_or_gt_of_ne hne with hlt | hgt
      · have hx := h x
        rw [Memory.read, if_pos rfl, Memory.read, if_neg (Ne.symm hne), Memory.read_below k'.2.2.2 (by omega)] at hx
        exact k.2.2.1 hx
      · have hy := h y
        rw [Memory.read, if_neg hne, Memory.read, if_pos rfl, Memory.read_below k.2.2.2 (by omega)] at hy
        exact k'.2.2.1 hy.symm
    subst hxy
    have hv : v = u := by
      have hx := h x
      rwa [Memory.read, if_pos rfl, Memory.read, if_pos rfl] at hx
    subst hv
    have ht : m = m' := Memory.ext_of_read k.2.2.2 k'.2.2.2 fun a => by
      by_cases ha : x = a
      · subst ha
        rw [Memory.read_below k.2.2.2 (by omega), Memory.read_below k'.2.2.2 (by omega)]
      · have := h a
        rwa [Memory.read, if_neg ha, Memory.read, if_neg ha] at this
    rw [ht]

/-! The same laws for the state's PCM. -/

theorem pcmByte_setPcmByte_same (s : State) (a : BitVec 22) (b : Byte) (h : Memory.wf s.cfg.initialByte s.pcm = true) :
    (s.setPcmByte a b).pcmByte a = b :=
  Memory.read_write_same h

theorem pcmByte_setPcmByte_other (s : State) {a x : BitVec 22} (b : Byte) (h : x ≠ a) :
    (s.setPcmByte a b).pcmByte x = s.pcmByte x :=
  Memory.read_write_other (fun e => h (BitVec.eq_of_toNat_eq e)) s.pcm

theorem wf_setPcmByte (s : State) (a : BitVec 22) (b : Byte) (h : Memory.wf s.cfg.initialByte s.pcm = true) :
    Memory.wf (s.setPcmByte a b).cfg.initialByte (s.setPcmByte a b).pcm = true :=
  Memory.wf_write a.isLt h

/-- The address of a sample as a number (R51). -/
theorem pcmAddr_toNat (k : Slot) (i : BitVec 18) : (pcmAddr k i).toNat = k.toNat * 131072 + i.toNat % 131072 := by
  have h : (i.extractLsb' 0 17).toNat = i.toNat % 131072 := by simp [BitVec.extractLsb'_toNat]
  have := BitVec.toNat_append k (i.extractLsb' 0 17)
  rw [Nat.shiftLeft_eq, ← Nat.shiftLeft_eq, ← Nat.shiftLeft_add_eq_or_of_lt (i.extractLsb' 0 17).isLt, Nat.shiftLeft_eq, h] at this
  exact this

end Sys2Proof.Machine
end

