-- ==== Sys2Proof/Laws/PerInstr.lean ====
section
/-! SUPPORT. One fact per command: the number its word is, from the columns of the opcode table of rule R78 (operation code, channel,
operand fields). -/

namespace Sys2Proof.Laws

/-- The word of a command as a number: `op * 2^27`, the channel at bit 25, the operands at their places (R70 to R76, R78). -/
def EncodingNumber.value : Instr → Nat
  | .nop => 0
  | .pcmptr a => 0x08000000 + a.toNat
  | .pcmwr b => 0x10000000 + b.toNat
  | .slen s v => 0x18000000 + s.toNat * 65536 + v.toNat
  | .slps s v => 0x20000000 + s.toNat * 65536 + v.toNat
  | .slpl s v => 0x28000000 + s.toNat * 65536 + v.toNat
  | .csmp c s => 0x40000000 + c.val * 33554432 + s.toNat
  | .cper c p => 0x48000000 + c.val * 33554432 + p.toNat
  | .cft c f => 0x50000000 + c.val * 33554432 + f.toNat
  | .cvol c k => 0x58000000 + c.val * 33554432 + k.toNat
  | .cidx c i => 0x60000000 + c.val * 33554432 + i.toNat
  | .csil c x => 0x68000000 + c.val * 33554432 + x.toNat
  | .cloop c x => 0x70000000 + c.val * 33554432 + x.toNat
  | .gen c => 0x80000000 + c.val * 33554432
  | .mix c => 0x88000000 + c.val * 33554432
  | .swap => 0x90000000
  | .stat => 0xC0000000
  | .chrd c sel => 0xC8000000 + c.val * 33554432 + sel.toNat
  | .frd side j => 0xD0000000 + (match side with | .left => 0 | .right => 65536) + j.toNat

/-- The encoder gives that number. -/
def EncodingNumber.Statement (i : Instr) : Prop := (encode i).toNat = EncodingNumber.value i

theorem EncodingNumber.nop : EncodingNumber.Statement .nop := rfl

theorem EncodingNumber.pcmptr (a : BitVec 22) : EncodingNumber.Statement (.pcmptr a) :=
  (append3_toNat _ _ _).trans (by simp [EncodingNumber.value])

theorem EncodingNumber.pcmwr (b : Byte) : EncodingNumber.Statement (.pcmwr b) :=
  (append3_toNat _ _ _).trans (by simp [EncodingNumber.value])

theorem EncodingNumber.slen (s : Slot) (v : BitVec 16) : EncodingNumber.Statement (.slen s v) :=
  (append4_toNat _ _ _ _).trans (by simp [EncodingNumber.value]; omega)

theorem EncodingNumber.slps (s : Slot) (v : BitVec 16) : EncodingNumber.Statement (.slps s v) :=
  (append4_toNat _ _ _ _).trans (by simp [EncodingNumber.value]; omega)

theorem EncodingNumber.slpl (s : Slot) (v : BitVec 16) : EncodingNumber.Statement (.slpl s v) :=
  (append4_toNat _ _ _ _).trans (by simp [EncodingNumber.value]; omega)

theorem EncodingNumber.csmp (c : Chan) (s : Slot) : EncodingNumber.Statement (.csmp c s) :=
  (append4_toNat _ _ _ _).trans (by simp [EncodingNumber.value]; omega)

theorem EncodingNumber.cper (c : Chan) (p : BitVec 12) : EncodingNumber.Statement (.cper c p) :=
  (append4_toNat _ _ _ _).trans (by simp [EncodingNumber.value]; omega)

theorem EncodingNumber.cft (c : Chan) (f : BitVec 4) : EncodingNumber.Statement (.cft c f) :=
  (append4_toNat _ _ _ _).trans (by simp [EncodingNumber.value]; omega)

theorem EncodingNumber.cvol (c : Chan) (k : BitVec 7) : EncodingNumber.Statement (.cvol c k) :=
  (append4_toNat _ _ _ _).trans (by simp [EncodingNumber.value]; omega)

theorem EncodingNumber.cidx (c : Chan) (i : BitVec 17) : EncodingNumber.Statement (.cidx c i) :=
  (append4_toNat _ _ _ _).trans (by simp [EncodingNumber.value]; omega)

theorem EncodingNumber.csil (c : Chan) (x : Bool) : EncodingNumber.Statement (.csil c x) :=
  (append4_toNat _ _ _ _).trans (by simp [EncodingNumber.value]; omega)

theorem EncodingNumber.cloop (c : Chan) (x : Bool) : EncodingNumber.Statement (.cloop c x) :=
  (append4_toNat _ _ _ _).trans (by simp [EncodingNumber.value]; omega)

theorem EncodingNumber.gen (c : Chan) : EncodingNumber.Statement (.gen c) :=
  (append3_toNat _ _ _).trans (by simp [EncodingNumber.value]; omega)

theorem EncodingNumber.mix (c : Chan) : EncodingNumber.Statement (.mix c) :=
  (append3_toNat _ _ _).trans (by simp [EncodingNumber.value]; omega)

theorem EncodingNumber.swap : EncodingNumber.Statement .swap := rfl

theorem EncodingNumber.stat : EncodingNumber.Statement .stat := rfl

theorem EncodingNumber.chrd (c : Chan) (sel : BitVec 3) : EncodingNumber.Statement (.chrd c sel) :=
  (append4_toNat _ _ _ _).trans (by simp [EncodingNumber.value]; omega)

theorem EncodingNumber.frd (side : Side) (j : BitVec 16) : EncodingNumber.Statement (.frd side j) :=
  (append4_toNat _ _ _ _).trans (by cases side <;> simp [EncodingNumber.value])

end Sys2Proof.Laws
end

