-- ==== Sys2Proof/Laws/Run.lean ====
section
/-! SUPPORT. Runs of commands (R14): one command of a run is `after`, and a run unrolls command by command. -/

namespace Sys2Proof.Machine

/-- Performing a command word that decodes is executing the command. -/
theorem perform_command {w : Word} {i : Instr} (h : decode w = some i) (s : State) : perform s (.command w) = after i s := by
  unfold perform
  rw [step_command (s := { s with inputs := .command w :: s.inputs }) rfl h]
  rw [exec_after]

theorem runInputs_nil (s : State) : runInputs (commandsOf []) s = ([], s) := rfl

/-- A run of commands, one command unrolled. -/
theorem runInputs_cons {i : Instr} (h : decode (encode i) = some i) (is : List Instr) (s : State) :
    runInputs (commandsOf (i :: is)) s =
      ((after i s).response.toList ++ (runInputs (commandsOf is) (after i s)).1, (runInputs (commandsOf is) (after i s)).2) := by
  show runInputs (.command (encode i) :: commandsOf is) s = _
  rw [runInputs, perform_command h]
  rfl

end Sys2Proof.Machine
end

