-- ==== Sys2Proof/Laws/Shape.lean ====
section
/-! SUPPORT. One inversion lemma for `exec` on a running block: what every command can do, as one inductive relation. A halted block refuses
every command but `STAT` (`exec_halted`, `exec_stat`). -/

namespace Sys2Proof.Machine

/-- Everything a command can do to a running block, one constructor per shape: prove an invariant or a frame by `cases` on `exec_shape`
(R60). `outOfRange` is an operand outside its range (R81); `gen` and `genHalts` are the two endings of `GEN`. -/
inductive ExecShape (s : State) : Instr → State → Prop
  | nop : ExecShape s .nop (s.answer .absent)
  | stat : ExecShape s .stat (s.answer (.word s.statusWord))
  | swap : ExecShape s .swap ({ s with g := !s.g, swL := false, swR := false }.answer .absent)
  | mix (c) : ExecShape s (.mix c) (((s.setGenBuf (mixedBuf c s)).markSide (sideOf c)).answer .absent)
  | pcmptr (a) : ExecShape s (.pcmptr a) ({ s with pcmptr := a }.answer .absent)
  | pcmwr (b) : ExecShape s (.pcmwr b) ({ s.setPcmByte s.pcmptr b with pcmptr := s.pcmptr + 1#22 }.answer .absent)
  | descWrite (i k ds d) (wf : i.wellFormed s.cfg.nout = true) (slot : k ≠ 0#5)
      (which : ∃ v, i = .slen k v ∨ i = .slps k v ∨ i = .slpl k v) (old : s.desc? k = some d)
      (others : ∀ l, l ≠ k → ({ s with descs := ds } : State).desc? l = s.desc? l) :
      ExecShape s i ({ s with descs := ds }.answer .absent)
  | channelWrite (i c ch)
      (which : (∃ x, i = .csmp c x) ∨ (∃ x, i = .cper c x) ∨ (∃ x, i = .cft c x) ∨ (∃ x, i = .cvol c x) ∨
        (∃ x, i = .cidx c x) ∨ (∃ x, i = .csil c x) ∨ (∃ x, i = .cloop c x))
      (out : ch.out = (s.chan c).out) (cv : ch.cv = (s.chan c).cv) (raw : ch.raw = (s.chan c).raw)
      (rawn : ch.rawn = (s.chan c).rawn) (vol : (s.chan c).vol.toNat ≤ 64 → ch.vol.toNat ≤ 64)
      (idx : (s.chan c).idx.toNat ≤ idxMax → ch.idx.toNat ≤ idxMax) (rem0 : 0 ≤ (s.chan c).rem → 0 ≤ ch.rem)
      (rem1 : (s.chan c).rem < 1 → ch.rem < 1) : ExecShape s i ((s.setChan c ch).answer .absent)
  | outOfRange (i) (wf : i.wellFormed s.cfg.nout = false) : ExecShape s i (s.raise .operandRange)
  | chrd (c sel w) (range : sel.toNat < 6) (value : channelWord (s.chan c) sel = some w) :
      ExecShape s (.chrd c sel) (s.answer (.word w))
  | frd (d j) (range : j.toNat < s.cfg.nout) :
      ExecShape s (.frd d j) (s.answer (.sample ((frameAt s.frontBuf j.toNat).get d)))
  | gen (c ch) (sil : (s.chan c).sil = true → ch.sil = true) (loopact : (s.chan c).loopact = true → ch.loopact = true)
      (length : ch.out.length = s.cfg.nout)
      (frame : ch = { s.chan c with raw := ch.raw, rawn := ch.rawn, idx := ch.idx, rem := ch.rem, loopact := ch.loopact,
                                    sil := ch.sil, out := ch.out, cv := ch.cv }) :
      ExecShape s (.gen c) ((s.setChan c ch).answer .absent)
  | genHalts (c ch f) (sil : (s.chan c).sil = true → ch.sil = true) (loopact : (s.chan c).loopact = true → ch.loopact = true)
      (cause : f = .rateRange ∨ f = .pcmBounds ∨ f = .convFail)
      (frame : ch = { s.chan c with raw := ch.raw, rawn := ch.rawn, idx := ch.idx, rem := ch.rem, loopact := ch.loopact,
                                    sil := ch.sil }) :
      ExecShape s (.gen c) ((s.setChan c ch).raise f)

/-- The inversion lemma of `exec` on a running block. -/
theorem exec_shape {s : State} (hf : s.fault = false) (i : Instr) : ExecShape s i (after i s) := by
  cases i with
  | gen c =>
    obtain ⟨ch, h1, h2, ⟨h, h3, h4⟩ | ⟨f, h, h3, h4⟩⟩ := exec_gen_cases hf c
    · rw [after_eq h]; exact .gen c ch h1 h2 h3 h4
    · rw [after_eq h]; exact .genHalts c ch f h1 h2 h3 h4
  | slen k v =>
    by_cases hk : k = 0#5
    · subst hk
      rw [after_eq (exec_slen_zero hf v)]; exact .outOfRange _ rfl
    · obtain ⟨t', d, h, hd, -, h3, h2⟩ := exec_slen hf hk v
      rw [after_eq h, h2]
      refine .descWrite _ k _ d (by simp [Instr.wellFormed, hk]) hk ⟨v, by simp⟩ hd ?_
      rw [h2] at h3
      exact h3
  | slps k v =>
    by_cases hk : k = 0#5
    · subst hk
      rw [after_eq (exec_slps_zero hf v)]; exact .outOfRange _ rfl
    · obtain ⟨t', d, h, hd, -, h3, h2⟩ := exec_slps hf hk v
      rw [after_eq h, h2]
      refine .descWrite _ k _ d (by simp [Instr.wellFormed, hk]) hk ⟨v, by simp⟩ hd ?_
      rw [h2] at h3
      exact h3
  | slpl k v =>
    by_cases hk : k = 0#5
    · subst hk
      rw [after_eq (exec_slpl_zero hf v)]; exact .outOfRange _ rfl
    · obtain ⟨t', d, h, hd, -, h3, h2⟩ := exec_slpl hf hk v
      rw [after_eq h, h2]
      refine .descWrite _ k _ d (by simp [Instr.wellFormed, hk]) hk ⟨v, by simp⟩ hd ?_
      rw [h2] at h3
      exact h3
  | chrd c sel =>
    by_cases h : sel.toNat < 6
    · obtain ⟨w, hw⟩ := channelWord_some (s.chan c) h
      rw [after_eq (exec_chrd hf hw)]; exact .chrd c sel w h hw
    · rw [after_eq (exec_chrd_range hf (channelWord_none _ (by omega)))]; exact .outOfRange _ (by simp [Instr.wellFormed, h])
  | frd d j =>
    by_cases h : j.toNat < s.cfg.nout
    · rw [after_eq (exec_frd hf d h)]; exact .frd d j h
    · rw [after_eq (exec_frd_range hf d (by omega))]; exact .outOfRange _ (by simp [Instr.wellFormed, h])
  | nop => rw [after_eq (exec_nop hf)]; exact .nop
  | pcmptr a => rw [after_eq (exec_pcmptr hf a)]; exact .pcmptr a
  | pcmwr a => rw [after_eq (exec_pcmwr hf a)]; exact .pcmwr a
  | mix a => rw [after_eq (exec_mix hf a)]; exact .mix a
  | swap => rw [after_eq (exec_swap hf)]; exact .swap
  | stat => rw [after_eq (exec_stat s)]; exact .stat
  | csmp c x =>
    rw [after_eq (exec_csmp hf c x)]
    exact .channelWrite _ c _ (by simp) rfl rfl rfl rfl id id id id
  | cper c x =>
    rw [after_eq (exec_cper hf c x)]
    exact .channelWrite _ c _ (by simp) rfl rfl rfl rfl id id id id
  | cft c x =>
    rw [after_eq (exec_cft hf c x)]
    exact .channelWrite _ c _ (by simp) rfl rfl rfl rfl id id id id
  | cvol c x =>
    rw [after_eq (exec_cvol hf c x)]
    exact .channelWrite _ c _ (by simp) rfl rfl rfl rfl (by simp [clampVol_toNat]) id id id
  | cidx c x =>
    rw [after_eq (exec_cidx hf c x)]
    exact .channelWrite _ c _ (by simp) rfl rfl rfl rfl id
      (fun _ => by have := x.isLt; rw [idxOperand_toNat, idxMax]; omega) (fun _ => le_refl _) (fun _ => zero_lt_one)
  | csil c x =>
    rw [after_eq (exec_csil hf c x)]
    exact .channelWrite _ c _ (by simp) rfl rfl rfl rfl id id id id
  | cloop c x =>
    rw [after_eq (exec_cloop hf c x)]
    exact .channelWrite _ c _ (by simp) rfl rfl rfl rfl id id id id

end Sys2Proof.Machine
end

