-- ==== Sys2Proof/Tests/Slice0.lean ====
section
/-! SUPPORT. Tests. Every expected value comes from `spec/`: the formats and examples of R71 to R78 and R85 (words written out field by field),
the vectors V-* and programs of `95_test_vectors.md`, the examples in the rules. The second part gives each statement with hypotheses
a concrete witness that meets them together, at the boundaries of its clauses. Rationals are evaluated by the kernel
(`decide +kernel`), which adds no axiom. -/

namespace Sys2Proof.Tests

-- One thread: each evaluation waits for the kernel's check of the ones before it, and waiting threads hold their stacks.
set_option Elab.async false

open Sys2Proof Sys2Proof.Machine

/-! Well-formedness (R81): one ill-formed term for each check, and the boundary beside it. -/

theorem test_wf_slen_slot0 : Instr.wellFormed 8 (.slen 0#5 4#16) = false ∧ Instr.wellFormed 8 (.slen 1#5 4#16) = true := by decide
theorem test_wf_slps_slot0 : Instr.wellFormed 8 (.slps 0#5 0#16) = false ∧ Instr.wellFormed 8 (.slps 31#5 0#16) = true := by decide
theorem test_wf_slpl_slot0 : Instr.wellFormed 8 (.slpl 0#5 1#16) = false ∧ Instr.wellFormed 8 (.slpl 2#5 1#16) = true := by decide
theorem test_wf_chrd_sel6 : Instr.wellFormed 8 (.chrd 2 6#3) = false ∧ Instr.wellFormed 8 (.chrd 2 5#3) = true := by decide
theorem test_wf_chrd_sel7 : Instr.wellFormed 8 (.chrd 0 7#3) = false := by decide
theorem test_wf_frd_frame : Instr.wellFormed 8 (.frd .left 8#16) = false ∧ Instr.wellFormed 8 (.frd .left 7#16) = true := by decide

/-! Decoding: one word for every command, fields written out from R71 to R78: the operation code, then the channel or the zeros, then the
operands. -/

theorem test_decode_nop : decode 0b00000_000000000000000000000000000#32 = some .nop := by decide
theorem test_decode_pcmptr : decode 0b00001_00000_0000100000000000000000#32 = some (.pcmptr 0x20000#22) := by decide
theorem test_decode_pcmwr : decode 0b00010_0000000000000000000_11000000#32 = some (.pcmwr 0xC0#8) := by decide
theorem test_decode_slen : decode 0b00011_000000_00001_0000000000000100#32 = some (.slen 1#5 4#16) := by decide
theorem test_decode_slps : decode 0b00100_000000_00010_0000000000000001#32 = some (.slps 2#5 1#16) := by decide
theorem test_decode_slpl : decode 0b00101_000000_00010_0000000000000010#32 = some (.slpl 2#5 2#16) := by decide
theorem test_decode_csmp : decode 0b01000_11_00000000000000000000_11111#32 = some (.csmp 3 31#5) := by decide
theorem test_decode_cper : decode 0b01001_11_0000000000000_000110101100#32 = some (.cper 3 428#12) := by decide
theorem test_decode_cft : decode 0b01010_01_000000000000000000000_1111#32 = some (.cft 1 15#4) := by decide
theorem test_decode_cvol : decode 0b01011_10_000000000000000000_1000000#32 = some (.cvol 2 64#7) := by decide
theorem test_decode_cidx : decode 0b01100_00_00000000_00000000100000000#32 = some (.cidx 0 256#17) := by decide
theorem test_decode_csil : decode 0b01101_01_000000000000000000000000_1#32 = some (.csil 1 true) := by decide
theorem test_decode_cloop : decode 0b01110_00_000000000000000000000000_0#32 = some (.cloop 0 false) := by decide
theorem test_decode_gen : decode 0b10000_10_0000000000000000000000000#32 = some (.gen 2) := by decide
theorem test_decode_mix : decode 0b10001_11_0000000000000000000000000#32 = some (.mix 3) := by decide
theorem test_decode_swap : decode 0b10010_000000000000000000000000000#32 = some .swap := by decide
theorem test_decode_stat : decode 0b11000_000000000000000000000000000#32 = some .stat := by decide
theorem test_decode_chrd : decode 0b11001_01_0000000000000000000000_100#32 = some (.chrd 1 4#3) := by decide
theorem test_decode_frd : decode 0b11010_0000000000_1_0000000000000111#32 = some (.frd .right 7#16) := by decide

/-- V-E3: the illegal words of the vector. -/
theorem test_decode_illegal_words :
    ([0x30000000#32, 0x38000000#32, 0x78000000#32, 0x98000000#32, 0xD8000000#32, 0xF8000000#32, 0xFFFFFFFF#32, 0x01000000#32,
      0x02000000#32, 0x90000001#32, 0xC1000000#32, 0x18200000#32].map decode = List.replicate 12 none) ∧
    ([0x08400000#32, 0x10000100#32, 0x40000020#32, 0x48001000#32, 0x50000010#32, 0x58000080#32, 0x60020000#32, 0x68000002#32,
      0x80000001#32, 0xC8000008#32, 0xD0020000#32].map decode = List.replicate 11 none) := by decide +kernel

/-- V-E5: the limits of the legal operands. -/
theorem test_decode_limits :
    decode 0x083FFFFF#32 = some (.pcmptr 0x3FFFFF#22) ∧ decode 0x181FFFFF#32 = some (.slen 31#5 65535#16) ∧
    decode 0x4E000FFF#32 = some (.cper 3 4095#12) ∧ decode 0x6001FFFF#32 = some (.cidx 0 131071#17) ∧
    decode 0xCE000005#32 = some (.chrd 3 5#3) := by decide

/-- R85: text to word and back. -/
theorem test_asm_cft : assemble "CFT 1, -1" = some (.cft 1 15#4) ∧ asmText (.cft 1 15#4) = "CFT 1, -1" := by decide +kernel

/-! Small states in `CFG_SMALL` (R6). -/

/-- The state after reset in `CFG_SMALL`. -/
def bare : State := resetTo Config.small []

/-- V-G1 before its `GEN 0`: the slot of R122's example, channel 0 at period 300. -/
def playing : State :=
  let s := bare.setChan 0 { bare.chan 0 with smp := 1#5, vol := 64#7, period := 300#12 }
  { s with
    descs := s.descs.set 0 { length := 4#16, loopstart := 0#16, looplen := 0#16 }
    pcm := [(131072, 64#8), (131073, 192#8), (131074, 32#8), (131075, 224#8), (131076, 16#8), (131077, 240#8), (131078, 8#8),
            (131079, 128#8)] }

/-- `playing` at another period and read index. -/
def playingAt (period : BitVec 12) (idx : BitVec 18) : State :=
  playing.setChan 0 { playing.chan 0 with period := period, idx := idx }

/-- `playing` with another descriptor of slot 1, the loop flag as given. -/
def looping (d : Desc) (loopact : Bool) (idx : BitVec 18) : State :=
  let s := playing.setChan 0 { playing.chan 0 with loopact := loopact, idx := idx }
  { s with descs := s.descs.set 0 d }

/-- A block halted by an illegal word. -/
def halted : State := bare.raise .illegalCommand

/-! Effects, one step each. -/

/-- V-C1: the byte 0xC0 at the pointer, the pointer one on. -/
theorem test_pcmwr : (after (.pcmwr 0xC0#8) { bare with pcmptr := 0x20001#22 }).pcm = [(0x20001, 0xC0#8)] ∧
    (after (.pcmwr 0xC0#8) { bare with pcmptr := 0x20001#22 }).pcmptr = 0x20002#22 := by decide +kernel
/-- V-C2: the pointer wraps. -/
theorem test_pcmwr_wrap : (after (.pcmwr 1#8) { bare with pcmptr := 0x3FFFFF#22 }).pcmptr = 0#22 := by decide +kernel
/-- R101's example. -/
theorem test_pcmptr : (after (.pcmptr 0x20000#22) bare).pcmptr = 0x20000#22 := by decide +kernel
/-- V-C3. -/
theorem test_slen : ((after (.slen 5#5 65535#16) bare).desc? 5#5).map Desc.send = some 131070 := by decide +kernel
/-- R104's example. -/
theorem test_slps : ((after (.slps 2#5 1#16) bare).desc? 2#5).map Desc.lbeg = some 2 := by decide +kernel
/-- R105: two words are a loop, one word is none. -/
theorem test_slpl : ((after (.slpl 2#5 2#16) bare).desc? 2#5).map Desc.hasLoop = some true ∧
    ((after (.slpl 2#5 1#16) bare).desc? 2#5).map Desc.hasLoop = some false := by decide +kernel
/-- V-C8: only the slot changes. -/
theorem test_csmp : (after (.csmp 0 1#5) (playingAt 300#12 8#18)).chan 0 = (playingAt 300#12 8#18).chan 0 := by decide +kernel
/-- R107's example. -/
theorem test_cper : ((after (.cper 3 428#12) bare).chan 3).period = 428#12 := by decide +kernel
/-- V-C5: operand 8 is -8. -/
theorem test_cft : (after (.chrd 0 2#3) (after (.cft 0 8#4) bare)).response = some { status := .ok, data := .word 0xFFFFFFF8#32 } := by
  decide +kernel
/-- V-C4. -/
theorem test_cvol : ((after (.cvol 0 100#7) bare).chan 0).vol = 64#7 ∧ ((after (.cvol 0 63#7) bare).chan 0).vol = 63#7 := by
  decide +kernel
/-- V-C6: the remainder is cleared. -/
theorem test_cidx : ((after (.cidx 0 3#17) (bare.setChan 0 { bare.chan 0 with rem := 1 / 2 })).chan 0).rem = 0 := by decide +kernel
/-- V-C7. -/
theorem test_csil_cloop : (after (.chrd 1 5#3) (after (.cloop 1 true) bare)).response = some { status := .ok, data := .word 2#32 } ∧
    (after (.chrd 1 5#3) (after (.csil 1 true) bare)).response = some { status := .ok, data := .word 1#32 } := by decide +kernel
/-- V-G1. -/
theorem test_gen : ((after (.gen 0) playing).chan 0).out = [1 / 4, -1 / 4, 1 / 8, -1 / 8, 1 / 16, -1 / 16, 1 / 32, -1 / 2] ∧
    ((after (.gen 0) playing).chan 0).idx = 8#18 := by decide +kernel
/-- V-G2, second `GEN`: the sample end met at the first read. -/
theorem test_gen_end : ((after (.gen 0) (playingAt 300#12 8#18)).chan 0).sil = true ∧
    ((after (.gen 0) (playingAt 300#12 8#18)).chan 0).idx = 8#18 := by decide +kernel
/-- V-M11, `MIX 3` after `MIX 0`. -/
theorem test_mix : ((after (.mix 3) { bare.setChan 3 { bare.chan 3 with out := List.replicate 8 (1 / 2) } with
      swL := true, buf0 := [1 / 4, -1 / 4, 1 / 8, -1 / 8, 1 / 16, -1 / 16, 1 / 32, -1 / 2].map (Frame.mk · 0) }).buf0.map Frame.left) =
    [0, 1 / 4, 5 / 8, 3 / 8, 9 / 16, 7 / 16, 17 / 32, 0] := by decide +kernel
/-- V-M13. -/
theorem test_mix_side : (after (.mix 1) bare).statusWord = 0x40#32 := by decide +kernel
/-- V-S1. -/
theorem test_swap : (after .swap { bare with swL := true, swR := true }).statusWord = 0x10#32 := by decide +kernel
/-- R165: a halted block answers `STAT`. -/
theorem test_stat : (after .stat halted).response = some { status := .ok, data := .word 3#32 } := by decide +kernel
/-- R166's example: `CHRD 0, 4` returns 8. -/
theorem test_chrd : (after (.chrd 0 4#3) (playingAt 300#12 8#18)).response = some { status := .ok, data := .word 8#32 } := by
  decide +kernel
/-- R167's example: the front buffer, `FRD L, 7`. -/
theorem test_frd : (after (.frd .left 7#16) { bare with g := true, buf0 := List.replicate 7 ⟨0, 0⟩ ++ [⟨-1 / 2, 0⟩] }).response =
    some { status := .ok, data := .sample (-1 / 2) } := by decide +kernel
/-- R120: 400 and 250. -/
theorem test_rate : rate Config.small 300 0 = 400 ∧ rate Config.small 480 0 = 250 := by decide +kernel
/-- V-R3: finetune 1 and -1. -/
theorem test_rate_finetune : rate Config.small 300 1 = 10072382087 / 25000000 ∧ rate Config.small 300 (-1) = 4000000000000 / 10072382087 := by
  decide +kernel
/-- R6: the values the source gives stay overridable; a tick of 1/25 s is 16 frames at 400 a second, and a threshold of 1 keeps 3/4. -/
theorem test_cfg_overridable : ({ Config.small with tickSec := 1 / 25 } : Cfg).nout = 16 ∧ Config.small.nout = 8 ∧
    mixValue { Config.small with thresh := 1 } false 0 (3 / 4) = 3 / 4 ∧ mixValue Config.small false 0 (3 / 4) = 0 ∧
    rate { Config.small with base := 2 } 300 1 = 800 := by decide +kernel
/-- The table of section 6, `R` = 3/2 and 7/4. -/
theorem test_convLin : convLin (3 / 2) [0, 1 / 2, -1 / 2, 1 / 4] 8 = [0, 1 / 3, 1 / 6, -1 / 2, 0, 1 / 4] ∧
    convLin (7 / 4) [0, 1 / 2, -1 / 2, 1 / 4] 8 = [0, 2 / 7, 5 / 14, -3 / 14, -2 / 7, 1 / 7, 1 / 4] := by decide +kernel
/-- V-E3, V-S4: an illegal word sent to the block after reset. -/
theorem test_illegal : (perform bare (.command 0x38000000#32)).statusWord = 3#32 := by decide +kernel
/-- V-F6: reset leaves the halted state. -/
theorem test_reset : perform halted .reset = bare := by decide +kernel
/-- The interface: a row's word runs as the first command. -/
theorem test_withFetchWord : decodeTableWord 32 0x58000064 = some (.cvol 0 100#7) ∧
    step (bare.withFetchWord 32 0x58000064) = exec (.cvol 0 100#7) bare := ⟨by decide, rfl⟩

/-! Witnesses: for each statement with hypotheses, states and operands that meet all of them together; where a statement has several clauses,
one for each, at the boundary. A statement about `exec i s = .next t` is met by `t = after i s` (`exec_after`). -/

/-- The clauses of a channel in range, as one decidable check. -/
theorem test_legal_channel (s : State) (c : Chan)
    (h : (s.chan c).vol.toNat ≤ 64 ∧ (s.chan c).idx.toNat ≤ idxMax ∧ 0 ≤ (s.chan c).rem ∧ (s.chan c).rem < 1 ∧
      (s.chan c).raw.length = s.cfg.rawcap ∧ (s.chan c).rawn ≤ s.cfg.rawcap ∧ (s.chan c).out.length = s.cfg.nout ∧
      0 < (s.chan c).cv.ratio) : Channel.Ok s.cfg (s.chan c) :=
  ⟨h.1, h.2.1, h.2.2.1, h.2.2.2.1, h.2.2.2.2.1, h.2.2.2.2.2.1, h.2.2.2.2.2.2.1, h.2.2.2.2.2.2.2⟩

theorem test_active (s : State) (c : Chan) (d : Desc)
    (h : s.fault = false ∧ (s.chan c).sil = false ∧ s.desc? (s.chan c).smp = some d ∧ d.length ≠ 0#16 ∧ (s.chan c).period ≠ 0#12) :
    Active s c d := ⟨h.1, h.2.1, h.2.2.1, h.2.2.2.1, h.2.2.2.2⟩

theorem test_witness_EncodeOfDecodedWord : decode 0x4E0001AC#32 = some (.cper 3 428#12) := by decide
theorem test_witness_DecodeAgreesWithOpcodeTable : decode 0x4E0001AC#32 = some (.cper 3 428#12) ∧ decode 0x183F0010#32 = none ∧
    OpRow.hit ⟨"CPER", 0x48000000#32, 0xF9FFF000#32⟩ 0x4E0001AC#32 = true := by decide
theorem test_witness_ReservedEncodingsAreIllegal :
    (0x30000000#32).toNat / 2 ^ 27 = 0x06 ∧ (0xF8000000#32).toNat / 2 ^ 27 = 0x1F ∧ (0xC1000000#32).toNat / 2 ^ 24 % 2 = 1 ∧
    (0x02000000#32).toNat / 2 ^ 27 = 0x00 ∧ (0x02000000#32).toNat / 2 ^ 25 % 4 = 1 := by decide
theorem test_witness_StepRunsDecodedCommand :
    (bare.withFetchWord 32 0x58000064).inputs = .command 0x58000064#32 :: [] ∧ decode 0x58000064#32 = some (.cvol 0 100#7) :=
  ⟨rfl, by decide⟩
theorem test_witness_IdleStepChangesNothing : bare.inputs = [] := by decide +kernel
theorem test_witness_IllegalWordRaisesIllegalCommand :
    bare.fault = false ∧ (bare.withFetchWord 32 0x38000000).inputs = .command 0x38000000#32 :: [] ∧ decode 0x38000000#32 = none :=
  ⟨by decide +kernel, rfl, by decide⟩
theorem test_witness_ResetSetsEveryRegister :
    ({ halted with inputs := [.reset] } : State).inputs = .reset :: [] ∧ halted.cfg.conv ≠ .failing ∧ (1#5 : Slot) ≠ 0#5 ∧ (31#5 : Slot) ≠ 0#5 := by
  decide +kernel
theorem test_witness_FailedConstructionHaltsAtReset :
    ({ bare with inputs := [.reset], cfg := { Config.small with conv := .failing } } : State).cfg.conv = .failing ∧
    ({ bare with inputs := [.reset] } : State).inputs = .reset :: [] ∧ bare.cfg.conv = .linear ∧
    ∃ u, step { resetTo { Config.small with conv := .failing } [] with inputs := .reset :: [] } = .next u :=
  ⟨by decide +kernel, rfl, by decide +kernel, step_next _⟩
theorem test_witness_ConfigurationIsFixed : step bare = .next bare := step_idle rfl
theorem test_witness_StepKeepsStateLegal : playing.Ok ∧ step playing = .next playing :=
  ⟨⟨by decide +kernel, fun c => test_legal_channel _ _ (by revert c; decide +kernel), by decide +kernel, by decide +kernel,
    by decide +kernel, by decide +kernel, by decide +kernel⟩, step_idle (by decide +kernel)⟩
theorem test_witness_BuffersStayBelowThreshold : BelowThreshold bare.cfg bare.buf0 ∧ BelowThreshold bare.cfg bare.buf1 ∧ step bare = .next bare := by
  have h : (∀ f ∈ bare.buf0, f.left = 0 ∧ f.right = 0) ∧ ∀ f ∈ bare.buf1, f.left = 0 ∧ f.right = 0 := by decide +kernel
  refine ⟨fun f hf side => ?_, fun f hf side => ?_, step_idle rfl⟩
  · cases side with
    | left => exact .inl (h.1 f hf).1
    | right => exact .inl (h.1 f hf).2
  · cases side with
    | left => exact .inl (h.2 f hf).1
    | right => exact .inl (h.2 f hf).2
theorem test_witness_EveryCommandIsAnswered :
    (bare.withFetchWord 32 0xC0000000).inputs = .command 0xC0000000#32 :: [] ∧ (0xC8000003#32 : Word) ≠ 0xC0000000#32 ∧
    (after .stat bare).response = some { status := .ok, data := .word 0#32 } ∧
    (after (.frd .right 7#16) bare).response = some { status := .ok, data := .sample 0 } ∧
    (after (.frd .right 8#16) bare).response = some { status := .fault, data := .absent } :=
  ⟨rfl, by decide, by decide +kernel, by decide +kernel, by decide +kernel⟩
theorem test_witness_HaltedBlockRefusesAllButStat :
    halted.fault = true ∧ (halted.withFetchWord 32 0x38000000).inputs = .command 0x38000000#32 :: [] ∧ (0x38000000#32 : Word) ≠ 0xC0000000#32 :=
  ⟨by decide +kernel, rfl, by decide⟩
theorem test_witness_OnlyResetLeavesTheHaltedState :
    halted.fault = true ∧ step halted = .next halted ∧ (∀ rest, halted.inputs ≠ .reset :: rest) ∧ halted.cfg.conv ≠ .failing ∧
    ∃ t, step { halted with inputs := [.reset] } = .next t :=
  ⟨by decide +kernel, step_idle rfl, fun _ h => by simp [show halted.inputs = [] from rfl] at h, by decide +kernel, step_next _⟩
theorem test_witness_OperandRangeFault :
    bare.fault = false ∧ 6 ≤ (6#3).toNat ∧ 6 ≤ (7#3).toNat ∧ bare.cfg.nout = 8 ∧ bare.cfg.nout ≤ (8#16).toNat ∧
    bare.cfg.nout ≤ (65535#16).toNat := by decide +kernel
theorem test_witness_FaultCodesByCommand :
    bare.fault = false ∧ Instr.wellFormed bare.cfg.nout (.frd .left 8#16) = false ∧ (after (.frd .left 8#16) bare).fault = true ∧
    (after (.gen 0) (playingAt 36#12 0#18)).fault = true ∧ (after (.gen 0) (playingAt 36#12 0#18)).fcode = 4#3 := by decide +kernel

/-- V-F2, V-F3: malformed loops of slot 1; the bounds check stops the read. -/
theorem test_witness_PcmBoundsStopsBeforeTheRead :
    (after (.gen 0) (looping ⟨2#16, 1#16, 3#16⟩ false 0#18)).fault = true ∧ (after (.gen 0) (looping ⟨2#16, 1#16, 3#16⟩ false 0#18)).fcode = 3#3 ∧
    (after (.gen 0) (looping ⟨2#16, 2#16, 2#16⟩ false 0#18)).fcode = 3#3 ∧ (looping ⟨2#16, 1#16, 3#16⟩ false 0#18).fault = false := by
  decide +kernel
/-- The clauses: an armed loop that ends beyond the sample, run into from the first sample (4 samples, 4 asked for are not enough, 8 are); one whose
start is at the end, wrapped to at once; a loop armed in the tick that starts beyond the end, and one that starts inside and ends beyond. -/
theorem test_witness_GenRaisesPcmBoundsOutsideTheSample :
    Active (looping ⟨2#16, 1#16, 3#16⟩ true 0#18) 0 ⟨2#16, 1#16, 3#16⟩ ∧ 8 = tickCount Config.small (playing.chan 0) ∧
    Desc.send ⟨2#16, 1#16, 3#16⟩ < Desc.lend ⟨2#16, 1#16, 3#16⟩ ∧ Desc.send ⟨2#16, 1#16, 3#16⟩ < 0 + 8 ∧
    Active (looping ⟨2#16, 2#16, 0#16⟩ true 4#18) 0 ⟨2#16, 2#16, 0#16⟩ ∧ Desc.send ⟨2#16, 2#16, 0#16⟩ ≤ Desc.lbeg ⟨2#16, 2#16, 0#16⟩ ∧
    Desc.lend ⟨2#16, 2#16, 0#16⟩ ≤ 4 ∧ Desc.send ⟨2#16, 2#16, 0#16⟩ < Desc.lbeg ⟨2#16, 2#16, 0#16⟩ + 1 ∧
    Active (looping ⟨2#16, 3#16, 2#16⟩ false 0#18) 0 ⟨2#16, 3#16, 2#16⟩ ∧ (2#16).toNat < (3#16).toNat + (2#16).toNat ∧
    4 + (Desc.send ⟨2#16, 3#16, 2#16⟩ - Desc.lbeg ⟨2#16, 3#16, 2#16⟩) < 8 ∧
    Active (looping ⟨2#16, 1#16, 3#16⟩ false 0#18) 0 ⟨2#16, 1#16, 3#16⟩ ∧
    4 + (Desc.send ⟨2#16, 1#16, 3#16⟩ - Desc.lbeg ⟨2#16, 1#16, 3#16⟩) < 8 := by
  refine ⟨test_active _ _ _ (by decide +kernel), ?_, ?_, ?_, test_active _ _ _ (by decide +kernel), ?_, ?_, ?_,
    test_active _ _ _ (by decide +kernel), ?_, ?_, test_active _ _ _ (by decide +kernel), ?_⟩ <;> decide +kernel
theorem test_witness_FaultsEmitNothing :
    (looping ⟨2#16, 1#16, 3#16⟩ false 0#18).fault = false ∧ (after (.gen 0) (looping ⟨2#16, 1#16, 3#16⟩ false 0#18)).fault = true ∧
    (after (.slen 0#5 4#16) bare).fault = true := by decide +kernel
theorem test_witness_ConvFailKeepsTheSynthesizerPart :
    playing.fault = false ∧ (after (.gen 0) { playing with cfg := { Config.small with conv := .failing } }).fault = true ∧
    (after (.gen 0) { playing with cfg := { Config.small with conv := .failing } }).fcode.toNat = 2 ∧ playing.cfg.conv = .linear ∧
    (after (.gen 0) { playing with fcode := 2#3 }).fcode.toNat = 2 := by decide +kernel
theorem test_witness_NopChangesNothing : bare.fault = false ∧ halted.fault = true := by decide +kernel
theorem test_witness_PcmptrSetsThePointer : bare.fault = false := by decide +kernel
theorem test_witness_PcmwrStoresAndAdvances :
    playing.fault = false ∧ Memory.wf playing.cfg.initialByte playing.pcm = true ∧ (0x3FFFFF#22 : BitVec 22) ≠ playing.pcmptr := by
  decide +kernel
theorem test_witness_DescriptorWritesSetOneField :
    bare.fault = false ∧ (1#5 : Slot) ≠ 0#5 ∧ (31#5 : Slot) ≠ 0#5 ∧ (31#5 : Slot) ≠ 1#5 := by decide +kernel
theorem test_witness_ChannelWritesSetOneRegister :
    bare.fault = false ∧ (∃ x, Instr.csmp 0 31#5 = .csmp 0 x) ∧ (∃ x, Instr.cvol 3 127#7 = .cvol 3 x) ∧
    (∃ x, Instr.cloop 1 true = .cloop 1 x) := ⟨by decide +kernel, ⟨_, rfl⟩, ⟨_, rfl⟩, ⟨_, rfl⟩⟩
theorem test_witness_WrittenRegistersReadBack : bare.fault = false := by decide +kernel
theorem test_witness_RateIsTheSpecFormula :
    Config.small.Admissible ∧ Config.real.Admissible ∧ (0 : Nat) < 1 ∧ (1 : Nat) < 4095 ∧ (playing.chan 0).period ≠ 0#12 ∧
    Config.small.tickSec = 1 / 50 := by decide +kernel
theorem test_witness_RateRangeFault :
    Active (playingAt 36#12 0#18) 0 ⟨4#16, 0#16, 0#16⟩ ∧
    (playingAt 36#12 0#18).cfg.clockConst / (2 * (((playingAt 36#12 0#18).chan 0).period.toNat : Rat)) *
      (playingAt 36#12 0#18).cfg.base ^ ((playingAt 36#12 0#18).chan 0).ft.toInt = 10000 / 3 ∧
    ((playingAt 36#12 0#18).cfg.rawcap : Int) < (10000 / 3 * (playingAt 36#12 0#18).cfg.tickSec : Rat).floor ∧
    (playingAt 36#12 0#18).cfg.tickSec = 1 / 50 ∧ ((playingAt 36#12 0#18).cfg.rawcap : Int) < (10000 / 3 / 50 : Rat).floor := by
  refine ⟨test_active _ _ _ (by decide +kernel), ?_, by decide +kernel, by decide +kernel, by decide +kernel⟩
  have h1 : (playingAt 36#12 0#18).cfg.clockConst = 240000 := by decide +kernel
  have h2 : ((playingAt 36#12 0#18).chan 0).period.toNat = 36 := by decide +kernel
  have h3 : ((playingAt 36#12 0#18).chan 0).ft.toInt = 0 := by decide +kernel
  rw [h1, h2, h3, zpow_zero]
  decide +kernel

/-- The four causes of effective silence (R123), each alone. -/
theorem test_witness_GenSilentPath :
    bare.fault = false ∧ Silent bare 0 ∧ Silent (playing.setChan 0 { playing.chan 0 with sil := true }) 0 ∧
    Silent (looping ⟨0#16, 0#16, 0#16⟩ false 0#18) 0 ∧ Silent (playingAt 0#12 0#18) 0 :=
  ⟨by decide +kernel, .inr (.inl (by decide +kernel)), .inl (by decide +kernel), .inr (.inr (.inl ⟨⟨0#16, 0#16, 0#16⟩, by decide +kernel⟩)),
    .inr (.inr (.inr (by decide +kernel)))⟩
theorem test_witness_GenTouchesOnlyItsChannel :
    exec (.gen 0) playing = .next (after (.gen 0) playing) ∧ (playing.setChan 1 { playing.chan 1 with sil := true, loopact := true }).fault = false :=
  ⟨exec_after _ _, by decide +kernel⟩

/-- V-R2: a whole sample in one tick (the last index), and the two carries: period 500 carries 4/5, on 0 and on 1/2. A tick of no sample (period
2401) at the saturated index, with both carries. The converter answers, or fails. -/
theorem test_witness_GenPlaysConsecutiveSamples :
    Active playing 0 ⟨4#16, 0#16, 0#16⟩ ∧ playing.cfg.conv = .linear ∧ tickCount playing.cfg (playing.chan 0) = 8 ∧
    playing.cfg.rawcap = 64 ∧ (playing.chan 0).loopact = false ∧ Desc.send ⟨4#16, 0#16, 0#16⟩ = 8 ∧
    tickCount (playingAt 500#12 0#18).cfg ((playingAt 500#12 0#18).chan 0) = 4 ∧
    tickNeed (playingAt 500#12 0#18).cfg ((playingAt 500#12 0#18).chan 0) - 4 = 4 / 5 ∧
    (0 : Rat) + 4 / 5 < 1 ∧ (1 : Rat) ≤ 1 / 2 + 4 / 5 ∧
    tickCount (playingAt 2401#12 131072#18).cfg ((playingAt 2401#12 131072#18).chan 0) = 0 ∧
    tickNeed (playingAt 2401#12 131072#18).cfg ((playingAt 2401#12 131072#18).chan 0) = 2400 / 2401 ∧
    (0 : Rat) + 2400 / 2401 < 1 ∧ (1 : Rat) ≤ 1 / 2 + 2400 / 2401 ∧
    (let s := playingAt 2401#12 131072#18
     ((after (.gen 0) (s.setChan 0 { s.chan 0 with rem := 1 / 2 })).chan 0).idx = 131072#18) ∧
    convProcess .linear freshConv 1 [1 / 4] 8 ≠ none ∧ convProcess .failing freshConv 1 [1 / 4] 8 = none := by
  refine ⟨test_active _ _ _ (by decide +kernel), ?_⟩
  decide +kernel

/-- An armed loop of samples 2 to 5: from 0, through the loop end in the tick (8 samples, and 6 that end exactly there); from beyond the loop end; and
a tick of no sample. At last R128 and R132 by hand: period 500 (4 samples and 4/5 a tick) from index 4 and remainder 1/2 plays samples 4, 5, 2, 3 and
folds to 5, remainder 3/10; and a loop of no words at sample 2. -/
theorem test_witness_GenPlaysTheLoop :
    Active (looping ⟨4#16, 1#16, 2#16⟩ true 0#18) 0 ⟨4#16, 1#16, 2#16⟩ ∧ 8 = tickCount Config.small ((looping ⟨4#16, 1#16, 2#16⟩ true 0#18).chan 0) ∧
    ((looping ⟨4#16, 1#16, 2#16⟩ true 0#18).chan 0).loopact = true ∧ Desc.lend ⟨4#16, 1#16, 2#16⟩ = 6 ∧ Desc.send ⟨4#16, 1#16, 2#16⟩ = 8 ∧
    Desc.lbeg ⟨4#16, 1#16, 2#16⟩ = 2 ∧ 0 + 5 < 6 ∧ 6 ≤ 0 + 6 ∧ 6 < 0 + 8 ∧ 0 + 6 ≤ 6 ∧ Active (looping ⟨4#16, 1#16, 2#16⟩ true 6#18) 0 ⟨4#16, 1#16, 2#16⟩ ∧
    6 = tickCount Config.small { (playing.chan 0) with period := 400#12 } ∧ 0 = tickCount Config.small { (playing.chan 0) with period := 2401#12 } ∧
    (let s := looping ⟨4#16, 1#16, 2#16⟩ true 4#18
     let t := after (.gen 0) (s.setChan 0 { s.chan 0 with period := 500#12, rem := 1 / 2 })
     (t.chan 0).idx = 5#18 ∧ (t.chan 0).rem = 3 / 10 ∧ (t.chan 0).raw.take 4 = [1 / 16, -1 / 16, 1 / 8, -1 / 8]) ∧
    (let t := after (.gen 0) (looping ⟨4#16, 1#16, 0#16⟩ true 0#18)
     (t.chan 0).idx = 3#18 ∧ (t.chan 0).raw.take 8 = [1 / 4, -1 / 4, 1 / 8, 1 / 8, 1 / 8, 1 / 8, 1 / 8, 1 / 8]) := by
  refine ⟨test_active _ _ _ (by decide +kernel), ?_, ?_, ?_, ?_, ?_, ?_, ?_, ?_, ?_, test_active _ _ _ (by decide +kernel), ?_⟩ <;> decide +kernel
theorem test_witness_GenZeroFillsAtSampleEnd :
    Active (playingAt 300#12 4#18) 0 ⟨4#16, 0#16, 0#16⟩ ∧
    tickCount (playingAt 300#12 4#18).cfg ((playingAt 300#12 4#18).chan 0) = 8 ∧ ((playingAt 300#12 4#18).chan 0).loopact = false ∧
    Desc.send ⟨4#16, 0#16, 0#16⟩ = 8 ∧ 8 < 4 + 8 ∧ 4 + 3 < 8 ∧ 8 ≤ 4 + 4 := by
  refine ⟨test_active _ _ _ (by decide +kernel), ?_⟩
  decide +kernel
theorem test_witness_GenArmsTheLoopAtSampleEnd :
    Active (looping ⟨4#16, 1#16, 2#16⟩ false 4#18) 0 ⟨4#16, 1#16, 2#16⟩ ∧
    tickCount (looping ⟨4#16, 1#16, 2#16⟩ false 4#18).cfg ((looping ⟨4#16, 1#16, 2#16⟩ false 4#18).chan 0) = 8 ∧
    ((looping ⟨4#16, 1#16, 2#16⟩ false 4#18).chan 0).loopact = false ∧ 1 < (2#16).toNat ∧ (1#16).toNat + (2#16).toNat ≤ (4#16).toNat ∧
    8 < 4 + 8 ∧ 4 + 3 < 8 ∧ 8 ≤ 4 + 4 := by
  refine ⟨test_active _ _ _ (by decide +kernel), ?_⟩
  decide +kernel

/-- A loop that ends where the sample ends, and no loop at all. -/
theorem test_witness_GenCompletesWhenLoopInside :
    Active (looping ⟨4#16, 2#16, 2#16⟩ true 0#18) 0 ⟨4#16, 2#16, 2#16⟩ ∧ LoopInside ⟨4#16, 2#16, 2#16⟩ true ∧ playing.cfg.conv = .linear ∧
    tickCount playing.cfg (playing.chan 0) ≤ playing.cfg.rawcap ∧ Active playing 0 ⟨4#16, 0#16, 0#16⟩ ∧ LoopInside ⟨4#16, 0#16, 0#16⟩ false ∧
    (playing.chan 0).idx.toNat ≤ 131072 ∧ 0 ≤ (playing.chan 0).rem ∧ (playing.chan 0).rem < 1 ∧ playing.cfg.Admissible := by
  refine ⟨test_active _ _ _ (by decide +kernel), fun _ => by decide, ?_, ?_, test_active _ _ _ (by decide +kernel), fun h => ?_, ?_⟩
  · decide +kernel
  · decide +kernel
  · revert h; decide
  · decide +kernel

/-- Two states that differ in a byte outside the sample. -/
theorem test_witness_GenReadsOnlyInsideTheSample :
    playing.desc? (playing.chan 0).smp = some ⟨4#16, 0#16, 0#16⟩ ∧ (playing.setPcmByte 0#22 1#8).pcm ≠ playing.pcm ∧
    ∀ a : BitVec 22, (playing.chan 0).smp.toNat * 131072 ≤ a.toNat → playing.pcmByte a = (playing.setPcmByte 0#22 1#8).pcmByte a := by
  refine ⟨by decide +kernel, by decide +kernel, fun a h => (pcmByte_setPcmByte_other playing 1#8 ?_).symm⟩
  rintro rfl
  rw [show (playing.chan 0).smp = 1#5 by decide +kernel] at h
  simp at h

/-- Period 320: frames inside, at the last interval and beyond it; period 500: seven frames made, one padded; period 2401: none made. -/
theorem test_witness_GenOutputIsInterpolated :
    Active (playingAt 500#12 0#18) 0 ⟨4#16, 0#16, 0#16⟩ ∧ (playingAt 500#12 0#18).cfg.conv = .linear ∧
    (after (.gen 0) (playingAt 500#12 0#18)).fault = false ∧ ((after (.gen 0) (playingAt 500#12 0#18)).chan 0).rawn = 4 ∧
    tickRatio (playingAt 500#12 0#18).cfg ((playingAt 500#12 0#18).chan 0) = 5 / 3 ∧ linCount (5 / 3) 4 8 = 7 ∧
    ((4 : Rat) / (5 / 3)).floor.toNat + 1 < 4 ∧ 4 ≤ ((6 : Rat) / (5 / 3)).floor.toNat + 1 ∧ 7 ≤ 7 ∧ 7 < 8 ∧
    ((after (.gen 0) (playingAt 2401#12 0#18)).chan 0).rawn = 0 ∧ linCount (2401 / 300) 0 8 = 0 := by
  refine ⟨test_active _ _ _ (by decide +kernel), ?_⟩
  decide +kernel
theorem test_witness_GenPadsAnyConverterOutput :
    Active playing 0 ⟨4#16, 0#16, 0#16⟩ ∧ tickCount playing.cfg (playing.chan 0) ≤ playing.cfg.rawcap ∧ LoopInside ⟨4#16, 0#16, 0#16⟩ false ∧
    (∃ cv ys, convProcess .linear freshConv (5 / 3) [1 / 4, -1 / 4, 1 / 8, -1 / 8] 8 = some (cv, ys) ∧ ys.length = 7) ∧
    convProcess .failing freshConv (5 / 3) [1 / 4, -1 / 4, 1 / 8, -1 / 8] 8 = none := by
  refine ⟨test_active _ _ _ (by decide +kernel), by decide +kernel, fun h => ?_, ⟨_, _, rfl, by decide +kernel⟩, rfl⟩
  revert h; decide
theorem test_witness_InterpolationStaysInRange :
    (0 : Rat) < 5 / 3 ∧ ∀ x ∈ [(1 / 4 : Rat), -1 / 4], -1 / 4 ≤ x ∧ x ≤ 1 / 4 := by decide +kernel
theorem test_witness_PadIsTheLastRawSample :
    Active (playingAt 500#12 0#18) 0 ⟨4#16, 0#16, 0#16⟩ ∧ (playingAt 500#12 0#18).cfg.Admissible ∧ (playingAt 500#12 0#18).cfg.conv = .linear ∧
    (playingAt 500#12 0#18).cfg.rnd = .identity ∧ (after (.gen 0) (playingAt 500#12 0#18)).fault = false ∧
    linCount ((playingAt 500#12 0#18).cfg.outputRate / nativeRate (playingAt 500#12 0#18).cfg ((playingAt 500#12 0#18).chan 0)) 4
      (playingAt 500#12 0#18).cfg.nout ≤ 7 ∧ ((after (.gen 0) (playingAt 500#12 0#18)).chan 0).rawn = 4 ∧
    ((after (.gen 0) (playingAt 2401#12 0#18)).chan 0).rawn = 0 := by
  refine ⟨test_active _ _ _ (by decide +kernel), ?_⟩
  decide +kernel
theorem test_witness_OutputStaysInHeadroom :
    Active playing 0 ⟨4#16, 0#16, 0#16⟩ ∧ playing.cfg.Admissible ∧ playing.cfg.conv = .linear ∧ playing.cfg.rnd = .identity ∧
    (after (.gen 0) playing).fault = false := by
  refine ⟨test_active _ _ _ (by decide +kernel), ?_⟩
  decide +kernel

/-- Period 2000, one sample and a fifth a tick: four ticks that end exactly inside the eight samples. -/
theorem test_witness_PitchIsExactOverManyTicks :
    Active (playingAt 2000#12 0#18) 0 ⟨4#16, 0#16, 0#16⟩ ∧ (playingAt 2000#12 0#18).cfg.Admissible ∧
    (playingAt 2000#12 0#18).cfg.conv = .linear ∧ (after (.gen 0) (playingAt 2000#12 0#18)).fault = false ∧ (playingAt 2000#12 0#18).cfg.rnd = .identity ∧
    tickCount (playingAt 2000#12 0#18).cfg ((playingAt 2000#12 0#18).chan 0) = 1 ∧ (playingAt 2000#12 0#18).cfg.rawcap = 64 ∧
    ((playingAt 2000#12 0#18).chan 0).loopact = false ∧ ((playingAt 2000#12 0#18).chan 0).rem = 0 ∧ 0 + 4 * (1 + 1) ≤ Desc.send ⟨4#16, 0#16, 0#16⟩ := by
  refine ⟨test_active _ _ _ (by decide +kernel), ?_⟩
  decide +kernel
theorem test_witness_MixStoresClippedSums :
    bare.fault = false ∧ (Side.left = .left ↔ (3 : Chan) = 0 ∨ (3 : Chan) = 3) ∧ (Side.right = .left ↔ (2 : Chan) = 0 ∨ (2 : Chan) = 3) ∧
    bare.sw .left = false ∧ ({ bare with swL := true } : State).sw .left = true ∧ 7 < bare.cfg.nout := by decide +kernel
theorem test_witness_MixOrderDoesNotMatter :
    bare.fault = false ∧ bare.cfg.rnd = .identity ∧ sideOf 0 = sideOf 3 ∧ bare.sw (sideOf 0) = false ∧
    ∀ j, j < bare.cfg.nout → (bare.chan 0).out.getD j 0 < bare.cfg.thresh ∧ (bare.chan 3).out.getD j 0 < bare.cfg.thresh := by decide +kernel
theorem test_witness_SwapExchangesTheBuffers : bare.fault = false ∧ Instr.nop ≠ .swap ∧ exec .nop bare = .next (after .nop bare) :=
  ⟨by decide +kernel, by decide, exec_after _ _⟩
theorem test_witness_FrdReadsTheFrontBuffer :
    bare.fault = false ∧ (7#16).toNat < bare.cfg.nout ∧ bare.g = false ∧ (bare.buf1.getD 7 ⟨0, 0⟩).get .right = 0 := by decide +kernel
theorem test_witness_MixedSampleReachesTheSink :
    bare.fault = false ∧ bare.sw (sideOf 3) = false ∧ (7#16).toNat < bare.cfg.nout := by decide +kernel
theorem test_witness_StatAnswersTheStatusWord :
    (0xC1000000#32).toNat / 2 ^ 27 = 0x18 ∧ (0xC1000000#32 : Word) ≠ 0xC0000000#32 := by decide
theorem test_witness_ChrdAnswersTheRegister :
    bare.fault = false ∧ halted.fault = true ∧ 6 ≤ (6#3).toNat ∧ (5#3).toNat < 6 ∧ (0#3).toNat = 0 ∧ (5#3).toNat = 5 := by decide +kernel
theorem test_witness_WhoWritesWhat :
    exec (.gen 0) playing = .next (after (.gen 0) playing) ∧ ((after (.gen 0) playing).chan 0).out ≠ (playing.chan 0).out ∧
    (after (.pcmwr 1#8) playing).pcm ≠ playing.pcm ∧ (after (.pcmwr 1#8) playing).pcmptr ≠ playing.pcmptr ∧
    (after (.slen 1#5 9#16) playing).desc? 1#5 ≠ playing.desc? 1#5 ∧ (after .swap playing).g ≠ playing.g ∧
    (after (.mix 3) playing).swL ≠ playing.swL ∧ (after (.mix 2) playing).swR ≠ playing.swR ∧
    (after (.mix 0) (after (.gen 0) playing)).buf0 ≠ playing.buf0 := ⟨exec_after _ _, by decide +kernel⟩
theorem test_witness_SilentTickIsAllZero :
    bare.fault = false ∧ bare.swL = false ∧ bare.swR = false ∧ ∀ c, Silent bare c :=
  ⟨by decide +kernel, by decide +kernel, by decide +kernel, fun c => .inr (.inl (by revert c; decide +kernel))⟩
theorem test_witness_TickMixesTheFourChannels :
    playing.fault = false ∧ playing.swL = false ∧ playing.swR = false ∧ (runInputs (commandsOf pseudoTick) playing).2.fault = false := by
  decide +kernel
theorem test_witness_LoadsmpLoadsTheSample :
    bare.fault = false ∧ Memory.wf bare.cfg.initialByte bare.pcm = true ∧ (31#5 : Slot) ≠ 0#5 ∧ [1#8, 2#8].length = 2 * (1#16).toNat := by
  decide +kernel
theorem test_witness_TrigRestartsTheChannel : bare.fault = false := by decide +kernel
theorem test_witness_PseudoCommandsSetOneRegister :
    bare.fault = false ∧ pseudoMute 0 ∈ [pseudoMute 0, pseudoUnmute 0] ∧ ∃ d, pseudoOffs 3 255#8 = pseudoOffs 3 d :=
  ⟨by decide +kernel, by decide, ⟨_, rfl⟩⟩
theorem test_witness_SilencedChannelStaysSilent :
    playing.fault = false ∧ ((playing.setChan 0 { playing.chan 0 with sil := true }).chan 0).sil = true ∧ 0 < 1 := by decide +kernel

end Sys2Proof.Tests
end

section
/-! PROOFS. What one step can do, said once (`step_shape`), and the statements about the step itself (O6, O7). -/

namespace Sys2Proof.Machine

/-- Everything a step can do, one constructor per kind of action waiting (R12): prove an invariant of the step by `cases` on
`step_shape`. -/
inductive StepShape (s : State) : State → Prop
  | idle (waiting : s.inputs = []) : StepShape s s
  | reset (rest) (waiting : s.inputs = .reset :: rest) : StepShape s { s with inputs := rest }.resetAction
  | command (w rest i) (waiting : s.inputs = .command w :: rest) (decodes : decode w = some i) :
      StepShape s (after i { s with inputs := rest })
  | illegal (w rest) (waiting : s.inputs = .command w :: rest) (decodes : decode w = none) :
      StepShape s ({ s with inputs := rest }.unlessHalted fun u => u.raise .illegalCommand)

/-- The inversion lemma of `step`. -/
theorem step_shape {s t : State} (h : step s = .next t) : StepShape s t := by
  cases hin : s.inputs with
  | nil =>
    rw [step_idle hin] at h; cases h
    exact .idle hin
  | cons a rest =>
    cases a with
    | reset =>
      rw [step_reset hin] at h; cases h
      exact .reset rest hin
    | command w =>
      cases hd : decode w with
      | some i =>
        rw [step_command hin hd] at h
        rw [← after_eq h]
        exact .command w rest i hin hd
      | none =>
        rw [step_illegal hin hd] at h; cases h
        exact .illegal w rest hin hd

/-- Settles O6: the step's equation for a word that decodes. -/
theorem stepRunsDecodedCommand : Obligations.StepRunsDecodedCommand :=
  fun _ _ _ _ hin hd => step_command hin hd

/-- Settles O7: the step's equation when no action waits. -/
theorem idleStepChangesNothing : Obligations.IdleStepChangesNothing :=
  fun _ hin => step_idle hin

end Sys2Proof.Machine
end

section
/-! PROOFS. The invariant of the state (O12): each operation of the block keeps it, then `GEN`, then every command, then the step. -/

namespace Sys2Proof.Machine

theorem Fault.code_range (f : Fault) : 1 ≤ f.code.toNat ∧ f.code.toNat ≤ 6 := by
  cases f <;> decide

section
variable {s : State}

/-! The invariant reads neither the waiting actions and the response nor `PCMPTR`, the descriptors, `G` and `SW`. -/

theorem State.Ok.withInputs (h : s.Ok) (rest : List Input) : ({ s with inputs := rest } : State).Ok := { h with }

theorem State.Ok.answer (h : s.Ok) (d : Data) : (s.answer d).Ok := { h with }

theorem State.Ok.refuse (h : s.Ok) : s.refuse.Ok := { h with }

theorem State.Ok.withPcmptr (h : s.Ok) (a : BitVec 22) : ({ s with pcmptr := a } : State).Ok := { h with }

theorem State.Ok.withDescs (h : s.Ok) (ds : Vector Desc 31) : ({ s with descs := ds } : State).Ok := { h with }

theorem State.Ok.withMixerFlags (h : s.Ok) (g l r : Bool) : ({ s with g := g, swL := l, swR := r } : State).Ok := { h with }

theorem State.Ok.markSide (h : s.Ok) (d : Side) : (s.markSide d).Ok := by
  cases d <;> exact { h with }

/-! The operations that write what the invariant reads. -/

/-- Fault entry halts with one of the six codes (R180, R190). -/
theorem State.Ok.raise (h : s.Ok) (f : Fault) : (s.raise f).Ok :=
  { h with
    running_code := fun hf => by simp at hf
    halted_code := fun _ => f.code_range }

theorem State.Ok.unlessHalted (h : s.Ok) {run : State → State} (hrun : s.fault = false → (run s).Ok) :
    (s.unlessHalted run).Ok := by
  cases hf : s.fault with
  | true => rw [unlessHalted_halted hf]; exact h.refuse
  | false => rw [unlessHalted_running hf]; exact hrun hf

theorem State.Ok.setChan (h : s.Ok) {c : Chan} {ch : Channel} (hch : Channel.Ok s.cfg ch) : (s.setChan c ch).Ok :=
  { h with
    chan_ok := fun e => by
      rw [setChan_chan]
      split
      · exact hch
      · exact h.chan_ok e }

theorem State.Ok.setPcmByte (h : s.Ok) (a : BitVec 22) (b : Byte) : (s.setPcmByte a b).Ok :=
  { h with pcm_wf := wf_setPcmByte s a b h.pcm_wf }

theorem State.Ok.setGenBuf (h : s.Ok) {b : List Frame} (hb : b.length = s.cfg.nout) : (s.setGenBuf b).Ok := by
  unfold State.setGenBuf
  split
  · exact { h with buf1_length := hb }
  · exact { h with buf0_length := hb }

end

/-! Reset (R210, R213). -/

theorem convInit_ratio {sel : ConvSel} {st : ConvState} (h : convInit sel = some st) : st.ratio = 1 := by
  cases sel <;> cases h <;> rfl

theorem afterReset_ok (cfg : Cfg) : Channel.Ok cfg (Channel.afterReset cfg) where
  vol_le := Nat.zero_le _
  idx_le := Nat.zero_le _
  rem_nonneg := le_rfl
  rem_lt_one := zero_lt_one
  raw_length := List.length_replicate
  rawn_le := Nat.zero_le _
  out_length := List.length_replicate
  ratio_pos := by
    show 0 < ((convInit cfg.conv).getD freshConv).ratio
    cases h : convInit cfg.conv with
    | none => exact zero_lt_one
    | some st => rw [Option.getD_some, convInit_ratio h]; exact zero_lt_one

@[simp] theorem initial_chan (cfg : Cfg) (pcm : List Host.Cell) (c : Chan) :
    (State.initial cfg pcm).chan c = Channel.afterReset cfg := by
  simp [State.chan, State.initial]

theorem initial_ok {cfg : Cfg} {pcm : List Host.Cell} (hc : cfg.Admissible) (hp : Memory.wf cfg.initialByte pcm = true) :
    (State.initial cfg pcm).Ok where
  cfg_ok := hc
  chan_ok c := by rw [initial_chan]; exact afterReset_ok cfg
  pcm_wf := hp
  buf0_length := List.length_replicate
  buf1_length := List.length_replicate
  running_code _ := rfl
  halted_code h := Bool.noConfusion h

/-- A reset gives a legal state, also when the converter cannot be constructed (R186). -/
theorem resetTo_legal {cfg : Cfg} {pcm : List Host.Cell} (hc : cfg.Admissible) (hp : Memory.wf cfg.initialByte pcm = true) :
    (resetTo cfg pcm).Ok := by
  have h := initial_ok hc hp
  by_cases hf : cfg.conv = .failing
  · rw [resetTo_failing pcm hf]
    exact { h with running_code := fun hr => Bool.noConfusion hr, halted_code := fun _ => Fault.convInitFail.code_range }
  · rw [resetTo_ok pcm hf]
    exact h

/-! `GEN` (R122). -/

/-- The read loop overwrites the head of `RAW` and never lengthens it. -/
theorem length_overwrite {α : Type} {new old : List α} (h : new.length ≤ old.length) :
    (new ++ old.drop new.length).length = old.length := by
  rw [List.length_append, List.length_drop]
  omega

section
variable {cfg : Cfg} {ch : Channel}

theorem silentPath_ok (h : Channel.Ok cfg ch) : Channel.Ok cfg (silentPath cfg ch) :=
  { h with
    out_length := List.length_replicate
    ratio_pos := by simp [silentPath] }

/-- A read loop that the bounds check stopped leaves its channel in range (R183). -/
theorem afterReads_ok (h : Channel.Ok cfg ch) (hn : tickCount cfg ch ≤ cfg.rawcap) (sample : BitVec 18 → Rat) (d : Desc) :
    Channel.Ok cfg (ch.afterReads (readLoop sample d (tickCount cfg ch) ch.cursor)) := by
  have hlen := (readLoop_length sample d (tickCount cfg ch) ch.cursor).2
  exact { h with
    idx_le := readLoop_idx_le sample d _ ch.cursor h.idx_le
    raw_length := (length_overwrite (by rw [h.raw_length]; omega)).trans h.raw_length }

/-- So does a completed read loop and the carry (R132). -/
theorem afterSynth_ok (h : Channel.Ok cfg ch) (hneed : 0 ≤ tickNeed cfg ch) (hn : tickCount cfg ch ≤ cfg.rawcap)
    (sample : BitVec 18 → Rat) (d : Desc) :
    Channel.Ok cfg (afterSynth cfg ch (readLoop sample d (tickCount cfg ch) ch.cursor)) := by
  have hidx := afterSynth_bounds cfg ch d sample h.idx_le
  obtain ⟨hrem0, hrem1⟩ := afterSynth_rem cfg ch (readLoop sample d (tickCount cfg ch) ch.cursor) h.rem_nonneg h.rem_lt_one hneed
  rw [afterSynth_frame]
  exact { afterReads_ok h hn sample d with
    idx_le := hidx
    rem_nonneg := hrem0
    rem_lt_one := hrem1
    rawn_le := hn }

/-- The converter writes `CV` and `OUT` (R134). -/
theorem Channel.Ok.converted (h : Channel.Ok cfg ch) {cv : ConvState} {out : List Rat} (hcv : 0 < cv.ratio)
    (hout : out.length = cfg.nout) : Channel.Ok cfg { ch with cv := cv, out := out } :=
  { h with out_length := hout, ratio_pos := hcv }

/-- An active channel converts at a positive ratio (R133, R142). -/
theorem tickRatio_pos (hc : cfg.Admissible) (hp : ch.period ≠ 0#12) : 0 < tickRatio cfg ch := by
  have ⟨_, _, _, hout, _⟩ := hc
  exact div_pos hout (nativeRate_pos hc hp)

end

/-- Each of the four endings of an active `GEN` is a legal state. -/
theorem genActive_ok {s : State} {c : Chan} {d : Desc} (h : s.Ok) (hp : (s.chan c).period ≠ 0#12) : (genActive c d s).Ok := by
  have hch := h.chan_ok c
  have hneed := (tickNeed_pos h.cfg_ok hp).le
  rcases genActive_cases c d s with ⟨-, e⟩ | ⟨r, hn, rfl, ⟨-, e⟩ | ⟨ch, -, rfl, ⟨-, e⟩ | ⟨cv, ys, hconv, e⟩⟩⟩ <;> rw [e]
  · exact h.raise _
  · exact (h.setChan (afterReads_ok hch hn _ d)).raise _
  · exact (h.setChan (afterSynth_ok hch hneed hn _ d)).raise _
  · have hratio : 0 < cv.ratio := by
      rw [convProcess_ratio hconv]
      exact tickRatio_pos h.cfg_ok hp
    have hsynth := afterSynth_ok hch hneed hn (scaledSample s (s.chan c)) d
    exact (h.setChan (hsynth.converted hratio (padOut_length _ _ _))).answer _

theorem after_gen_ok {s : State} (h : s.Ok) (hf : s.fault = false) (c : Chan) : (after (.gen c) s).Ok := by
  by_cases hs : Silent s c
  · rw [after_eq (exec_gen_silent hf hs)]
    exact (h.setChan (silentPath_ok (h.chan_ok c))).answer _
  · obtain ⟨d, ha⟩ := active_of_not_silent hf hs
    rw [after_eq (exec_gen_active ha)]
    exact genActive_ok h ha.period_ne

/-! Every command and every step. -/

/-- While halted a command is refused, or it is `STAT` and answers the status word (R100, R165). -/
theorem after_halted {s : State} (hf : s.fault = true) (i : Instr) :
    (i = .stat ∧ after i s = s.answer (.word s.statusWord)) ∨ (i ≠ .stat ∧ after i s = s.refuse) := by
  by_cases hi : i = .stat
  · subst hi
    exact .inl ⟨rfl, after_eq (exec_stat s)⟩
  · exact .inr ⟨hi, after_eq (exec_halted hf hi)⟩

theorem after_running_ok {s : State} (h : s.Ok) (hf : s.fault = false) (i : Instr) : (after i s).Ok := by
  have hgen : ∀ c, i = .gen c → (after i s).Ok := fun c hc => hc ▸ after_gen_ok h hf c
  have shape := exec_shape hf i
  generalize after i s = t at hgen shape
  cases shape with
  | nop => exact h.answer _
  | stat => exact h.answer _
  | chrd => exact h.answer _
  | frd => exact h.answer _
  | swap => exact (h.withMixerFlags _ _ _).answer _
  | pcmptr a => exact (h.withPcmptr a).answer _
  | descWrite => exact (h.withDescs _).answer _
  | pcmwr b => exact ((h.setPcmByte s.pcmptr b).withPcmptr _).answer _
  | mix c => exact ((h.setGenBuf (mixedBuf_length c s)).markSide _).answer _
  | outOfRange => exact h.raise _
  | channelWrite _ c ch _ hout hcv hraw hrawn hvol hidx hrem0 hrem1 =>
    have hch := h.chan_ok c
    exact (h.setChan {
      vol_le := hvol hch.vol_le
      idx_le := hidx hch.idx_le
      rem_nonneg := hrem0 hch.rem_nonneg
      rem_lt_one := hrem1 hch.rem_lt_one
      raw_length := hraw ▸ hch.raw_length
      rawn_le := hrawn ▸ hch.rawn_le
      out_length := hout ▸ hch.out_length
      ratio_pos := hcv ▸ hch.ratio_pos }).answer _
  | gen c => exact hgen c rfl
  | genHalts c => exact hgen c rfl

theorem after_ok {s : State} (h : s.Ok) (i : Instr) : (after i s).Ok := by
  cases hf : s.fault with
  | false => exact after_running_ok h hf i
  | true =>
    rcases after_halted hf i with ⟨-, e⟩ | ⟨-, e⟩ <;> rw [e]
    · exact h.answer _
    · exact h.refuse

/-- Settles O12: by the shape of the step, every operation of the block keeps the invariant. -/
theorem stepKeepsStateLegal : Obligations.StepKeepsStateLegal := by
  intro s t h hstep
  cases step_shape hstep with
  | idle => exact h
  | reset rest => exact (resetTo_legal h.cfg_ok h.pcm_wf).withInputs rest
  | command w rest i => exact after_ok (h.withInputs rest) i
  | illegal w rest => exact (h.withInputs rest).unlessHalted fun _ => (h.withInputs rest).raise _

end Sys2Proof.Machine
end

section
/-! PROOFS. Every command is answered (O14): the answer of a command that completes and of one that is rejected, the answer of every
command, and the word of `STAT`. -/

namespace Sys2Proof.Machine

/-- What R12, R83 and R165 say of the answer `r` with which a presented word takes `s` to `t`; `i` is the command the word decodes to,
none when it is illegal. -/
structure Answers (i : Option Instr) (s t : State) (r : Response) : Prop where
  response : t.response = some r
  inputs : t.inputs = s.inputs
  cfg : t.cfg = s.cfg
  status : i ≠ some .stat → (r.status = .fault ↔ t.fault = true)
  stat_ok : i = some .stat → r.status = .ok
  fault_absent : r.status = .fault → r.data = .absent
  word : ∀ x, r.data = .word x → i = some .stat ∨ ∃ c sel, i = some (.chrd c sel)
  sample : ∀ v, r.data = .sample v → ∃ d j, i = some (.frd d j)

section
variable {i : Option Instr} {s u : State}

/-- A command that completes in a running block, or `STAT`. -/
theorem Answers.of_answer {d : Data} (hin : u.inputs = s.inputs) (hcfg : u.cfg = s.cfg) (hf : i = some .stat ∨ u.fault = false)
    (hword : ∀ x, d = .word x → i = some .stat ∨ ∃ c sel, i = some (.chrd c sel))
    (hsample : ∀ v, d = .sample v → ∃ d j, i = some (.frd d j)) :
    Answers i s (u.answer d) { status := .ok, data := d } where
  response := rfl
  inputs := hin
  cfg := hcfg
  status hi := by simp [hf.resolve_left hi]
  stat_ok _ := rfl
  fault_absent h := by cases h
  word := hword
  sample := hsample

/-- A command that completes without data. -/
theorem Answers.of_absent (hin : u.inputs = s.inputs) (hcfg : u.cfg = s.cfg) (hf : u.fault = false) :
    Answers i s (u.answer .absent) { status := .ok, data := .absent } :=
  .of_answer hin hcfg (.inr hf) nofun nofun

/-- A rejected word: the block is halted afterwards (R190, R191). -/
theorem Answers.of_rejected (hi : i ≠ some .stat) (hr : u.response = some faultResponse) (hin : u.inputs = s.inputs)
    (hcfg : u.cfg = s.cfg) (hf : u.fault = true) : Answers i s u faultResponse where
  response := hr
  inputs := hin
  cfg := hcfg
  status _ := by simp [hf, faultResponse]
  stat_ok h := absurd h hi
  fault_absent _ := rfl
  word := nofun
  sample := nofun

end

theorem answers_stat (s : State) : Answers (some .stat) s (s.answer (.word s.statusWord)) { status := .ok, data := .word s.statusWord } :=
  .of_answer rfl rfl (.inl rfl) (fun _ _ => .inl rfl) nofun

theorem answers_illegal (s : State) : Answers none s (s.unlessHalted fun u => u.raise .illegalCommand) faultResponse := by
  cases hf : s.fault with
  | true => rw [unlessHalted_halted hf]; exact .of_rejected nofun rfl rfl rfl hf
  | false => rw [unlessHalted_running hf]; exact .of_rejected nofun rfl rfl rfl rfl

/-- An ill-formed command is not `STAT`. -/
theorem ne_stat_of_not_wellFormed {i : Instr} {nout : Nat} (h : i.wellFormed nout = false) : some i ≠ some .stat := by
  rintro ⟨⟩
  cases h

theorem after_running_answers {s : State} (hf : s.fault = false) (i : Instr) : ∃ r, Answers (some i) s (after i s) r := by
  have shape := exec_shape hf i
  generalize after i s = t at shape
  cases shape with
  | nop => exact ⟨_, .of_absent rfl rfl hf⟩
  | swap => exact ⟨_, .of_absent rfl rfl hf⟩
  | pcmptr a => exact ⟨_, .of_absent rfl rfl hf⟩
  | pcmwr b => exact ⟨_, .of_absent rfl rfl hf⟩
  | descWrite => exact ⟨_, .of_absent rfl rfl hf⟩
  | channelWrite => exact ⟨_, .of_absent rfl rfl hf⟩
  | gen => exact ⟨_, .of_absent rfl rfl hf⟩
  | mix c => exact ⟨_, .of_absent (by simp) (by simp) (by simp [hf])⟩
  | stat => exact ⟨_, answers_stat s⟩
  | chrd c sel => exact ⟨_, .of_answer rfl rfl (.inr hf) (fun _ _ => .inr ⟨c, sel, rfl⟩) nofun⟩
  | frd d j => exact ⟨_, .of_answer rfl rfl (.inr hf) nofun fun _ _ => ⟨d, j, rfl⟩⟩
  | outOfRange _ wf => exact ⟨_, .of_rejected (ne_stat_of_not_wellFormed wf) rfl rfl rfl rfl⟩
  | genHalts => exact ⟨_, .of_rejected nofun rfl rfl rfl rfl⟩

/-- Every command gets one answer, in a running and in a halted block. -/
theorem after_answers (i : Instr) (s : State) : ∃ r, Answers (some i) s (after i s) r := by
  cases hf : s.fault with
  | false => exact after_running_answers hf i
  | true =>
    rcases after_halted hf i with ⟨rfl, e⟩ | ⟨hi, e⟩ <;> rw [e]
    · exact ⟨_, answers_stat s⟩
    · exact ⟨_, .of_rejected (by simpa using hi) rfl rfl rfl hf⟩

/-- Every presented word is answered, whether it decodes or not. -/
theorem step_answers {s : State} {w : Word} {rest : List Input} (hin : s.inputs = .command w :: rest) :
    ∃ t r, step s = .next t ∧ Answers (decode w) { s with inputs := rest } t r := by
  cases hd : decode w with
  | none => exact ⟨_, _, step_illegal hin hd, answers_illegal _⟩
  | some i =>
    obtain ⟨r, hr⟩ := after_answers i { s with inputs := rest }
    exact ⟨_, r, (step_command hin hd).trans (exec_after i _), hr⟩

/-- `STAT` has one word: its operation code with all other bits zero (R78, R80). -/
theorem decode_eq_stat {w : Word} : decode w = some .stat ↔ w = 0xC0000000#32 := by
  refine ⟨fun h => ?_, fun h => h ▸ by decide⟩
  unfold decode at h
  split at h <;> simp only [formatC, Laws.whenZero_eq_some, reduceCtorEq, and_false, and_true] at h
  next hop =>
    rw [opField, Laws.bits_eq_iff] at hop
    rw [Laws.bits_eq_iff] at h
    apply BitVec.eq_of_toNat_eq
    simp at hop h ⊢
    omega

/-- Settles O14: the answer of the step, with the word of `STAT` for its command. -/
theorem everyCommandIsAnswered : Obligations.EveryCommandIsAnswered := by
  intro s w rest hin
  obtain ⟨t, r, hstep, ha⟩ := step_answers hin
  exact ⟨t, r, hstep, ha.response, ha.inputs, ha.cfg, fun hw => ha.status (mt decode_eq_stat.1 hw),
    fun hw => ha.stat_ok (decode_eq_stat.2 hw), ha.fault_absent, ha.word, ha.sample⟩

end Sys2Proof.Machine
end

section
/-! PROOFS. The configuration (O59): the free values of the machine after reset meet the constraints of R6 whatever they are, and no step
changes the configuration (R20). -/

namespace Sys2Proof

theorem Config.positive_pos (n d : Nat) : 0 < Config.positive n d := by
  unfold Config.positive
  positivity

/-- An output rate of R6 is at least one frame and less than 65537 frames per 20 ms tick (D19). -/
theorem Config.outputRateOf_bounds (frames a b : Nat) :
    50 ≤ Config.outputRateOf frames a b ∧ Config.outputRateOf frames a b < 50 * 65537 := by
  have hden : (0 : Rat) < (a : Rat) + (b : Rat) + 1 := by positivity
  have hfrac0 : 0 ≤ (a : Rat) / ((a : Rat) + (b : Rat) + 1) := by positivity
  have hfrac1 : (a : Rat) / ((a : Rat) + (b : Rat) + 1) < 1 := by
    have hb : (0 : Rat) ≤ b := Nat.cast_nonneg b
    rw [div_lt_one hden]
    linarith
  have hwhole0 : (0 : Rat) ≤ ((frames % 65536 : Nat) : Rat) := Nat.cast_nonneg _
  have hwhole1 : ((frames % 65536 : Nat) : Rat) ≤ 65535 := by
    have : frames % 65536 ≤ 65535 := by omega
    exact_mod_cast this
  unfold Config.outputRateOf
  constructor <;> linarith

/-- `NOUT` is the floor itself where a tick has no negative number of frames. -/
theorem Cfg.nout_eq_floor {cfg : Cfg} (h : 0 ≤ cfg.outputRate * cfg.tickSec) :
    (cfg.nout : Int) = (cfg.outputRate * cfg.tickSec).floor :=
  Int.toNat_of_nonneg (Int.floor_nonneg.2 h)

theorem Cfg.nout_le {cfg : Cfg} {n : Nat} (h0 : 0 ≤ cfg.outputRate * cfg.tickSec) (h : cfg.outputRate * cfg.tickSec < n + 1) :
    cfg.nout ≤ n := by
  have hfloor : (cfg.outputRate * cfg.tickSec).floor < (n : Int) + 1 := Int.floor_lt.2 (by exact_mod_cast h)
  have := Cfg.nout_eq_floor h0
  omega

theorem Config.cfg_frames_per_tick : 1 ≤ Config.cfg.outputRate * Config.cfg.tickSec ∧
    Config.cfg.outputRate * Config.cfg.tickSec < (65536 : Nat) + 1 := by
  have h := Config.outputRateOf_bounds Config.outputFrames Config.outputPart Config.outputRest
  show 1 ≤ Config.outputRateOf _ _ _ * (1 / 50) ∧ Config.outputRateOf _ _ _ * (1 / 50) < (65536 : Nat) + 1
  push_cast
  constructor <;> linarith

/-- The configuration of the machine after reset meets the constraints of R6, for every choice of the free values. -/
theorem Config.cfg_admissible : Config.cfg.Admissible := by
  have hrate := (Config.outputRateOf_bounds Config.outputFrames Config.outputPart Config.outputRest).1
  obtain ⟨hone, hmax⟩ := Config.cfg_frames_per_tick
  have hbase : 0 < Config.sourceBase := by norm_num [Config.sourceBase]
  exact ⟨Config.positive_pos _ _, hbase, Config.positive_pos _ _, lt_of_lt_of_le (by norm_num) hrate, hone,
    Cfg.nout_le (zero_le_one.trans hone) hmax, Nat.le_add_left 1 _⟩

end Sys2Proof

namespace Sys2Proof.Machine

@[simp] theorem resetTo_cfg (cfg : Cfg) (pcm : List Host.Cell) : (resetTo cfg pcm).cfg = cfg := by
  unfold resetTo
  split <;> rfl

/-- No step changes the configuration (R20, R40). -/
theorem step_cfg {s t : State} (h : step s = .next t) : t.cfg = s.cfg := by
  cases step_shape h with
  | idle => rfl
  | reset => exact resetTo_cfg _ _
  | command w rest i =>
    obtain ⟨_, ha⟩ := after_answers i { s with inputs := rest }
    exact ha.cfg
  | illegal w rest => exact (answers_illegal { s with inputs := rest }).cfg

/-- Settles O59: the source's values stand in `Config.cfg`, its free values are within R6, and a step keeps the configuration. -/
theorem configurationIsFixed : Obligations.ConfigurationIsFixed := by
  have hframes := zero_le_one.trans Config.cfg_frames_per_tick.1
  refine ⟨rfl, rfl, rfl, Config.cfg_admissible, ?_, fun _ _ => step_cfg⟩
  rw [div_eq_mul_one_div]
  exact Cfg.nout_eq_floor hframes

end Sys2Proof.Machine
end

section
/-! PROOFS. The reset state is legal (O11): an admissible configuration over a PCM in which no byte has been written. -/

namespace Sys2Proof.Machine

/-- Settles O11: the free configuration is within R6 (`Config.cfg_admissible`), an empty PCM is canonical (`Memory.wf_nil`), and the registers at their reset
values (R41) meet the invariant for any such configuration (`initial_ok`). -/
theorem resetStateIsLegal : Obligations.ResetStateIsLegal :=
  ⟨initial_ok Config.cfg_admissible Memory.wf_nil, rfl⟩

end Sys2Proof.Machine
end

section
/-! PROOFS. Who may write what (O52): for each row of the table of R60, the commands that can change it, read off the shape of the command;
a refused command changes nothing of the table. -/

namespace Sys2Proof.Machine

/-- A command is refused, or it does what its shape says; `STAT` does so while halted too (R100). -/
theorem refused_or_shape (i : Instr) (s : State) : after i s = s.refuse ∨ ExecShape s i (after i s) := by
  cases hf : s.fault with
  | false => exact .inr (exec_shape hf i)
  | true =>
    rcases after_halted hf i with ⟨rfl, e⟩ | ⟨-, e⟩
    · exact .inr (e ▸ .stat)
    · exact .inl e

/-! What an operation can change, seen from the change. -/

theorem eq_of_setChan_chan_ne {s : State} {c e : Chan} {ch : Channel} (h : (s.setChan c ch).chan e ≠ s.chan e) : e = c := by
  by_contra hec
  exact h (setChan_chan_other s ch hec)

theorem g_of_setGenBuf_buf0_ne {s : State} {b : List Frame} (h : (s.setGenBuf b).buf0 ≠ s.buf0) : s.g = false := by
  by_contra hg
  rw [Bool.not_eq_false] at hg
  simp [State.setGenBuf, hg] at h

theorem g_of_setGenBuf_buf1_ne {s : State} {b : List Frame} (h : (s.setGenBuf b).buf1 ≠ s.buf1) : s.g = true := by
  by_contra hg
  simp [State.setGenBuf, hg] at h

theorem eq_of_markSide_sw_ne {s : State} {d e : Side} (h : (s.markSide d).sw e ≠ s.sw e) : e = d := by
  by_contra hed
  exact h (markSide_sw_other s hed)

theorem sideOf_eq_left {c : Chan} : sideOf c = .left ↔ c = 0 ∨ c = 3 := by
  revert c; decide

theorem sideOf_eq_right {c : Chan} : sideOf c = .right ↔ c = 1 ∨ c = 2 := by
  revert c; decide

/-! The rows of the table of R60 for a command that is not refused. -/

namespace ExecShape

variable {i : Instr} {s t : State} {c : Chan}

theorem samePorts (h : ExecShape s i t) : SamePorts s t := by
  cases h <;> simp [SamePorts]

theorem writes_pcm (h : ExecShape s i t) (hne : t.pcm ≠ s.pcm) : ∃ b, i = .pcmwr b := by
  cases h with
  | pcmwr b => exact ⟨b, rfl⟩
  | _ => simp at hne

theorem writes_pcmptr (h : ExecShape s i t) (hne : t.pcmptr ≠ s.pcmptr) : (∃ a, i = .pcmptr a) ∨ ∃ b, i = .pcmwr b := by
  cases h with
  | pcmptr a => exact .inl ⟨a, rfl⟩
  | pcmwr b => exact .inr ⟨b, rfl⟩
  | _ => simp at hne

theorem writes_desc {k : Slot} (h : ExecShape s i t) (hne : t.desc? k ≠ s.desc? k) :
    ∃ v, i = .slen k v ∨ i = .slps k v ∨ i = .slpl k v := by
  cases h with
  | descWrite _ l _ _ _ _ which _ others =>
    have hkl : k = l := by
      by_contra hkl
      exact hne (others k hkl)
    exact hkl ▸ which
  | pcmptr | pcmwr | swap => exact absurd rfl hne
  | _ => simp at hne

theorem writes_chan (h : ExecShape s i t) (hne : t.chan c ≠ s.chan c) :
    i = .gen c ∨ (∃ x, i = .csmp c x) ∨ (∃ x, i = .cper c x) ∨ (∃ x, i = .cft c x) ∨
      (∃ x, i = .cvol c x) ∨ (∃ x, i = .cidx c x) ∨ (∃ x, i = .csil c x) ∨ (∃ x, i = .cloop c x) := by
  cases h with
  | gen | genHalts => exact .inl (eq_of_setChan_chan_ne hne ▸ rfl)
  | channelWrite _ _ _ which => exact .inr (eq_of_setChan_chan_ne hne ▸ which)
  | pcmptr | pcmwr | swap | descWrite => exact absurd rfl hne
  | _ => simp at hne

/-- The buffers and the converter of a channel are `GEN`'s own (R114). -/
theorem writes_buffers (h : ExecShape s i t) (hne : (t.chan c).out ≠ (s.chan c).out ∨ (t.chan c).cv ≠ (s.chan c).cv ∨
    (t.chan c).raw ≠ (s.chan c).raw ∨ (t.chan c).rawn ≠ (s.chan c).rawn) : i = .gen c := by
  have hchan : t.chan c ≠ s.chan c := fun e => by simp [e] at hne
  cases h with
  | gen | genHalts => exact eq_of_setChan_chan_ne hchan ▸ rfl
  | channelWrite _ _ _ _ out cv raw rawn =>
    obtain rfl := eq_of_setChan_chan_ne hchan
    simp [out, cv, raw, rawn] at hne
  | pcmptr | pcmwr | swap | descWrite => exact absurd rfl hchan
  | _ => simp at hchan

theorem writes_buf0 (h : ExecShape s i t) (hne : t.buf0 ≠ s.buf0) : (∃ c, i = .mix c) ∧ s.g = false := by
  cases h with
  | mix c => exact ⟨⟨c, rfl⟩, g_of_setGenBuf_buf0_ne (by simpa using hne)⟩
  | _ => simp at hne

theorem writes_buf1 (h : ExecShape s i t) (hne : t.buf1 ≠ s.buf1) : (∃ c, i = .mix c) ∧ s.g = true := by
  cases h with
  | mix c => exact ⟨⟨c, rfl⟩, g_of_setGenBuf_buf1_ne (by simpa using hne)⟩
  | _ => simp at hne

theorem writes_g (h : ExecShape s i t) (hne : t.g ≠ s.g) : i = .swap := by
  cases h with
  | swap => rfl
  | _ => simp at hne

/-- `SW` is cleared by `SWAP` and set by a `MIX` of the same side (R34). -/
theorem writes_sw {d : Side} (h : ExecShape s i t) (hne : t.sw d ≠ s.sw d) : i = .swap ∨ ∃ c, i = .mix c ∧ sideOf c = d := by
  cases h with
  | swap => exact .inl rfl
  | mix c =>
    rw [answer_sw, ← setGenBuf_sw s (mixedBuf c s)] at hne
    exact .inr ⟨c, rfl, (eq_of_markSide_sw_ne hne).symm⟩
  | pcmptr | pcmwr | descWrite => exact absurd rfl hne
  | _ => simp at hne

theorem writes_swL (h : ExecShape s i t) (hne : t.swL ≠ s.swL) : i = .swap ∨ i = .mix 0 ∨ i = .mix 3 := by
  rcases h.writes_sw (d := .left) hne with hi | ⟨c, rfl, hc⟩
  · exact .inl hi
  · simpa using sideOf_eq_left.1 hc

theorem writes_swR (h : ExecShape s i t) (hne : t.swR ≠ s.swR) : i = .swap ∨ i = .mix 1 ∨ i = .mix 2 := by
  rcases h.writes_sw (d := .right) hne with hi | ⟨c, rfl, hc⟩
  · exact .inl hi
  · simpa using sideOf_eq_right.1 hc

end ExecShape

/-- Settles O52: row by row from the shape of the command, or nothing changes but the response. -/
theorem whoWritesWhat : Obligations.WhoWritesWhat := by
  intro i s t h
  obtain rfl := exec_eq_next.1 h
  rcases refused_or_shape i s with e | shape
  · rw [e]
    simp [SamePorts]
  · exact ⟨shape.samePorts, shape.writes_pcm, shape.writes_pcmptr, fun _ => shape.writes_desc, fun _ => shape.writes_chan,
      fun _ => shape.writes_buffers, shape.writes_buf0, shape.writes_buf1, shape.writes_g, shape.writes_swL, shape.writes_swR⟩

end Sys2Proof.Machine
end

section
/-! PROOFS. `GEN` reads only inside the sample (O35): two states that agree on the channel, its descriptor and the bytes of its sample take
the same path of R122 with the same samples. -/

namespace Sys2Proof.Machine

/-- Agreement on what `GEN c` may read or keep beside PCM and the descriptors (R54). -/
structure SameBank (c : Chan) (s u : State) : Prop where
  cfg : s.cfg = u.cfg
  fault : s.fault = u.fault
  fcode : s.fcode = u.fcode
  chan : s.chan c = u.chan c

/-- Agreement on all that `GEN c` may read (R54): the bank, the descriptor of its slot, and the PCM bytes of that slot up to the sample end. -/
structure SameGenInput (c : Chan) (s u : State) : Prop extends SameBank c s u where
  desc : s.desc? (s.chan c).smp = u.desc? (s.chan c).smp
  pcm : ∀ d, s.desc? (s.chan c).smp = some d → ∀ a : BitVec 22, (s.chan c).smp.toNat * 131072 ≤ a.toNat →
    a.toNat < (s.chan c).smp.toNat * 131072 + d.send → s.pcmByte a = u.pcmByte a

/-- What O35 compares after `GEN c`. -/
structure SameGenResult (c : Chan) (t v : State) : Prop where
  chan : t.chan c = v.chan c
  fault : t.fault = v.fault
  fcode : t.fcode = v.fcode
  response : t.response = v.response

section
variable {c : Chan} {s u : State} {d : Desc}

theorem SameBank.setChan (h : SameBank c s u) (ch : Channel) : SameBank c (s.setChan c ch) (u.setChan c ch) :=
  ⟨h.cfg, h.fault, h.fcode, by simp⟩

theorem SameBank.refuse (h : SameBank c s u) : SameGenResult c s.refuse u.refuse := ⟨h.chan, h.fault, h.fcode, rfl⟩

theorem SameBank.answer (h : SameBank c s u) (x : Data) : SameGenResult c (s.answer x) (u.answer x) :=
  ⟨h.chan, h.fault, h.fcode, rfl⟩

theorem SameBank.raise (h : SameBank c s u) (f : Fault) : SameGenResult c (s.raise f) (u.raise f) := ⟨h.chan, rfl, rfl, rfl⟩

/-- An active `GEN` whose tick does not fit `RAWCAP` changes nothing (R125). -/
theorem exec_gen_rateRange (ha : Active s c d) (hn : s.cfg.rawcap < tickCount s.cfg (s.chan c)) :
    exec (.gen c) s = .next (s.raise .rateRange) := by
  rw [exec_gen_active ha, genActive]
  exact congrArg _ (if_pos hn)

namespace SameGenInput

theorem silent (h : SameGenInput c s u) (hs : Silent s c) : Silent u c := by
  rw [Silent, h.desc, h.chan] at hs
  exact hs

theorem active (h : SameGenInput c s u) (ha : Active s c d) : Active u c d where
  running := h.fault ▸ ha.running
  not_sil := h.chan ▸ ha.not_sil
  desc_eq := by rw [← h.chan, ← h.desc]; exact ha.desc_eq
  length_ne := ha.length_ne
  period_ne := h.chan ▸ ha.period_ne

/-- A scaled sample below the sample end comes from a byte of the sample (R51, R53). -/
theorem scaledSample_eq (h : SameGenInput c s u) (hd : s.desc? (s.chan c).smp = some d) {i : BitVec 18} (hi : i.toNat < d.send) :
    scaledSample s (s.chan c) i = scaledSample u (u.chan c) i := by
  have haddr : (pcmAddr (s.chan c).smp i).toNat = (s.chan c).smp.toNat * 131072 + i.toNat := by
    have := d.send_le
    rw [pcmAddr_toNat, Nat.mod_eq_of_lt (by omega)]
  have hbyte := h.pcm d hd (pcmAddr (s.chan c).smp i) (by omega) (by omega)
  rw [scaledSample, scaledSample, pcmf, pcmf, hbyte, h.cfg, h.chan]

/-- So the read loop goes the same way in both states. -/
theorem readLoop_eq (h : SameGenInput c s u) (hd : s.desc? (s.chan c).smp = some d) :
    readLoop (scaledSample s (s.chan c)) d (tickCount s.cfg (s.chan c)) (s.chan c).cursor =
      readLoop (scaledSample u (u.chan c)) d (tickCount u.cfg (u.chan c)) (u.chan c).cursor := by
  rw [readLoop_congr _ d fun i => h.scaledSample_eq hd, h.cfg, h.chan]

/-- The active path (R122): the same ending, with the same bank. -/
theorem gen_active (h : SameGenInput c s u) (ha : Active s c d) : SameGenResult c (after (.gen c) s) (after (.gen c) u) := by
  have hu := h.active ha
  have hloop := h.readLoop_eq ha.desc_eq
  rcases Nat.lt_or_ge s.cfg.rawcap (tickCount s.cfg (s.chan c)) with hn | hn
  · rw [after_eq (exec_gen_rateRange ha hn), after_eq (exec_gen_rateRange hu (h.cfg ▸ h.chan ▸ hn))]
    exact h.raise _
  · have hn' : tickCount u.cfg (u.chan c) ≤ u.cfg.rawcap := h.cfg ▸ h.chan ▸ hn
    generalize hr : readLoop (scaledSample s (s.chan c)) d (tickCount s.cfg (s.chan c)) (s.chan c).cursor = r at hloop
    cases hb : r.bounds with
    | true =>
      rw [after_eq (exec_gen_bounds ha hn (hr ▸ hb)), after_eq (exec_gen_bounds hu hn' (hloop ▸ hb)), hr, ← hloop, h.chan]
      exact (h.setChan _).raise _
    | false =>
      rw [after_eq (exec_gen_synth ha hn hr hb), after_eq (exec_gen_synth hu hn' hloop.symm hb), h.cfg, h.chan]
      cases convProcess u.cfg.conv (u.chan c).cv (tickRatio u.cfg (u.chan c)) r.samples u.cfg.nout with
      | none => exact (h.setChan _).raise _
      | some answer => exact (h.setChan _).answer _

theorem gen (h : SameGenInput c s u) : SameGenResult c (after (.gen c) s) (after (.gen c) u) := by
  have hstat : Instr.gen c ≠ .stat := nofun
  cases hf : s.fault with
  | true =>
    rw [after_eq (exec_halted hf hstat), after_eq (exec_halted (h.fault ▸ hf) hstat)]
    exact h.refuse
  | false =>
    by_cases hs : Silent s c
    · rw [after_eq (exec_gen_silent hf hs), after_eq (exec_gen_silent (h.fault ▸ hf) (h.silent hs)), h.cfg, h.chan]
      exact (h.setChan _).answer _
    · obtain ⟨d, ha⟩ := active_of_not_silent hf hs
      exact h.gen_active ha

end SameGenInput

end

/-- Settles O35: whichever path `GEN` takes, it is decided by what the two states share. -/
theorem genReadsOnlyInsideTheSample : Obligations.GenReadsOnlyInsideTheSample := by
  intro s u c hcfg hfault hfcode hchan hdesc hpcm
  have h := SameGenInput.gen ⟨⟨hcfg, hfault, hfcode, hchan⟩, hdesc, hpcm⟩
  exact ⟨h.chan, h.fault, h.fcode, h.response⟩

end Sys2Proof.Machine
end

section
/-! PROOFS. The encoding (O1, O2): a word is the concatenation of its fields, so laying the fields out (`encode`) and reading them (`decode`) are
inverse to each other, format by format. -/

namespace Sys2Proof.Laws

/-! A concatenation is a word exactly when its parts are the word's fields. -/

/-- A field of a field is a field. -/
theorem extract_extract {n : Nat} (w : BitVec n) {lo' len' lo len : Nat} (h : lo + len ≤ len') :
    (w.extractLsb' lo' len').extractLsb' lo len = w.extractLsb' (lo' + lo) len := by
  ext j hj
  simp [show lo + j < len' by omega, Nat.add_assoc]

theorem append_eq_iff {m n : Nat} (x : BitVec m) (y : BitVec n) (w : BitVec (m + n)) :
    x ++ y = w ↔ w.extractLsb' n m = x ∧ w.extractLsb' 0 n = y := by
  constructor
  · rintro rfl
    exact ⟨BitVec.extractLsb'_append_eq_left, BitVec.extractLsb'_append_eq_right⟩
  · rintro ⟨rfl, rfl⟩
    rw [BitVec.extractLsb'_append_extractLsb'_eq_extractLsb' (by omega), BitVec.extractLsb'_eq_self]

theorem append3_eq_iff {a b c : Nat} (x : BitVec a) (y : BitVec b) (z : BitVec c) (w : BitVec (a + b + c)) :
    x ++ y ++ z = w ↔ w.extractLsb' (c + b) a = x ∧ w.extractLsb' c b = y ∧ w.extractLsb' 0 c = z := by
  rw [append_eq_iff, eq_comm (b := x ++ y), append_eq_iff, extract_extract _ (by omega), extract_extract _ (by omega), and_assoc,
    Nat.add_zero]

theorem append4_eq_iff {a b c d : Nat} (x : BitVec a) (y : BitVec b) (z : BitVec c) (u : BitVec d) (w : BitVec (a + b + c + d)) :
    x ++ y ++ z ++ u = w ↔
      w.extractLsb' (d + (c + b)) a = x ∧ w.extractLsb' (d + c) b = y ∧ w.extractLsb' d c = z ∧ w.extractLsb' 0 d = u := by
  rw [append_eq_iff, eq_comm (b := x ++ y ++ z), append3_eq_iff, extract_extract _ (by omega), extract_extract _ (by omega),
    extract_extract _ (by omega), and_assoc, and_assoc, Nat.add_zero]


/-! The operands that are not bit vectors are read from their bits and laid out as the same bits. -/

theorem chField_of_bits {w : Word} {c : Chan} (h : bits w 25 2 = chBits c) : chField w = c := congrArg BitVec.toFin h

theorem ofBool_flagField (w : Word) : BitVec.ofBool (flagField w) = bits w 0 1 := by
  ext j hj
  obtain rfl : j = 0 := by omega
  simp [flagField, bits]

theorem sideBit_sideField (w : Word) : sideBit (sideField w) = bits w 16 1 := by
  apply BitVec.eq_of_toNat_eq
  rw [bits_toNat, sideField_eq]
  split
  · next h => exact h.symm
  · next h => exact (Nat.mod_two_ne_one.1 h).symm

theorem ofBool_injective : Function.Injective BitVec.ofBool := by
  unfold Function.Injective
  decide

theorem sideBit_injective : Function.Injective sideBit := by
  rintro ⟨⟩ ⟨⟩ h
  · rfl
  · cases h
  · cases h
  · rfl

theorem flagField_of_bits {w : Word} {x : Bool} (h : bits w 0 1 = BitVec.ofBool x) : flagField w = x :=
  ofBool_injective ((ofBool_flagField w).trans h)

theorem sideField_of_bits {w : Word} {d : Side} (h : bits w 16 1 = sideBit d) : sideField w = d :=
  sideBit_injective ((sideBit_sideField w).trans h)

@[simp] theorem whenZero_zero (n : Nat) (i : Instr) : whenZero 0#n i = some i := if_pos rfl

/-- The fields of a command's word are its operands (R71 to R76). -/
theorem decode_encode (i : Instr) : decode (encode i) = some i := by
  generalize hw : encode i = w
  cases i with
  | nop | swap | stat =>
    obtain ⟨hop, hz⟩ := (append_eq_iff ..).1 hw
    simp [decode, opField, bits, hop, hz]
  | pcmptr x | pcmwr x =>
    obtain ⟨hop, hz, hx⟩ := (append3_eq_iff ..).1 hw
    simp [decode, opField, bits, hop, hz, hx]
  | slen s v | slps s v | slpl s v =>
    obtain ⟨hop, hz, hs, hv⟩ := (append4_eq_iff ..).1 hw
    simp [decode, opField, bits, hop, hz, hs, hv]
  | csmp c x | cper c x | cft c x | cvol c x | cidx c x | chrd c x =>
    obtain ⟨hop, hc, hz, hx⟩ := (append4_eq_iff ..).1 hw
    simp [decode, formatC, opField, bits, hop, chField_of_bits hc, hz, hx]
  | csil c x | cloop c x =>
    obtain ⟨hop, hc, hz, hx⟩ := (append4_eq_iff ..).1 hw
    simp [decode, formatC, opField, bits, hop, chField_of_bits hc, hz, flagField_of_bits hx]
  | gen c | mix c =>
    obtain ⟨hop, hc, hz⟩ := (append3_eq_iff ..).1 hw
    simp [decode, formatC, opField, bits, hop, chField_of_bits hc, hz]
  | frd side j =>
    obtain ⟨hop, hz, hside, hj⟩ := (append4_eq_iff ..).1 hw
    simp [decode, opField, bits, hop, hz, sideField_of_bits hside, hj]

/-- A word that decodes is the layout of its fields (R80). The arms stand in the order of `decode`; the code, the fields that carry an
operand and the must-be-zero field together are the whole word. -/
theorem encode_of_decode {w : Word} {i : Instr} (h : decode w = some i) : encode i = w := by
  unfold decode at h
  split at h
  case h_20 => cases h
  all_goals obtain ⟨hz, rfl⟩ := (whenZero_eq_some _ _ _).1 h
  -- Format N: `NOP`, `SWAP`, `STAT`.
  case h_1 hop | h_16 hop | h_17 hop => exact (append_eq_iff ..).2 ⟨hop, hz⟩
  -- Formats A and B: `PCMPTR`, `PCMWR`.
  case h_2 hop | h_3 hop => exact (append3_eq_iff ..).2 ⟨hop, hz, rfl⟩
  -- Format S: `SLEN`, `SLPS`, `SLPL`.
  case h_4 hop | h_5 hop | h_6 hop => exact (append4_eq_iff ..).2 ⟨hop, hz, rfl, rfl⟩
  -- Format C with an operand, one of one bit (`CSIL`, `CLOOP`), and with none (`GEN`, `MIX`).
  case h_7 hop | h_8 hop | h_9 hop | h_10 hop | h_11 hop | h_18 hop => exact (append4_eq_iff ..).2 ⟨hop, rfl, hz, rfl⟩
  case h_12 hop | h_13 hop => exact (append4_eq_iff ..).2 ⟨hop, rfl, hz, (ofBool_flagField w).symm⟩
  case h_14 hop | h_15 hop => exact (append3_eq_iff ..).2 ⟨hop, rfl, hz⟩
  -- Format F: `FRD`.
  case h_19 hop => exact (append4_eq_iff ..).2 ⟨hop, hz, (sideBit_sideField w).symm, rfl⟩

/-- Settles O1: the fields of the command's word are its operands, format by format (`decode_encode`). -/
theorem decodeEncodeRoundTrip : Obligations.DecodeEncodeRoundTrip := decode_encode

/-- Settles O2: the fields of a word that decodes are all of the word (`encode_of_decode`). -/
theorem encodeOfDecodedWord : Obligations.EncodeOfDecodedWord := fun _ _ => encode_of_decode

end Sys2Proof.Laws
end

section
/-! PROOFS. The opcode table and the reserved words (O3, O4): an assigned operation code has one must-be-zero field (R71 to R76), and both the
decoder and the rows of R78 ask for just that: an assigned code, and zero in its field. -/

namespace Sys2Proof.Laws

/-- The must-be-zero field of an operation code's format, its lowest bit and its length (R71 to R76, R78); none for an unassigned code (R80).
`decode_isSome_iff` ties it to the decoder, `opRows_fix_zeroField` to the table of R78. -/
def zeroField (op : BitVec 5) : Option (Nat × Nat) :=
  match op with
  | 0x00#5 | 0x12#5 | 0x18#5 => some (0, 27)
  | 0x01#5 => some (22, 5)
  | 0x02#5 => some (8, 19)
  | 0x03#5 | 0x04#5 | 0x05#5 => some (21, 6)
  | 0x08#5 => some (5, 20)
  | 0x09#5 => some (12, 13)
  | 0x0A#5 => some (4, 21)
  | 0x0B#5 => some (7, 18)
  | 0x0C#5 => some (17, 8)
  | 0x0D#5 | 0x0E#5 => some (1, 24)
  | 0x10#5 | 0x11#5 => some (0, 25)
  | 0x19#5 => some (3, 22)
  | 0x1A#5 => some (17, 10)
  | _ => none

/-- A word decodes exactly when its operation code is assigned and its must-be-zero field is zero (R79, R80). -/
theorem decode_isSome_iff (w : Word) : (decode w).isSome ↔ ∃ p, zeroField (opField w) = some p ∧ bits w p.1 p.2 = 0 := by
  unfold decode
  split
  case h_20 => simp [zeroField, *]
  all_goals next hop => simp [hop, zeroField, formatC, whenZero]

theorem bits_eq_bits_iff {w v : Word} {lo len : Nat} :
    bits w lo len = bits v lo len ↔ ∀ j, lo ≤ j ∧ j < lo + len → w.getLsbD j = v.getLsbD j := by
  constructor
  · rintro h j ⟨hlo, hlen⟩
    have := congrArg (BitVec.getLsbD · (j - lo)) h
    simpa [bits, show j - lo < len by omega, show lo + (j - lo) = j by omega] using this
  · intro h
    ext j hj
    simpa [bits] using h (lo + j) (by omega)

theorem bits_zero_of_le {w : Word} {lo len lo' len' : Nat} (h : bits w lo len = 0) (hlo : lo ≤ lo') (hlen : lo' + len' ≤ lo + len) :
    bits w lo' len' = 0 := by
  have hzero : ∀ lo len, bits 0#32 lo len = 0 := fun lo len => by simp [bits]
  rw [← hzero, bits_eq_bits_iff] at h ⊢
  exact fun j hj => h j (by omega)

/-! The rows of R78. -/

/-- The mask of the row covers the operation code and the field `p`, nothing else, and the match is zero below the operation code (R78). -/
def FixesField (r : OpRow) (p : Nat × Nat) : Prop :=
  p.1 + p.2 ≤ 27 ∧
  ∀ j < 32, r.mask.getLsbD j = decide (27 ≤ j ∨ p.1 ≤ j ∧ j < p.1 + p.2) ∧ (j < 27 → r.mtch.getLsbD j = false)

theorem opRows_fix_zeroField :
    ∀ r ∈ opRows, ∃ p ∈ zeroField (opField r.mtch), FixesField r p ∧ bits r.mtch p.1 p.2 = 0 := by
  unfold FixesField
  decide

theorem opRows_eq_of_opField : ∀ r ∈ opRows, ∀ r' ∈ opRows, opField r.mtch = opField r'.mtch → r = r' := by
  decide

/-- A row is hit by the words that agree with its match under its mask, bit by bit. -/
theorem hit_iff_getLsbD {r : OpRow} {w : Word} :
    r.hit w = true ↔ ∀ j < 32, (w.getLsbD j && r.mask.getLsbD j) = r.mtch.getLsbD j := by
  simp [OpRow.hit, BitVec.eq_of_getLsbD_eq_iff]

/-- A row that fixes the operation code and one field is hit by the words that agree with its match in both. -/
theorem hit_iff_of_fixesField {r : OpRow} {w : Word} {p : Nat × Nat} (hf : FixesField r p) :
    r.hit w = true ↔ opField w = opField r.mtch ∧ bits w p.1 p.2 = bits r.mtch p.1 p.2 := by
  obtain ⟨hp, hf⟩ := hf
  rw [hit_iff_getLsbD, opField, opField, bits_eq_bits_iff, bits_eq_bits_iff]
  constructor
  · intro h
    have hread : ∀ j < 32, 27 ≤ j ∨ p.1 ≤ j ∧ j < p.1 + p.2 → w.getLsbD j = r.mtch.getLsbD j := by
      intro j hj hfix
      simpa [(hf j hj).1, hfix] using h j hj
    exact ⟨fun j hj => hread j hj.2 (.inl hj.1), fun j hj => hread j (by omega) (.inr hj)⟩
  · rintro ⟨hop, hz⟩ j hj
    rw [(hf j hj).1]
    by_cases hfix : 27 ≤ j ∨ p.1 ≤ j ∧ j < p.1 + p.2
    · have hread := hfix.elim (fun h => hop j ⟨h, hj⟩) (hz j)
      simp [hfix, hread]
    · simp [hfix, (hf j hj).2 (by omega)]

/-- A row of R78 is hit by the words of its operation code that have zero in the code's must-be-zero field. -/
theorem hit_iff {r : OpRow} (hr : r ∈ opRows) {w : Word} :
    r.hit w = true ↔ opField w = opField r.mtch ∧ ∃ p, zeroField (opField r.mtch) = some p ∧ bits w p.1 p.2 = 0 := by
  obtain ⟨p, hp, hf, hm⟩ := opRows_fix_zeroField r hr
  rw [hit_iff_of_fixesField hf, hm]
  simp [Option.mem_def.1 hp]

/-- The table has a row for every command, of its mnemonic and its operation code. -/
theorem mnemonic_of_decode {w : Word} {i : Instr} (h : decode w = some i) :
    ∃ r ∈ opRows, opField r.mtch = opField w ∧ r.mnemonic = i.mnemonic := by
  suffices (opField w, i.mnemonic) ∈ opRows.map fun r => (opField r.mtch, r.mnemonic) by simpa using this
  unfold decode at h
  split at h
  case h_20 => cases h
  all_goals
    next hop =>
      obtain ⟨-, rfl⟩ := (whenZero_eq_some _ _ _).1 h
      rw [hop, Instr.mnemonic]
      decide

/-- Settles O3: decoder and table ask the same of a word, and the rows have different operation codes. -/
theorem decodeAgreesWithOpcodeTable : Obligations.DecodeAgreesWithOpcodeTable := by
  intro w
  refine ⟨fun i hi => ?_, fun hnone r hr => ?_, fun r hr r' hr' h h' => ?_⟩
  · obtain ⟨r, hr, hop, hname⟩ := mnemonic_of_decode hi
    have hzero := (decode_isSome_iff w).1 (by rw [hi]; rfl)
    exact ⟨r, hr, (hit_iff hr).2 ⟨hop.symm, hop ▸ hzero⟩, hname⟩
  · by_contra hhit
    obtain ⟨hop, hzero⟩ := (hit_iff hr).1 (Bool.not_eq_false _ ▸ hhit)
    have := (decode_isSome_iff w).2 (hop ▸ hzero)
    simp [hnone] at this
  · exact opRows_eq_of_opField r hr r' hr' (((hit_iff hr).1 h).1.symm.trans ((hit_iff hr').1 h').1)

/-! The reserved words of R80. -/

theorem opField_toNat (w : Word) : (opField w).toNat = w.toNat / 2 ^ 27 := by
  have := w.isLt
  rw [opField, bits_toNat]
  omega

theorem decode_eq_none_of_zeroField {w : Word} (h : zeroField (opField w) = none) : decode w = none := by
  rw [← Option.not_isSome_iff_eq_none, decode_isSome_iff]
  simp [h]

/-- A word is illegal when some bits that its format asks to be zero are not. -/
theorem decode_eq_none_of_bits {w : Word} {lo len : Nat} (hin : ∀ p ∈ zeroField (opField w), p.1 ≤ lo ∧ lo + len ≤ p.1 + p.2)
    (hne : w.toNat / 2 ^ lo % 2 ^ len ≠ 0) : decode w = none := by
  rw [← Option.not_isSome_iff_eq_none, decode_isSome_iff]
  rintro ⟨p, hp, hzero⟩
  obtain ⟨hlo, hlen⟩ := hin p hp
  exact hne ((bits_eq_iff w lo len 0).1 (bits_zero_of_le hzero hlo hlen))

theorem zeroField_unassigned : ∀ op : BitVec 5,
    op.toNat ∈ [0x06, 0x07, 0x0F, 0x13, 0x14, 0x15, 0x16, 0x17, 0x1B, 0x1C, 0x1D, 0x1E, 0x1F] → zeroField op = none := by
  decide

/-- Bit 24 must be zero in every format. -/
theorem zeroField_bit24 : ∀ op : BitVec 5, ∀ p ∈ zeroField op, p.1 ≤ 24 ∧ 24 + 1 ≤ p.1 + p.2 := by
  decide

/-- The channel bits must be zero in the formats N, S, A, B and F. -/
theorem zeroField_noChannel : ∀ op : BitVec 5, op.toNat ∈ [0x00, 0x01, 0x02, 0x03, 0x04, 0x05, 0x12, 0x18, 0x1A] →
    ∀ p ∈ zeroField op, p.1 ≤ 25 ∧ 25 + 2 ≤ p.1 + p.2 := by
  decide

/-- Settles O4: an unassigned code has no format, and bits 24 and 26:25 lie in the must-be-zero field of the formats that have no use for
them. -/
theorem reservedEncodingsAreIllegal : Obligations.ReservedEncodingsAreIllegal := by
  refine ⟨fun w hop => ?_, fun w hbit => ?_, fun w hop hch => ?_⟩
  · exact decode_eq_none_of_zeroField (zeroField_unassigned _ (opField_toNat w ▸ hop))
  · exact decode_eq_none_of_bits (zeroField_bit24 _) (by omega)
  · exact decode_eq_none_of_bits (zeroField_noChannel _ (opField_toNat w ▸ hop)) hch

end Sys2Proof.Laws
end

section
/-! PROOFS. The examples of R85 (O5). -/

namespace Sys2Proof.Laws

/-- Where the assembler gives the words, the round trip gives the commands back. -/
theorem decode_of_assembled {examples : List (String × Word)}
    (h : ∀ p ∈ examples, (Machine.assemble p.1).map encode = some p.2) :
    ∀ p ∈ examples, (Machine.assemble p.1).map encode = some p.2 ∧ decode p.2 = Machine.assemble p.1 := by
  intro p hp
  obtain ⟨i, hi, hw⟩ := Option.map_eq_some_iff.1 (h p hp)
  exact ⟨h p hp, by rw [← hw, hi, decode_encode]⟩

/-- Settles O5: the assembler is run on the 19 texts, and the words decode by the round trip. -/
theorem specExampleWords : Obligations.SpecExampleWords :=
  decode_of_assembled (by decide +kernel)

end Sys2Proof.Laws
end

section
/-! PROOFS. Runs of commands, now that every word decodes to its command (O1), and the pseudo-commands that write one channel (O56, O57). -/

namespace Sys2Proof.Machine

/-- The final state of a run of commands. -/
theorem run_eq_foldl (is : List Instr) (s : State) : (runInputs (commandsOf is) s).2 = is.foldl (fun u i => after i u) s := by
  induction is generalizing s with
  | nil => rfl
  | cons i is ih => rw [runInputs_cons (Laws.decode_encode i), List.foldl_cons, ← ih]

/-! Channel writes. -/

@[simp] theorem answer_answer (s : State) (d e : Data) : (s.answer d).answer e = s.answer e := rfl

@[simp] theorem answer_setChan_answer (s : State) (c : Chan) (ch ch' : Channel) (d : Data) :
    ((s.setChan c ch).answer d).setChan c ch' = (s.setChan c ch').answer d := by
  simp [State.setChan, State.answer]

/-- What a channel write leaves unchanged (R114). -/
theorem channelWrite_frame {s t : State} {c : Chan} {ch : Channel} (hs : s.fault = false) (ht : t = (s.setChan c ch).answer .absent) :
    t.fault = false ∧ SameOtherChans c s t ∧ SameDescs s t ∧ SameMixer s t := by
  subst ht
  exact ⟨hs, fun _ hd => setChan_chan_other s ch hd, fun _ => rfl, rfl, rfl, rfl, rfl, rfl⟩

/-- The four commands of `TRIG` together are one write of the channel (R92). -/
theorem run_trig {s : State} (hs : s.fault = false) (c : Chan) (k : Slot) (v : BitVec 7) :
    (runInputs (commandsOf (pseudoTrig c k v)) s).2 =
      (s.setChan c { s.chan c with smp := k, vol := clampVol v, idx := 0#18, rem := 0, loopact := false }).answer .absent := by
  rw [run_eq_foldl]
  simp only [pseudoTrig, List.foldl_cons, List.foldl_nil]
  rw [after_eq (exec_csmp hs c k), after_eq (exec_cvol ?_ c v), after_eq (exec_cidx ?_ c 0#17), after_eq (exec_cloop ?_ c false)]
  · simp [idxOperand]
  all_goals exact hs

/-- Settles O56: `TRIG` is one write of the channel, with the volume clamped. -/
theorem trigRestartsTheChannel : Obligations.TrigRestartsTheChannel := by
  intro s t c k v hs ht
  rw [run_trig hs] at ht
  obtain ⟨hfault, hother, -⟩ := channelWrite_frame hs ht
  subst ht
  exact ⟨by simp [clampVol_toNat], by simp, hother, hfault⟩

/-- A one-command pseudo-command writes its channel. -/
theorem run_pseudo_channelWrite {s : State} (hs : s.fault = false) {c : Chan} {is : List Instr}
    (h : is ∈ [pseudoMute c, pseudoUnmute c] ∨ (∃ p, is = pseudoNote c p) ∨ (∃ d, is = pseudoOffs c d) ∨
      (∃ k, is = pseudoSetvol c k) ∨ (∃ n, is = pseudoSetft c n)) :
    ∃ ch, (runInputs (commandsOf is) s).2 = (s.setChan c ch).answer .absent := by
  rw [run_eq_foldl]
  simp only [List.mem_cons, List.not_mem_nil, or_false] at h
  rcases h with (rfl | rfl) | ⟨p, rfl⟩ | ⟨d, rfl⟩ | ⟨k, rfl⟩ | ⟨n, rfl⟩
  · exact ⟨_, after_eq (exec_csil hs c true)⟩
  · exact ⟨_, after_eq (exec_csil hs c false)⟩
  · exact ⟨_, after_eq (exec_cper hs c p)⟩
  · exact ⟨_, after_eq (exec_cidx hs c _)⟩
  · exact ⟨_, after_eq (exec_cvol hs c k)⟩
  · exact ⟨_, after_eq (exec_cft hs c n)⟩

theorem chan_of_channelWrite {i : Instr} {s : State} {c : Chan} {ch : Channel}
    (h : exec i s = .next ((s.setChan c ch).answer .absent)) : (runInputs (commandsOf [i]) s).2.chan c = ch := by
  rw [run_eq_foldl, List.foldl_cons, List.foldl_nil, after_eq h, answer_chan, setChan_chan_same]

/-- Settles O57: each of the pseudo-commands is one write of its channel. -/
theorem pseudoCommandsSetOneRegister : Obligations.PseudoCommandsSetOneRegister := by
  intro s c hs
  refine ⟨fun is t his ht => ?_, fun p => chan_of_channelWrite (exec_cper hs c p),
    fun d => ⟨_, chan_of_channelWrite (exec_cidx hs c _), ?_⟩,
    fun k => ⟨_, chan_of_channelWrite (exec_cvol hs c k), clampVol_toNat k⟩, fun n => chan_of_channelWrite (exec_cft hs c n),
    chan_of_channelWrite (exec_csil hs c true), chan_of_channelWrite (exec_csil hs c false)⟩
  · obtain ⟨ch, hrun⟩ := run_pseudo_channelWrite hs his
    exact channelWrite_frame hs (ht.trans hrun)
  · have := d.isLt
    rw [idxOperand_toNat, BitVec.toNat_ofNat]
    omega

end Sys2Proof.Machine
end

section
/-! PROOFS. A tick that completes mixes the four channels (O54): what `GEN c` and `MIX c` together (R91) do to the generator buffer, then
the four channels in the order of R90. -/

namespace Sys2Proof.Machine

/-- A command that leaves the block running found it running (R191). -/
theorem running_of_after {i : Instr} {s : State} (h : (after i s).fault = false) : s.fault = false := by
  rw [← Bool.not_eq_true]
  intro hs
  rcases after_halted hs i with ⟨-, e⟩ | ⟨-, e⟩ <;> simp [e, hs] at h

/-- What the mixer stores is clipped (R152): the first writer's sample, or the sum. -/
theorem clippedSum_mixValue_first (cfg : Cfg) (old v : Rat) : ClippedSum cfg v (mixValue cfg false old v) :=
  ⟨fun h => if_pos h, fun h => if_neg (not_le.2 h)⟩

theorem clippedSum_mixValue_later (cfg : Cfg) (old v : Rat) : ClippedSum cfg (old + v) (mixValue cfg true old v) :=
  ⟨fun h => if_pos h, fun h => if_neg (not_le.2 h)⟩

/-- What `GEN c` and `MIX c` that complete leave (R91, R151): the samples of `c` stand on its side of the generator buffer, alone or on top
of what was there; the other side and the other channels are as before. -/
structure MixedIn (c : Chan) (s t : State) : Prop where
  cfg : t.cfg = s.cfg
  others : SameOtherChans c s t
  sw_own : t.sw (sideOf c) = true
  sw_other : ∀ d, d ≠ sideOf c → t.sw d = s.sw d
  length : t.genBuf.length = s.cfg.nout
  own : ∀ j, j < s.cfg.nout → (frameAt t.genBuf j).get (sideOf c) =
    mixValue s.cfg (s.sw (sideOf c)) ((frameAt s.genBuf j).get (sideOf c)) ((t.chan c).out.getD j 0)
  other : ∀ j, j < s.cfg.nout → ∀ d, d ≠ sideOf c → (frameAt t.genBuf j).get d = (frameAt s.genBuf j).get d

theorem after_gen_completes {s : State} {c : Chan} (h : (after (.gen c) s).fault = false) :
    ∃ ch, after (.gen c) s = (s.setChan c ch).answer .absent := by
  obtain ⟨ch, -, -, ⟨hgen, -⟩ | ⟨f, hgen, -⟩⟩ := exec_gen_cases (running_of_after h) c
  · exact ⟨ch, after_eq hgen⟩
  · simp [after_eq hgen] at h

theorem runch_mixedIn {s : State} {c : Chan} (h : (after (.mix c) (after (.gen c) s)).fault = false) :
    MixedIn c s (after (.mix c) (after (.gen c) s)) := by
  have hgen := running_of_after h
  obtain ⟨ch, e⟩ := after_gen_completes hgen
  rw [after_eq (exec_mix hgen c), e]
  constructor
  · simp
  · intro d hd
    simp [setChan_chan_other s ch hd]
  · simp
  · intro d hd
    simp [markSide_sw_other _ hd]
  · simp
  · intro j hj
    have hframe := frameAt_mixedBuf c ((s.setChan c ch).answer .absent) hj
    simp [hframe]
  · intro j hj d hd
    have hframe := frameAt_mixedBuf c ((s.setChan c ch).answer .absent) hj
    simp [hframe, frame_get_set_other _ _ hd]

/-- The first writer of a side (R151). -/
theorem MixedIn.clippedSum_first {c : Chan} {s t : State} (h : MixedIn c s t) (hsw : s.sw (sideOf c) = false) {j : Nat}
    (hj : j < s.cfg.nout) : ClippedSum s.cfg ((t.chan c).out.getD j 0) ((frameAt t.genBuf j).get (sideOf c)) := by
  rw [h.own j hj, hsw]
  exact clippedSum_mixValue_first ..

/-- A later writer of a side (R151). -/
theorem MixedIn.clippedSum_later {c : Chan} {s t : State} (h : MixedIn c s t) (hsw : s.sw (sideOf c) = true) {j : Nat}
    (hj : j < s.cfg.nout) : ClippedSum s.cfg ((frameAt s.genBuf j).get (sideOf c) + (t.chan c).out.getD j 0)
      ((frameAt t.genBuf j).get (sideOf c)) := by
  rw [h.own j hj, hsw]
  exact clippedSum_mixValue_later ..

/-- `SWAP` shows the buffer that was mixed (R154). -/
theorem after_swap_frontBuf {s : State} (hs : s.fault = false) : (after .swap s).frontBuf = s.genBuf := by
  rw [after_eq (exec_swap hs)]
  cases hg : s.g <;> simp [State.frontBuf, State.genBuf, hg]

/-- A tick that completes is the four `RUNCH` and `SWAP` (R90), each completing. -/
theorem tick_completes {s t : State} (ht : t = (runInputs (commandsOf pseudoTick) s).2) (hf : t.fault = false) :
    ∃ u0 u1 u2 u3, MixedIn 0 s u0 ∧ MixedIn 1 u0 u1 ∧ MixedIn 2 u1 u2 ∧ MixedIn 3 u2 u3 ∧ SameChans u3 t ∧ t.frontBuf = u3.genBuf := by
  rw [run_eq_foldl] at ht
  simp only [pseudoTick, pseudoRunch, List.cons_append, List.nil_append, List.foldl_cons, List.foldl_nil] at ht
  subst ht
  have h3 := running_of_after hf
  have h2 := running_of_after (running_of_after h3)
  have h1 := running_of_after (running_of_after h2)
  have h0 := running_of_after (running_of_after h1)
  exact ⟨_, _, _, _, runch_mixedIn h0, runch_mixedIn h1, runch_mixedIn h2, runch_mixedIn h3,
    fun _ => by rw [after_eq (exec_swap h3)]; rfl, after_swap_frontBuf h3⟩

/-- Settles O54: on the left channel 0 writes first and channel 3 adds to it, with channels 1 and 2 on the other side between them; on the
right channel 1 writes first and channel 2 adds to it. -/
theorem tickMixesTheFourChannels : Obligations.TickMixesTheFourChannels := by
  intro s t _ hl hr ht hf
  obtain ⟨u0, u1, u2, u3, m0, m1, m2, m3, hchan, hfront⟩ := tick_completes ht hf
  have c0 := m0.cfg
  have c1 := m1.cfg.trans c0
  have c2 := m2.cfg.trans c1
  rw [hfront, m3.length, c2]
  refine ⟨rfl, fun j hj => ⟨⟨(frameAt u0.genBuf j).left, ?_, ?_⟩, ⟨(frameAt u1.genBuf j).right, ?_, ?_⟩⟩⟩
  · rw [hchan, m3.others 0 (by decide), m2.others 0 (by decide), m1.others 0 (by decide)]
    exact m0.clippedSum_first hl hj
  · have hsw : u2.sw .left = true := by
      rw [m2.sw_other .left (by decide), m1.sw_other .left (by decide)]
      exact m0.sw_own
    have hkept : (frameAt u2.genBuf j).left = (frameAt u0.genBuf j).left :=
      (m2.other j (c1 ▸ hj) .left (by decide)).trans (m1.other j (c0 ▸ hj) .left (by decide))
    rw [hchan, ← hkept, ← c2]
    exact m3.clippedSum_later hsw (c2 ▸ hj)
  · have hsw : u0.sw .right = false := (m0.sw_other .right (by decide)).trans hr
    rw [hchan, m3.others 1 (by decide), m2.others 1 (by decide), ← c0]
    exact m1.clippedSum_first hsw (c0 ▸ hj)
  · have hkept : (frameAt u3.genBuf j).right = (frameAt u2.genBuf j).right := m3.other j (c2 ▸ hj) .right (by decide)
    rw [hchan, m3.others 2 (by decide), hkept, ← c1]
    exact m2.clippedSum_later m1.sw_own (c1 ▸ hj)

end Sys2Proof.Machine
end

section
/-! PROOFS. `LOADSMP` (O55): the descriptor writes and the pointer (R98), then one `PCMWR` per byte, by induction on the bytes. -/

namespace Sys2Proof.Machine

/-- The run of the commands takes `s` to `t`, and every command answers `(ok, absent)` (R12, R83). -/
def Completes (is : List Instr) (s t : State) : Prop :=
  (runInputs (commandsOf is) s).2 = t ∧ ∀ r ∈ (runInputs (commandsOf is) s).1, r = { status := .ok, data := .absent }

theorem Completes.nil (s : State) : Completes [] s s := ⟨rfl, nofun⟩

theorem Completes.cons {i : Instr} {is : List Instr} {s u t : State} (h : exec i s = .next (u.answer .absent))
    (hrun : Completes is (u.answer .absent) t) : Completes (i :: is) s t := by
  unfold Completes
  rw [runInputs_cons (Laws.decode_encode i), after_eq h]
  refine ⟨hrun.1, fun r hr => ?_⟩
  rcases List.mem_append.1 hr with hr | hr
  · simpa using hr
  · exact hrun.2 r hr

theorem Completes.append {is js : List Instr} {s u t : State} (h : Completes is s u) (hrun : Completes js u t) :
    Completes (is ++ js) s t := by
  induction is generalizing s with
  | nil =>
    obtain rfl : s = u := h.1
    exact hrun
  | cons i is ih =>
    unfold Completes at h ⊢
    rw [List.cons_append]
    rw [runInputs_cons (Laws.decode_encode i)] at h ⊢
    obtain ⟨htail, htailok⟩ := ih ⟨h.1, fun r hr => h.2 r (List.mem_append_right _ hr)⟩
    refine ⟨htail, fun r hr => ?_⟩
    rcases List.mem_append.1 hr with hr | hr
    · exact h.2 r (List.mem_append_left _ hr)
    · exact htailok r hr

/-- `PCMWR` on a running block: the byte at the pointer, and the pointer one on (R102). -/
def State.loadByte (s : State) (b : Byte) : State := { s.setPcmByte s.pcmptr b with pcmptr := s.pcmptr + 1#22 }

theorem exec_pcmwr_eq_loadByte {s : State} (hs : s.fault = false) (b : Byte) :
    exec (.pcmwr b) s = .next ((s.loadByte b).answer .absent) :=
  exec_pcmwr hs b

theorem loadByte_pcmByte_same {s : State} (hwf : Memory.wf s.cfg.initialByte s.pcm = true) (b : Byte) :
    (s.loadByte b).pcmByte s.pcmptr = b :=
  pcmByte_setPcmByte_same s s.pcmptr b hwf

theorem loadByte_pcmByte_other (s : State) (b : Byte) {a : BitVec 22} (ha : a ≠ s.pcmptr) : (s.loadByte b).pcmByte a = s.pcmByte a :=
  pcmByte_setPcmByte_other s b ha

theorem loadByte_pcmptr {s : State} (b : Byte) (h : s.pcmptr.toNat + 1 < 2 ^ 22) :
    (s.loadByte b).pcmptr.toNat = s.pcmptr.toNat + 1 := by
  show (s.pcmptr + 1#22).toNat = _
  rw [BitVec.toNat_add]
  exact Nat.mod_eq_of_lt h

/-- What the bytes of a sample loaded from address `base` on leave (R51, R102): the bytes in their places, every other byte, and all of the
state but PCM, its pointer and the response. -/
structure BytesLoaded (bytes : List Byte) (base : Nat) (s t : State) : Prop where
  inside : ∀ (a : BitVec 22) (i : Nat), a.toNat = base + i → i < bytes.length → t.pcmByte a = bytes.getD i 0#8
  outside : ∀ a : BitVec 22, a.toNat < base ∨ base + bytes.length ≤ a.toNat → t.pcmByte a = s.pcmByte a
  frame : t = { s with pcm := t.pcm, pcmptr := t.pcmptr, response := t.response }

theorem BytesLoaded.cons {bytes : List Byte} {b : Byte} {base : Nat} {s t : State} (hwf : Memory.wf s.cfg.initialByte s.pcm = true)
    (hbase : s.pcmptr.toNat = base) (h : BytesLoaded bytes (base + 1) ((s.loadByte b).answer .absent) t) :
    BytesLoaded (b :: bytes) base s t where
  inside a i ha hi := by
    cases i with
    | zero =>
      obtain rfl : a = s.pcmptr := BitVec.eq_of_toNat_eq (ha.trans hbase.symm)
      rw [h.outside _ (by omega), answer_pcmByte, loadByte_pcmByte_same hwf]
      rfl
    | succ i => exact h.inside a i (by omega) (by simpa using hi)
  outside a ha := by
    rw [List.length_cons] at ha
    have hne : a ≠ s.pcmptr := by
      rintro rfl
      omega
    rw [h.outside a (by omega), answer_pcmByte, loadByte_pcmByte_other s b hne]
  frame := by rw [h.frame]; rfl

/-- One `PCMWR` per byte loads the bytes from the pointer on, as long as the pointer does not wrap. -/
theorem pcmwr_loads (bytes : List Byte) {base : Nat} {s : State} (hs : s.fault = false)
    (hwf : Memory.wf s.cfg.initialByte s.pcm = true) (hbase : s.pcmptr.toNat = base) (hfit : base + bytes.length < 2 ^ 22) :
    ∃ t, Completes (bytes.map .pcmwr) s t ∧ BytesLoaded bytes base s t := by
  induction bytes generalizing s base with
  | nil => exact ⟨s, .nil s, nofun, fun _ _ => rfl, rfl⟩
  | cons b bytes ih =>
    rw [List.length_cons] at hfit
    have hptr : (s.loadByte b).pcmptr.toNat = base + 1 := hbase ▸ loadByte_pcmptr b (by omega)
    obtain ⟨t, hrun, hload⟩ := ih (s := (s.loadByte b).answer .absent) hs (wf_setPcmByte s s.pcmptr b hwf) hptr (by omega)
    exact ⟨t, .cons (exec_pcmwr_eq_loadByte hs b) hrun, .cons hwf hbase hload⟩

/-- The three descriptor writes of one slot set its whole descriptor and touch nothing else (R103 to R105). -/
theorem descriptor_written {s : State} (hs : s.fault = false) {k : Slot} (hk : k ≠ 0#5) (len lps lpl : BitVec 16) :
    ∃ t, Completes [.slen k len, .slps k lps, .slpl k lpl] s t ∧ t.desc? k = some { length := len, loopstart := lps, looplen := lpl } ∧
      (∀ l, l ≠ k → t.desc? l = s.desc? l) ∧ t = { s with descs := t.descs, response := t.response } := by
  obtain ⟨s1, d1, e1, -, new1, others1, frame1⟩ := exec_slen hs hk len
  have hs1 : (s1.answer .absent).fault = false := by rw [frame1]; exact hs
  obtain ⟨s2, d2, e2, old2, new2, others2, frame2⟩ := exec_slps hs1 hk lps
  have hs2 : (s2.answer .absent).fault = false := by rw [frame2]; exact hs1
  obtain ⟨s3, d3, e3, old3, new3, others3, frame3⟩ := exec_slpl hs2 hk lpl
  obtain rfl := Option.some.inj (new1.symm.trans old2)
  obtain rfl := Option.some.inj (new2.symm.trans old3)
  refine ⟨s3.answer .absent, .cons e1 (.cons e2 (.cons e3 (.nil _))), new3,
    fun l hl => (others3 l hl).trans ((others2 l hl).trans (others1 l hl)), ?_⟩
  rw [frame3, frame2, frame1]
  rfl

/-- Settles O55: the descriptor is written, the pointer stands at the slot's sample 0 (R51), and the bytes are loaded from there on; a sample
ends below the top of PCM, so the pointer does not wrap. -/
theorem loadsmpLoadsTheSample : Obligations.LoadsmpLoadsTheSample := by
  intro s t k len lps lpl bytes hs hwf hk hlen ht
  obtain ⟨u, hwritten, hdesc, hothers, hframe⟩ := descriptor_written hs hk len lps lpl
  have hu : u.fault = false := by rw [hframe]; exact hs
  have huwf : Memory.wf u.cfg.initialByte u.pcm = true := by rw [hframe]; exact hwf
  have hbase : (pcmAddr k 0#18).toNat = k.toNat * 131072 := by simp [pcmAddr_toNat]
  have hfit : k.toNat * 131072 + bytes.length < 2 ^ 22 := by
    have := k.isLt
    have := len.isLt
    omega
  obtain ⟨v, hrun, hload⟩ := pcmwr_loads bytes (s := { u with pcmptr := pcmAddr k 0#18 }.answer .absent) hu huwf
    hbase hfit
  obtain ⟨hv, hok⟩ := hwritten.append (.cons (exec_pcmptr hu _) hrun)
  obtain rfl : t = v := ht.trans hv
  have htdesc : ∀ l, t.desc? l = u.desc? l := fun l => by rw [hload.frame]; rfl
  refine ⟨hok, (htdesc k).trans hdesc, fun l hl => (htdesc l).trans (hothers l hl), hload.inside, fun a ha => ?_, ?_⟩
  · rw [hload.outside a ha, hframe]
    rfl
  · rw [hload.frame, hframe]
    exact ⟨fun _ => rfl, ⟨rfl, rfl, rfl, rfl, rfl⟩, rfl, rfl⟩

end Sys2Proof.Machine
end

section
/-! PROOFS. The configuration commands (O20 to O24): what the three shapes of write (the PCM port, a descriptor, a channel) set and what they
leave unchanged (R114). -/

namespace Sys2Proof.Laws

/-- The word with a command's number is that command. -/
theorem decode_of_encode_toNat {i : Instr} {n : Nat} (h : (encode i).toNat = n) : decode (BitVec.ofNat 32 n) = some i := by
  rw [← h, BitVec.ofNat_toNat, BitVec.setWidth_eq, decode_encode]

end Sys2Proof.Laws

namespace Sys2Proof.Machine

/-- Settles O20: the answer is the whole effect of `NOP`, and the refusal while halted that of every command but `STAT`. -/
theorem nopChangesNothing : Obligations.NopChangesNothing :=
  ⟨Laws.decode_of_encode_toNat Laws.EncodingNumber.nop, fun _ => ⟨exec_nop, fun hs => exec_halted hs nofun⟩⟩

/-- Settles O21: the word by its number (R78), and the equation of `PCMPTR`. -/
theorem pcmptrSetsThePointer : Obligations.PcmptrSetsThePointer :=
  fun a => ⟨Laws.decode_of_encode_toNat (Laws.EncodingNumber.pcmptr a), fun _ hs => exec_pcmptr hs a⟩

/-- `PCMWR` advances the pointer modulo the size of PCM (R102). -/
theorem loadByte_pcmptr_mod (s : State) (b : Byte) : (s.loadByte b).pcmptr.toNat = (s.pcmptr.toNat + 1) % 2 ^ 22 :=
  BitVec.toNat_add s.pcmptr 1#22

/-- Settles O22: `PCMWR` loads one byte, by the laws of PCM memory. -/
theorem pcmwrStoresAndAdvances : Obligations.PcmwrStoresAndAdvances := by
  refine fun b => ⟨Laws.decode_of_encode_toNat (Laws.EncodingNumber.pcmwr b), fun s hs hwf => ?_⟩
  exact ⟨_, exec_pcmwr_eq_loadByte hs b, loadByte_pcmByte_same hwf b, fun _ => loadByte_pcmByte_other s b, loadByte_pcmptr_mod s b,
    rfl, fun _ => rfl, fun _ => rfl, ⟨rfl, rfl, rfl, rfl, rfl⟩, ⟨rfl, rfl⟩, rfl, rfl⟩

/-- A descriptor write to a slot 1..31 with everything it leaves unchanged (R103 to R105, R114). -/
theorem writeDesc_frame {s : State} (hs : s.fault = false) {k : Slot} (hk : k ≠ 0#5) {d : Desc} (hd : s.desc? k = some d)
    (f : Desc → Desc) :
    ∃ t, writeDesc k f s = .next t ∧ t.desc? k = some (f d) ∧ (∀ l, l ≠ k → t.desc? l = s.desc? l) ∧ Answered t .absent ∧
      SameChans s t ∧ SamePcm s t ∧ t.pcmptr = s.pcmptr ∧ SameMixer s t ∧ SameStatus s t ∧ SamePorts s t := by
  obtain ⟨t, d', hexec, hold, hnew, hothers, hframe⟩ := writeDesc_running hs hk f
  obtain rfl : d = d' := Option.some.inj (hd.symm.trans hold)
  refine ⟨t.answer .absent, hexec, hnew, hothers, rfl, ?_⟩
  rw [hframe]
  exact ⟨fun _ => rfl, fun _ => rfl, rfl, ⟨rfl, rfl, rfl, rfl, rfl⟩, ⟨rfl, rfl⟩, rfl, rfl⟩

/-- Settles O23: each of the three commands is one `writeDesc`, of its own field. -/
theorem descriptorWritesSetOneField : Obligations.DescriptorWritesSetOneField := by
  intro s k v hs hk
  obtain ⟨d, hd⟩ := desc_isSome s hk
  exact ⟨d, hd, writeDesc_frame hs hk hd fun d => { d with length := v }, writeDesc_frame hs hk hd fun d => { d with loopstart := v },
    writeDesc_frame hs hk hd fun d => { d with looplen := v }⟩

/-- A channel register write is a write of its channel. -/
theorem exec_channelWrite {s : State} (hs : s.fault = false) {c : Chan} {i : Instr}
    (h : (∃ x, i = .csmp c x) ∨ (∃ x, i = .cper c x) ∨ (∃ x, i = .cft c x) ∨ (∃ x, i = .cvol c x) ∨ (∃ x, i = .cidx c x) ∨
      (∃ x, i = .csil c x) ∨ (∃ x, i = .cloop c x)) :
    ∃ ch, exec i s = .next ((s.setChan c ch).answer .absent) := by
  rcases h with ⟨x, rfl⟩ | ⟨x, rfl⟩ | ⟨x, rfl⟩ | ⟨x, rfl⟩ | ⟨x, rfl⟩ | ⟨x, rfl⟩ | ⟨x, rfl⟩
  · exact ⟨_, exec_csmp hs c x⟩
  · exact ⟨_, exec_cper hs c x⟩
  · exact ⟨_, exec_cft hs c x⟩
  · exact ⟨_, exec_cvol hs c x⟩
  · exact ⟨_, exec_cidx hs c x⟩
  · exact ⟨_, exec_csil hs c x⟩
  · exact ⟨_, exec_cloop hs c x⟩

theorem after_chan_of_channelWrite {i : Instr} {s : State} {c : Chan} {ch : Channel}
    (h : exec i s = .next ((s.setChan c ch).answer .absent)) : (after i s).chan c = ch := by
  rw [after_eq h, answer_chan, setChan_chan_same]

/-- Settles O24: each of the seven commands is one write of its channel, and what it wrote is read back. -/
theorem channelWritesSetOneRegister : Obligations.ChannelWritesSetOneRegister := by
  intro s c hs
  refine ⟨fun i hi => ?_, fun x => after_chan_of_channelWrite (exec_csmp hs c x),
    fun x => after_chan_of_channelWrite (exec_cper hs c x), fun x => after_chan_of_channelWrite (exec_cft hs c x), fun x => ?_,
    fun x => ?_, fun x => after_chan_of_channelWrite (exec_csil hs c x), fun x => after_chan_of_channelWrite (exec_cloop hs c x)⟩
  · obtain ⟨ch, hexec⟩ := exec_channelWrite hs hi
    obtain ⟨-, hothers, hdescs, hmixer⟩ := channelWrite_frame hs rfl
    exact ⟨_, hexec, rfl, hothers, hdescs, fun _ => rfl, rfl, hmixer, ⟨rfl, rfl⟩, rfl, rfl⟩
  · rw [after_chan_of_channelWrite (exec_cvol hs c x)]
    exact ⟨clampVol_toNat x, rfl⟩
  · rw [after_chan_of_channelWrite (exec_cidx hs c x)]
    exact ⟨idxOperand_toNat x, rfl⟩

end Sys2Proof.Machine
end

section
/-! PROOFS. The rate of a channel (O26): R120 and R121 with the power of the rationals. -/

namespace Sys2Proof.Machine

/-- A lower period gives a higher rate (R120). -/
theorem rate_strictAnti {cfg : Cfg} (h : cfg.Admissible) (f : Int) {p q : Nat} (hp : 0 < p) (hpq : p < q) :
    rate cfg q f < rate cfg p f := by
  obtain ⟨hclock, hbase, -⟩ := h
  have hp' : (0 : Rat) < p := by exact_mod_cast hp
  have hpq' : (p : Rat) < q := by exact_mod_cast hpq
  rw [rate_eq, rate_eq]
  gcongr

/-- Settles O26: the closed form of the rate (`rate_eq`), and the floor of a positive `need`. -/
theorem rateIsTheSpecFormula : Obligations.RateIsTheSpecFormula := by
  intro cfg h
  have ⟨hclock, hbase, _⟩ := h
  refine ⟨fun p f hp => ⟨rate_eq cfg p f, rate_pos f hclock hbase hp, fun q => rate_strictAnti h f hp⟩, fun ch hp => ?_⟩
  have hneed := tickNeed_pos h hp
  refine ⟨rate_eq .., rfl, hneed, fun hsec => ?_, tickCount_eq_floor hneed.le⟩
  rw [tickNeed, hsec, div_eq_mul_one_div (nativeRate cfg ch)]

end Sys2Proof.Machine
end

section
/-! PROOFS. The silent path of `GEN` (O28, O58) and the frame of `GEN` on every path (O29). -/

namespace Sys2Proof.Machine

/-- What `GEN` leaves of the bank of its channel: the host-written registers as they were, the two flags at most set. -/
structure GenKeeps (ch ch' : Channel) : Prop where
  smp : ch'.smp = ch.smp
  period : ch'.period = ch.period
  ft : ch'.ft = ch.ft
  vol : ch'.vol = ch.vol
  sil : ch.sil = true → ch'.sil = true
  loopact : ch.loopact = true → ch'.loopact = true

/-- What `GEN c` leaves of the state (R60): all but the bank of `c`, of which it keeps the above, the fault status and the response. -/
structure GenFrame (c : Chan) (s t : State) : Prop where
  chans : SameOtherChans c s t
  descs : SameDescs s t
  pcm : SamePcm s t
  pcmptr : t.pcmptr = s.pcmptr
  mixer : SameMixer s t
  ports : SamePorts s t
  bank : GenKeeps (s.chan c) (t.chan c)

section
variable {c : Chan} {s t : State}

theorem GenFrame.refl (c : Chan) (s : State) : GenFrame c s s :=
  ⟨fun _ _ => rfl, fun _ => rfl, fun _ => rfl, rfl, ⟨rfl, rfl, rfl, rfl, rfl⟩, ⟨rfl, rfl⟩, rfl, rfl, rfl, rfl, id, id⟩

theorem GenFrame.setChan {ch : Channel} (h : GenKeeps (s.chan c) ch) : GenFrame c s (s.setChan c ch) :=
  { GenFrame.refl c s with
    chans := fun _ hd => setChan_chan_other s ch hd
    bank := by rwa [setChan_chan_same] }

theorem GenFrame.answer (h : GenFrame c s t) (x : Data) : GenFrame c s (t.answer x) := { h with }

theorem GenFrame.raise (h : GenFrame c s t) (f : Fault) : GenFrame c s (t.raise f) := { h with }

theorem GenFrame.refuse (h : GenFrame c s t) : GenFrame c s t.refuse := { h with }

end

/-- The frame of `GEN c` on every path: it is refused, or it replaces the bank of `c` and then completes or halts. -/
theorem after_gen_frame (s : State) (c : Chan) : GenFrame c s (after (.gen c) s) := by
  rcases refused_or_shape (.gen c) s with e | shape
  · rw [e]
    exact (GenFrame.refl c s).refuse
  · generalize after (.gen c) s = t at shape ⊢
    cases shape with
    | gen _ ch sil loopact _ frame =>
      have hkeeps : GenKeeps (s.chan c) ch := ⟨by rw [frame], by rw [frame], by rw [frame], by rw [frame], sil, loopact⟩
      exact (GenFrame.setChan hkeeps).answer _
    | genHalts _ ch f sil loopact _ frame =>
      have hkeeps : GenKeeps (s.chan c) ch := ⟨by rw [frame], by rw [frame], by rw [frame], by rw [frame], sil, loopact⟩
      exact (GenFrame.setChan hkeeps).raise f
    | descWrite _ _ _ _ _ _ which => simp at which
    | channelWrite _ _ _ which => simp at which
    | outOfRange _ wf => cases wf

/-- Settles O29: whichever way `GEN` ends, it has written at most its bank, the fault status and the response. -/
theorem genTouchesOnlyItsChannel : Obligations.GenTouchesOnlyItsChannel := by
  intro s t c h
  obtain rfl := exec_eq_next.1 h
  obtain ⟨hchans, hdescs, hpcm, hptr, hmixer, hports, hbank⟩ := after_gen_frame s c
  exact ⟨hchans, hdescs, hpcm, hptr, hmixer, hports, hbank.smp, hbank.period, hbank.ft, hbank.vol, hbank.sil, hbank.loopact⟩

/-- Settles O28: the frame is that of every `GEN`, and the silent path writes zeros and the ratio 1. -/
theorem genSilentPath : Obligations.GenSilentPath := by
  intro s c hf hs
  have e := exec_gen_silent hf hs
  have frame := after_gen_frame s c
  rw [after_eq e] at frame
  refine ⟨_, e, rfl, ?_⟩
  rw [answer_chan, setChan_chan_same]
  exact ⟨List.length_replicate, fun _ => List.eq_of_mem_replicate, rfl, convSetRatio_ratio _ _ _, rfl,
    frame.chans, frame.descs, frame.pcm, frame.pcmptr, frame.mixer, ⟨rfl, rfl⟩, frame.ports⟩

/-- What a silenced channel keeps through any number of `GEN`s (R124): the block runs, `SIL` stays set and the position is frozen. -/
structure Silenced (c : Chan) (s t : State) : Prop where
  running : t.fault = false
  cfg : t.cfg = s.cfg
  sil : (t.chan c).sil = true
  idx : (t.chan c).idx = (s.chan c).idx
  rem : (t.chan c).rem = (s.chan c).rem

theorem Silenced.after_gen {c : Chan} {s t : State} (h : Silenced c s t) :
    after (.gen c) t = (t.setChan c (silentPath s.cfg (t.chan c))).answer .absent := by
  rw [after_eq (exec_gen_silent h.running (.inl h.sil)), h.cfg]

theorem Silenced.gen {c : Chan} {s t : State} (h : Silenced c s t) : Silenced c s (after (.gen c) t) := by
  rw [h.after_gen]
  exact ⟨h.running, h.cfg, by simpa [silentPath] using h.sil, by simpa [silentPath] using h.idx,
    by simpa [silentPath] using h.rem⟩

theorem silenced_iterate {c : Chan} {s : State} (hf : s.fault = false) (hs : (s.chan c).sil = true) :
    ∀ k, Silenced c s ((after (.gen c))^[k] s)
  | 0 => ⟨hf, rfl, hs, rfl, rfl⟩
  | k + 1 => by
    rw [Function.iterate_succ_apply']
    exact (silenced_iterate hf hs k).gen

/-- Settles O58: every `GEN` keeps the channel silenced (`silenced_iterate`), and the last one wrote zeros and the ratio 1. -/
theorem silencedChannelStaysSilent : Obligations.SilencedChannelStaysSilent := by
  intro s c k hf hs
  have h := silenced_iterate hf hs k
  refine ⟨h.running, h.sil, h.idx, h.rem, fun hk => ?_⟩
  obtain ⟨m, rfl⟩ := Nat.exists_eq_succ_of_ne_zero hk.ne'
  rw [Function.iterate_succ_apply', (silenced_iterate hf hs m).after_gen]
  simp [silentPath]

end Sys2Proof.Machine
end

section
/-! PROOFS. The synthesizer's part of an active `GEN`, for any converter: what a read loop that was not stopped leaves
(R122, R132, R182). -/

namespace Sys2Proof.Machine

/-- Beyond the samples written `RAW` is as it was (R126). -/
theorem overwrite_getD_ge {new old : List Rat} {i : Nat} (h : new.length ≤ i) :
    (new ++ old.drop new.length).getD i 0 = old.getD i 0 := by
  rw [List.getD_append_right _ _ _ _ h]
  simp [List.getD_eq_getElem?_getD, List.getElem?_drop, Nat.add_sub_cancel' h]

/-- The sample read at an index below the sample end is the byte there, scaled (R51, R53, R130). -/
theorem scaledAt_scaledSample (s : State) (c : Chan) {d : Desc} {i : Nat} (hi : i < d.send) :
    ScaledAt s c i (scaledSample s (s.chan c) (BitVec.ofNat 18 i)) := by
  intro a ha
  have hsend := d.send_le
  have hindex : (BitVec.ofNat 18 i).toNat % 131072 = i := by rw [BitVec.toNat_ofNat]; omega
  have haddr : pcmAddr (s.chan c).smp (BitVec.ofNat 18 i) = a := BitVec.eq_of_toNat_eq (by rw [pcmAddr_toNat, hindex, ha])
  rw [scaledSample, pcmf, haddr]
  rfl

/-- The read loop of `GEN c` on the slot with descriptor `d`. -/
def genReads (s : State) (c : Chan) (d : Desc) : ReadOut :=
  readLoop (scaledSample s (s.chan c)) d (tickCount s.cfg (s.chan c)) (s.chan c).cursor

/-- How an active `GEN` ends whose read loop gave `r` and was not stopped (R134, R182): the synthesizer's part is done, and the converter, given
its own state, the ratio and the samples of the tick, fails or answers. -/
inductive GenEnds (s : State) (c : Chan) (r : ReadOut) : State → Prop
  | failed (length : r.samples.length = tickCount s.cfg (s.chan c))
      (fails : convProcess s.cfg.conv (s.chan c).cv (tickRatio s.cfg (s.chan c)) r.samples s.cfg.nout = none) :
      GenEnds s c r ((s.setChan c (afterSynth s.cfg (s.chan c) r)).raise .convFail)
  | converted (length : r.samples.length = tickCount s.cfg (s.chan c)) (cv ys)
      (answers : convProcess s.cfg.conv (s.chan c).cv (tickRatio s.cfg (s.chan c)) r.samples s.cfg.nout = some (cv, ys)) :
      GenEnds s c r
        ((s.setChan c { afterSynth s.cfg (s.chan c) r with cv := cv, out := padOut s.cfg.round ys s.cfg.nout }).answer .absent)

/-- The inversion lemma of a `GEN` whose read loop was not stopped. -/
theorem after_gen_ends {s : State} {c : Chan} {d : Desc} (ha : Active s c d) (hn : tickCount s.cfg (s.chan c) ≤ s.cfg.rawcap)
    (hb : (genReads s c d).bounds = false) : GenEnds s c (genReads s c d) (after (.gen c) s) := by
  have hlen := (readLoop_length _ d _ (s.chan c).cursor).1 hb
  rw [after_eq (exec_gen_synth ha hn (r := genReads s c d) rfl hb)]
  cases hconv : convProcess s.cfg.conv (s.chan c).cv (tickRatio s.cfg (s.chan c)) (genReads s c d).samples s.cfg.nout with
  | none => exact .failed hlen hconv
  | some answer => exact .converted hlen _ _ hconv

namespace GenEnds

variable {s t : State} {c : Chan} {r : ReadOut}

theorem length (h : GenEnds s c r t) : r.samples.length = tickCount s.cfg (s.chan c) := by
  cases h <;> assumption

/-- Only `CV` and `OUT` of the bank depend on the converter. -/
theorem bank (h : GenEnds s c r t) :
    ∃ cv out, t.chan c = { afterSynth s.cfg (s.chan c) r with cv := cv, out := out } := by
  cases h with
  | failed => exact ⟨_, _, setChan_chan_same ..⟩
  | converted => exact ⟨_, _, setChan_chan_same ..⟩

theorem raw (h : GenEnds s c r t) : (t.chan c).raw = r.samples ++ (s.chan c).raw.drop r.samples.length := by
  obtain ⟨cv, out, e⟩ := h.bank
  rw [e, ← afterSynth_raw]

theorem rawn (h : GenEnds s c r t) : (t.chan c).rawn = tickCount s.cfg (s.chan c) := by
  obtain ⟨cv, out, e⟩ := h.bank
  rw [e, ← afterSynth_rawn]

theorem sil (h : GenEnds s c r t) : (t.chan c).sil = r.cur.sil := by
  obtain ⟨cv, out, e⟩ := h.bank
  rw [e, afterSynth_frame]

theorem loopact (h : GenEnds s c r t) : (t.chan c).loopact = r.cur.loopact := by
  obtain ⟨cv, out, e⟩ := h.bank
  rw [e, afterSynth_frame]

/-- The raw samples of the tick are the converter's input. -/
theorem raw_take (h : GenEnds s c r t) : (t.chan c).raw.take (tickCount s.cfg (s.chan c)) = r.samples := by
  rw [h.raw, ← h.length, List.take_left]

theorem raw_getD (h : GenEnds s c r t) {i : Nat} (hi : i < tickCount s.cfg (s.chan c)) :
    (t.chan c).raw.getD i 0 = r.samples.getD i 0 := by
  rw [h.raw, append_getD (h.length ▸ hi)]

theorem rawFilled (h : GenEnds s c r t) : RawFilled s t c :=
  ⟨h.rawn, fun i hi => by rw [h.raw, overwrite_getD_ge (h.length ▸ hi)]⟩

/-- Without zero fill the carry follows the read loop (R132). -/
theorem carriedFrom (h : GenEnds s c r t) (hz : r.cur.zf = false) {pos : Nat} (hpos : r.cur.idx.toNat = pos) :
    CarriedFrom s t c pos := by
  obtain ⟨cv, out, e⟩ := h.bank
  subst hpos
  rintro frac rfl
  obtain ⟨hstay, hfold⟩ := afterSynth_carry s.cfg (s.chan c) hz
  rw [e]
  exact ⟨fun hlt => ⟨congrArg _ (hstay hlt).1, (hstay hlt).2⟩, hfold⟩

/-- With zero fill the carry is skipped (R132). -/
theorem carry_skipped (h : GenEnds s c r t) (hz : r.cur.zf = true) :
    (t.chan c).idx = r.cur.idx ∧ (t.chan c).rem = (s.chan c).rem := by
  obtain ⟨cv, out, e⟩ := h.bank
  rw [e]
  simp [afterSynth, hz, Channel.afterReads]

theorem converterDecides (h : GenEnds s c r t) (hf : s.fault = false) : ConverterDecides s t c := by
  have htake := h.raw_take
  unfold ConverterDecides
  rw [htake]
  cases h with
  | failed _ fails =>
    refine ⟨fun hlin => ?_, ?_⟩
    · rw [hlin] at fails
      cases fails
    · rintro answer rfl
      exact ⟨fun hne => absurd fails hne, fun _ => ⟨rfl, rfl, rfl⟩⟩
  | converted _ cv ys answers =>
    refine ⟨fun _ => ⟨rfl, hf⟩, ?_⟩
    rintro answer rfl
    refine ⟨fun _ => ⟨rfl, hf⟩, fun hnone => ?_⟩
    cases answers.symm.trans hnone

end GenEnds

/-- A tick whose read loop is given in closed form. -/
theorem gen_synthesizes {s : State} {c : Chan} {d : Desc} {r : ReadOut} (ha : Active s c d)
    (hn : tickCount s.cfg (s.chan c) ≤ s.cfg.rawcap) (hr : genReads s c d = r) (hb : r.bounds = false) :
    ∃ t, exec (.gen c) s = .next t ∧ ConverterDecides s t c ∧ RawFilled s t c ∧ GenEnds s c r t := by
  subst hr
  have h := after_gen_ends ha hn hb
  exact ⟨_, exec_after _ _, h.converterDecides ha.running, h.rawFilled, h⟩

end Sys2Proof.Machine
end

section
/-! PROOFS. The ways a read loop that is not stopped goes: consecutive samples (O30), round an armed loop (O31), to the sample end and zeros (O32),
to the sample end and into the loop (O33). -/

namespace Sys2Proof.Machine

theorem range_map_getD {n i : Nat} (f : Nat → Rat) (h : i < n) : ((List.range n).map f).getD i 0 = f i := by
  simp [h]

theorem idx_toNat_ofNat {p : Nat} (h : p < 262144) : (BitVec.ofNat 18 p).toNat = p := by
  rw [BitVec.toNat_ofNat, Nat.mod_eq_of_lt h]

/-- The samples read one after the other from the read index on. -/
def samplesFrom (s : State) (c : Chan) (p m : Nat) : List Rat :=
  (List.range m).map fun i => scaledSample s (s.chan c) (BitVec.ofNat 18 (p + i))

@[simp] theorem samplesFrom_length (s : State) (c : Chan) (p m : Nat) : (samplesFrom s c p m).length = m := by
  simp [samplesFrom]

theorem scaledAt_samplesFrom (s : State) (c : Chan) {d : Desc} {p m i : Nat} (hi : i < m) (hd : p + i < d.send) :
    ScaledAt s c (p + i) ((samplesFrom s c p m).getD i 0) := by
  rw [samplesFrom, range_map_getD _ hi]
  exact scaledAt_scaledSample s c hd

/-- Samples read before a read loop that gives `r`. -/
def ReadOut.prepend (pre : List Rat) (r : ReadOut) : ReadOut := { r with samples := pre ++ r.samples }

theorem prepend_length (pre : List Rat) (r : ReadOut) : (r.prepend pre).samples.length = pre.length + r.samples.length :=
  List.length_append

theorem prepend_getD_lt {pre : List Rat} {r : ReadOut} {i : Nat} (h : i < pre.length) :
    (r.prepend pre).samples.getD i 0 = pre.getD i 0 := append_getD h

theorem prepend_getD_ge {pre : List Rat} {r : ReadOut} {i : Nat} (h : pre.length ≤ i) :
    (r.prepend pre).samples.getD i 0 = r.samples.getD (i - pre.length) 0 := List.getD_append_right _ _ _ _ h

/-- The cursor of the tick after reads up to the position `p` that met no end. -/
def cursorAt (s : State) (c : Chan) (p : Nat) : Cursor := { (s.chan c).cursor with idx := BitVec.ofNat 18 p }

/-- The first `m` turns of the tick, while they meet no end. -/
theorem genReads_run {s : State} {c : Chan} {d : Desc} {m n : Nat} (hN : tickCount s.cfg (s.chan c) = m + n)
    (h : ∀ i, i < m → (s.chan c).idx.toNat + i < (if (s.chan c).loopact then d.lend else d.send) ∧ (s.chan c).idx.toNat + i < d.send) :
    genReads s c d = (readLoop (scaledSample s (s.chan c)) d n (cursorAt s c ((s.chan c).idx.toNat + m))).prepend
      (samplesFrom s c (s.chan c).idx.toNat m) := by
  rw [genReads, hN]
  exact readLoop_run _ d m n (s.chan c).cursor rfl h

/-- The turns before the sample end when no loop is armed. -/
theorem genReads_run_unarmed {s : State} {c : Chan} {d : Desc} {n : Nat} (hl : (s.chan c).loopact = false)
    (hN : tickCount s.cfg (s.chan c) = d.send - (s.chan c).idx.toNat + n) :
    genReads s c d = (readLoop (scaledSample s (s.chan c)) d n (cursorAt s c (max (s.chan c).idx.toNat d.send))).prepend
      (samplesFrom s c (s.chan c).idx.toNat (d.send - (s.chan c).idx.toNat)) := by
  have hend : (s.chan c).idx.toNat + (d.send - (s.chan c).idx.toNat) = max (s.chan c).idx.toNat d.send := by omega
  rw [← hend]
  refine genReads_run hN fun i hi => ?_
  rw [hl, if_neg Bool.false_ne_true]
  omega

theorem cursorAt_idx (s : State) (c : Chan) {p : Nat} (h : p < 262144) : (cursorAt s c p).idx.toNat = p := idx_toNat_ofNat h

theorem cursorAt_send (s : State) (c : Chan) (d : Desc) :
    (cursorAt s c (max (s.chan c).idx.toNat d.send)).idx.toNat = max (s.chan c).idx.toNat d.send := by
  have := (s.chan c).idx.isLt
  have := d.send_le
  exact cursorAt_idx s c (by omega)

theorem send_le_cursorAt_send (s : State) (c : Chan) (d : Desc) :
    d.send ≤ (cursorAt s c (max (s.chan c).idx.toNat d.send)).idx.toNat := by
  rw [cursorAt_send]
  exact le_max_right ..

/-- Settles O30: the read loop is a run of consecutive samples, and the index stands `N` further. -/
theorem genPlaysConsecutiveSamples : Obligations.GenPlaysConsecutiveSamples := by
  intro s c d ha hn h
  have hreads := genReads_run (s := s) (c := c) (d := d) (n := 0) (Nat.add_zero _).symm fun i hi => by
    obtain ⟨hend, hsend⟩ := h.resolve_left (by omega)
    exact ⟨by omega, by omega⟩
  obtain ⟨t, hx, hdec, hfill, hends⟩ := gen_synthesizes ha hn hreads rfl
  refine ⟨t, hx, hdec, hfill, fun i hi => ?_, hends.sil, hends.loopact, ?_⟩
  · rw [hends.raw_getD hi, prepend_getD_lt (by rwa [samplesFrom_length])]
    exact scaledAt_samplesFrom s c (d := d) hi (by omega)
  · refine hends.carriedFrom rfl (cursorAt_idx s c ?_)
    have := (s.chan c).idx.isLt
    have := d.send_le
    omega

/-! The walk round the loop, in the words of R128. -/

theorem loopPos_of_lt {d : Desc} {p i : Nat} (h : p + i < d.lend) : loopPos d p i = p + i := if_pos h

theorem loopPos_of_le {d : Desc} {p i : Nat} (h : d.lend ≤ p + i) :
    loopPos d p i = d.lbeg + (p + i - d.lend) % max 1 (2 * d.looplen.toNat) := if_neg (Nat.not_lt.2 h)

/-- From the loop start the walk goes round from the first turn on. -/
theorem loopPos_lbeg {d : Desc} (hL : 0 < d.looplen.toNat) (i : Nat) : loopPos d d.lbeg i = d.lbeg + i % (2 * d.looplen.toNat) := by
  have hend := d.lend_eq
  rcases Nat.lt_or_ge (d.lbeg + i) d.lend with h | h
  · rw [loopPos_of_lt h, Nat.mod_eq_of_lt (by omega)]
  · rw [loopPos_of_le h, Nat.max_eq_right (by omega), Nat.mod_eq_sub_mod (a := i) (by omega)]
    congr 2
    omega

/-- The walk of the read loop (`readLoop_loop`) with its starting point named. -/
theorem readLoop_loop_from (sample : BitVec 18 → Rat) {d : Desc} {cur : Cursor} {p : Nat} (hin : d.lend ≤ d.send) (hb : d.lbeg < d.send)
    (hz : cur.zf = false) (hl : cur.loopact = true) (hp : p = if d.lend ≤ cur.idx.toNat then d.lbeg else cur.idx.toNat) (n : Nat) :
    (readLoop sample d n cur).samples = (List.range n).map (fun i => sample (BitVec.ofNat 18 (loopPos d p i))) ∧
    (readLoop sample d n cur).bounds = false ∧ (readLoop sample d n cur).cur.zf = false ∧
    (readLoop sample d n cur).cur.loopact = true ∧ (readLoop sample d n cur).cur.sil = cur.sil ∧
    (readLoop sample d n cur).cur.idx.toNat = if n = 0 then cur.idx.toNat else loopPos d p (n - 1) + 1 :=
  hp ▸ readLoop_loop sample d hin hb n cur hz hl

/-- Settles O31: with the loop armed and inside the sample the read loop walks round it (`readLoop_loop`). -/
theorem genPlaysTheLoop : Obligations.GenPlaysTheLoop := by
  intro s c d p n ha hn hcap hl hin hb hp
  subst hn
  obtain ⟨hsamples, hbounds, hzf, hact, hsil, hidx⟩ := readLoop_loop_from (scaledSample s (s.chan c)) (cur := (s.chan c).cursor)
    hin hb rfl hl hp (tickCount s.cfg (s.chan c))
  obtain ⟨t, hx, hdec, hfill, hends⟩ := gen_synthesizes ha hcap rfl hbounds
  have hcarry := hends.carriedFrom hzf hidx
  refine ⟨t, hx, hdec, hfill, fun i hi => ?_, hends.sil.trans hsil, hends.loopact.trans hact, ?_, ?_, ?_⟩
  · have hraw : ScaledAt s c (loopPos d p i) ((t.chan c).raw.getD i 0) := by
      rw [hends.raw_getD hi, genReads, hsamples, range_map_getD _ hi]
      exact scaledAt_scaledSample s c (loopPos_lt hin hb p i)
    exact ⟨fun h => loopPos_of_lt h ▸ hraw, fun h => loopPos_of_le h ▸ hraw⟩
  · intro h0
    rwa [if_pos h0] at hcarry
  · intro h1 hle
    rwa [if_neg (by omega), loopPos_of_lt (by omega), Nat.add_assoc, Nat.sub_add_cancel h1] at hcarry
  · intro hlt
    have hpe : p ≤ d.lend := by
      have := d.lend_eq
      split at hp <;> omega
    rwa [if_neg (by omega), loopPos_of_le (by omega), ← Nat.add_sub_assoc (by omega)] at hcarry

/-- Settles O32: the read loop runs to the sample end, and the rest is zero fill (`readLoop_fill`). -/
theorem genZeroFillsAtSampleEnd : Obligations.GenZeroFillsAtSampleEnd := by
  intro s c d ha hn hl hL h1 hend
  obtain ⟨n, hN⟩ : ∃ n, tickCount s.cfg (s.chan c) = d.send - (s.chan c).idx.toNat + (n + 1) :=
    Nat.exists_eq_add_of_lt (by omega)
  have hreads := genReads_run_unarmed hl hN
  rw [readLoop_fill _ n rfl hl hL (send_le_cursorAt_send s c d)] at hreads
  obtain ⟨t, hx, hdec, hfill, hends⟩ := gen_synthesizes ha hn hreads rfl
  obtain ⟨hidx, hrem⟩ := hends.carry_skipped rfl
  refine ⟨t, hx, hdec, hfill, fun i hi => ⟨fun hlt => ?_, fun hge => ?_⟩, hends.sil, hends.loopact.trans hl,
    (congrArg BitVec.toNat hidx).trans (cursorAt_send s c d), hrem⟩
  · rw [hends.raw_getD hi, prepend_getD_lt (by rw [samplesFrom_length]; omega)]
    exact scaledAt_samplesFrom s c (d := d) (by omega) hlt
  · rw [hends.raw_getD hi, prepend_getD_ge (by rw [samplesFrom_length]; omega)]
    exact List.getD_replicate _ (by rw [samplesFrom_length]; omega)

/-- Settles O33: the read loop runs to the sample end, the loop is armed there (`readLoop_arm`), and the tick goes on round the loop. -/
theorem genArmsTheLoopAtSampleEnd : Obligations.GenArmsTheLoopAtSampleEnd := by
  intro s c d n ha hn hcap hl hL hin h1 hend
  subst hn
  have hloop : d.lbeg < d.send ∧ d.lend ≤ d.send := by
    simp only [Desc.lbeg, Desc.send, Desc.lend]
    omega
  obtain ⟨hb, hinside⟩ := hloop
  obtain ⟨n, hN⟩ : ∃ n, tickCount s.cfg (s.chan c) = d.send - (s.chan c).idx.toNat + (n + 1) :=
    Nat.exists_eq_add_of_lt (by omega)
  have hreads := genReads_run_unarmed hl hN
  rw [readLoop_arm _ n rfl hl hL (send_le_cursorAt_send s c d)] at hreads
  obtain ⟨hsamples, hbounds, hzf, hact, hsil, hidx⟩ := readLoop_loop_from (scaledSample s (s.chan c)) (p := d.lbeg)
    (cur := { cursorAt s c (max (s.chan c).idx.toNat d.send) with loopact := true, idx := BitVec.ofNat 18 d.lbeg }) hinside hb rfl rfl
    (by simp only [Desc.lbeg_toNat, ite_self]) (n + 1)
  obtain ⟨t, hx, hdec, hfill, hends⟩ := gen_synthesizes ha hcap hreads hbounds
  refine ⟨t, hx, hdec, hfill, fun i hi => ⟨fun hlt => ?_, fun hge => ?_⟩, hends.sil.trans hsil, hends.loopact.trans hact, ?_⟩
  · rw [hends.raw_getD hi, prepend_getD_lt (by rw [samplesFrom_length]; omega)]
    exact scaledAt_samplesFrom s c (d := d) (by omega) hlt
  · have hlt : i - (d.send - (s.chan c).idx.toNat) < n + 1 := by omega
    rw [hends.raw_getD hi, prepend_getD_ge (by rw [samplesFrom_length]; omega), samplesFrom_length, hsamples,
      range_map_getD _ hlt, ← loopPos_lbeg (by omega)]
    exact scaledAt_scaledSample s c (loopPos_lt hinside hb _ _)
  · have hcarry := hends.carriedFrom hzf hidx
    rw [if_neg (Nat.succ_ne_zero n), loopPos_lbeg (by omega)] at hcarry
    rwa [hN, Nat.add_sub_assoc (by omega), Nat.add_sub_cancel_left]

end Sys2Proof.Machine
end

section
/-! PROOFS. The end of `GEN` for any converter: it completes when the loop lies inside the sample (O34), and what it does with the converter's
answer (O38). -/

namespace Sys2Proof.Machine

/-- A loop inside the sample: the read loop is not stopped (R131). -/
theorem after_gen_ends_of_loopInside {s : State} {c : Chan} {d : Desc} (ha : Active s c d)
    (hn : tickCount s.cfg (s.chan c) ≤ s.cfg.rawcap) (hin : LoopInside d (s.chan c).loopact) :
    GenEnds s c (genReads s c d) (after (.gen c) s) :=
  after_gen_ends ha hn (readLoop_inside _ d _ _ hin)

/-- Settles O34: the read loop is not stopped and the reference converter answers, so `GEN` answers; the carry keeps the ranges. -/
theorem genCompletesWhenLoopInside : Obligations.GenCompletesWhenLoopInside := by
  intro s c d ha hc hn hin
  refine ⟨_, exec_after _ _, ?_⟩
  have h := after_gen_ends_of_loopInside ha hn hin
  generalize after (.gen c) s = t at h
  cases h with
  | failed _ fails => rw [hc] at fails; cases fails
  | converted _ cv ys answers =>
    rw [answer_chan, setChan_chan_same]
    exact ⟨rfl, ⟨rfl, rfl⟩, afterSynth_rawn .., padOut_length .., convProcess_ratio answers,
      afterSynth_bounds s.cfg (s.chan c) d _, fun h0 h1 hcfg => afterSynth_rem _ _ _ h0 h1 (tickNeed_pos hcfg ha.period_ne).le⟩

/-- Settles O38: the tick's raw samples are what the converter was given, and its answer decides how `GEN` ends. -/
theorem genPadsAnyConverterOutput : Obligations.GenPadsAnyConverterOutput := by
  intro s t c d answer ha hn hin hx hans
  obtain rfl := exec_eq_next.1 hx
  have h := after_gen_ends_of_loopInside ha hn hin
  rw [h.raw_take] at hans
  clear hx
  generalize after (.gen c) s = t at h
  cases h with
  | failed _ fails =>
    obtain rfl : answer = none := hans.trans fails
    refine ⟨fun _ => ⟨rfl, rfl, rfl, ?_⟩, nofun⟩
    rw [raise_chan, setChan_chan_same, afterSynth_frame]
    exact ⟨rfl, rfl⟩
  | converted _ cv ys answers =>
    obtain rfl : answer = some (cv, ys) := hans.trans answers
    refine ⟨nofun, ?_⟩
    rintro _ _ ⟨⟩
    rw [answer_chan, setChan_chan_same]
    have hcount := convProcess_count answers
    refine ⟨ha.running, rfl, rfl, hcount, padOut_length .., fun j hj => ?_, fun j hj hnout => ⟨fun h0 => ?_, fun h0 => ?_⟩⟩
    · exact (padOut_getD _ _ (by omega)).trans (if_pos hj)
    · exact (padOut_getD _ _ hnout).trans ((if_neg (by omega)).trans (if_pos h0))
    · exact (padOut_getD _ _ hnout).trans ((if_neg (by omega)).trans (if_neg (by omega)))

end Sys2Proof.Machine
end

section
/-! PROOFS. The reference converter (R140): its frames (O40, O41), and the output of a `GEN` that uses it (O39, O42, O43). -/

namespace Sys2Proof.Machine

/-! Positions and counts as natural floors and ceilings. -/

theorem rat_floor_toNat (x : Rat) : x.floor.toNat = ⌊x⌋₊ := Int.floor_toNat x

theorem rat_ceil_toNat (x : Rat) : x.ceil.toNat = ⌈x⌉₊ := by
  rw [Rat.ceil_eq_neg_floor_neg]
  exact Int.ceil_toNat x

theorem linCount_eq (r : Rat) (n nout : Nat) : linCount r n nout = min nout ⌈(n : Rat) * r⌉₊ := by
  rw [linCount, rat_ceil_toNat]

/-- No frame is made of no sample. -/
theorem length_pos_of_lt_linCount {r : Rat} {j n nout : Nat} (h : j < linCount r n nout) : 0 < n := by
  refine Nat.pos_of_ne_zero fun h0 => ?_
  simp [h0, linCount_eq] at h

/-! One frame. -/

section
variable {r : Rat} {xs : List Rat} {j : Nat}

theorem linFrame_inside {p : Rat} {i : Nat} (hp : p = (j : Rat) / r) (hi : i = p.floor.toNat) (h : i + 1 < xs.length) :
    linFrame r xs j = xs.getD i 0 + (p - (i : Rat)) * (xs.getD (i + 1) 0 - xs.getD i 0) := by
  subst hp hi
  exact if_pos h

theorem linFrame_last {i : Nat} (hi : i = ((j : Rat) / r).floor.toNat) (h : xs.length ≤ i + 1) :
    linFrame r xs j = xs.getD (xs.length - 1) 0 := by
  subst hi
  exact if_neg (Nat.not_lt.2 h)

theorem getD_mem_range {lo hi : Rat} (h : ∀ x ∈ xs, lo ≤ x ∧ x ≤ hi) {i : Nat} (hlt : i < xs.length) :
    lo ≤ xs.getD i 0 ∧ xs.getD i 0 ≤ hi := by
  rw [List.getD_eq_getElem _ _ hlt]
  exact h _ (List.getElem_mem hlt)

/-- Between two values in a range there are only values in that range. -/
theorem interpolated_mem_range {lo hi a b f : Rat} (ha : lo ≤ a ∧ a ≤ hi) (hb : lo ≤ b ∧ b ≤ hi) (hf0 : 0 ≤ f) (hf1 : f ≤ 1) :
    lo ≤ a + f * (b - a) ∧ a + f * (b - a) ≤ hi := by
  have hf1' := sub_nonneg.2 hf1
  constructor
  · linarith [mul_nonneg hf1' (sub_nonneg.2 ha.1), mul_nonneg hf0 (sub_nonneg.2 hb.1)]
  · linarith [mul_nonneg hf1' (sub_nonneg.2 ha.2), mul_nonneg hf0 (sub_nonneg.2 hb.2)]

/-- A frame lies between the bounds of the samples (R141 (b)). -/
theorem linFrame_range {lo hi : Rat} (hr : 0 < r) (h : ∀ x ∈ xs, lo ≤ x ∧ x ≤ hi) (hpos : 0 < xs.length) (j : Nat) :
    lo ≤ linFrame r xs j ∧ linFrame r xs j ≤ hi := by
  rcases Nat.lt_or_ge (((j : Rat) / r).floor.toNat + 1) xs.length with hin | hlast
  · have hp : 0 ≤ (j : Rat) / r := by positivity
    have hle := Nat.floor_le hp
    have hlt := Nat.lt_floor_add_one ((j : Rat) / r)
    rw [linFrame_inside rfl rfl hin, rat_floor_toNat]
    rw [rat_floor_toNat] at hin
    exact interpolated_mem_range (getD_mem_range h (Nat.lt_of_succ_lt hin)) (getD_mem_range h hin) (by linarith) (by linarith)
  · rw [linFrame_last rfl hlast]
    exact getD_mem_range h (by omega)

/-- At ratio 1 a frame is the sample it sits at. -/
theorem linFrame_one (h : j < xs.length) : linFrame 1 xs j = xs.getD j 0 := by
  have hpos : ((j : Rat) / 1).floor.toNat = j := by
    rw [div_one, rat_floor_toNat, Nat.floor_natCast]
  rcases Nat.lt_or_ge (j + 1) xs.length with hin | hlast
  · rw [linFrame_inside rfl hpos.symm hin]
    simp
  · rw [linFrame_last hpos.symm hlast]
    congr
    omega

end

/-- Settles O40: at ratio 1 there are as many frames as samples, and each sits on its sample (`linFrame_one`). -/
theorem ratioOneIsIdentity : Obligations.RatioOneIsIdentity := by
  intro xs nout
  have hcount : linCount 1 xs.length nout = min nout xs.length := by
    rw [linCount_eq, mul_one, Nat.ceil_natCast]
  refine List.ext_getElem (by simp [hcount]) fun j hj _ => ?_
  rw [convLin_length, hcount] at hj
  have hframe := linFrame_one (xs := xs) (j := j) (by omega)
  simpa [convLin, List.getElem?_eq_getElem (show j < xs.length by omega)] using hframe

/-- Settles O41: every frame lies in the range of the samples (`linFrame_range`). -/
theorem interpolationStaysInRange : Obligations.InterpolationStaysInRange := by
  intro r xs nout lo hi hr h y hy
  obtain ⟨j, hj, rfl⟩ := List.mem_map.1 hy
  exact linFrame_range hr h (length_pos_of_lt_linCount (List.mem_range.1 hj)) j

/-! The output: the frames made, each rounded, and the pad (R134). -/

section
variable {rnd : Rat → Rat} {r : Rat} {xs : List Rat} {nout j : Nat}

theorem linCount_le (r : Rat) (n nout : Nat) : linCount r n nout ≤ nout := Nat.min_le_left ..

theorem output_made (h : j < linCount r xs.length nout) :
    (padOut rnd (convLin r xs nout) nout).getD j 0 = rnd (linFrame r xs j) := by
  rw [padOut_getD _ _ (h.trans_le (linCount_le ..)), convLin_length, if_pos h, convLin_getD _ _ h]

theorem output_pad (h : linCount r xs.length nout ≤ j) (hj : j < nout) (hmade : 0 < linCount r xs.length nout) :
    (padOut rnd (convLin r xs nout) nout).getD j 0 = rnd (linFrame r xs (linCount r xs.length nout - 1)) := by
  rw [padOut_getD _ _ hj, convLin_length, if_neg (Nat.not_lt.2 h), if_pos hmade, convLin_getD _ _ (Nat.sub_one_lt hmade.ne')]

theorem output_none (h : linCount r xs.length nout = 0) (hj : j < nout) : (padOut rnd (convLin r xs nout) nout).getD j 0 = 0 := by
  rw [padOut_getD _ _ hj, convLin_length, h, if_neg (Nat.not_lt_zero j), if_neg (Nat.lt_irrefl 0)]

end

/-- What a completed active `GEN` with the reference converter leaves (R133, R134, R140): `xs` are the raw samples of the tick. -/
structure LinearOutput (s t : State) (c : Chan) (xs : List Rat) : Prop where
  count : xs.length = tickCount s.cfg (s.chan c)
  rawn : (t.chan c).rawn = xs.length
  raw : ∀ i, i < xs.length → (t.chan c).raw.getD i 0 = xs.getD i 0
  ratio : (t.chan c).cv.ratio = tickRatio s.cfg (s.chan c)
  out : (t.chan c).out = padOut s.cfg.round (convLin (tickRatio s.cfg (s.chan c)) xs s.cfg.nout) s.cfg.nout

theorem linearOutput {s t : State} {c : Chan} {d : Desc} (ha : Active s c d) (hc : s.cfg.conv = .linear)
    (hx : exec (.gen c) s = .next t) (hft : t.fault = false) : LinearOutput s t c (genReads s c d).samples := by
  obtain ⟨r, rfl, -, -, hlen, hrawn, hraw, hratio, hout, -⟩ := gen_linear_inv ha hc hx hft
  exact ⟨hlen, hrawn.trans hlen.symm, fun i hi => hraw i (hlen ▸ hi), hratio, hout⟩

/-- Settles O39: the frames made are interpolated between raw samples (`linFrame_inside`, `linFrame_last`), the others repeat the last one. -/
theorem genOutputIsInterpolated : Obligations.GenOutputIsInterpolated := by
  intro s t c d r g ha hc hx hft hr hg
  obtain rfl : r = tickRatio s.cfg (s.chan c) := hr
  obtain ⟨-, hrawn, hraw, hratio, hout⟩ := linearOutput ha hc hx hft
  generalize (genReads s c d).samples = xs at hrawn hraw hout
  rw [hrawn] at hg ⊢
  rw [hout]
  obtain rfl : g = linCount (tickRatio s.cfg (s.chan c)) xs.length s.cfg.nout := hg
  refine ⟨padOut_length .., hratio, fun j i p hj hp hi => ⟨fun hin => ?_, fun hlast => ?_⟩, fun j hj hnout => ⟨fun h0 => ?_, fun h0 => ?_⟩⟩
  · rw [output_made hj, linFrame_inside hp hi hin, hraw i (by omega), hraw (i + 1) hin]
  · have hpos := length_pos_of_lt_linCount hj
    rw [output_made hj, linFrame_last (hp ▸ hi) hlast, hraw _ (by omega)]
  · rw [output_pad hj hnout h0, output_made (by omega)]
  · exact output_none h0 hnout

/-! The pad (R141 (e)). -/

/-- Where the converter makes fewer frames than asked for, the ratio is at least 1: below it the tick has at least `NOUT` samples' worth of
frames. -/
theorem one_le_tickRatio_of_pad {cfg : Cfg} {ch : Channel} (h : cfg.Admissible) (hp : ch.period ≠ 0#12)
    (hpad : linCount (tickRatio cfg ch) (tickCount cfg ch) cfg.nout < cfg.nout) : 1 ≤ tickRatio cfg ch := by
  have hrate := nativeRate_pos h hp
  have hratio := tickRatio_pos h hp
  have hframes : tickNeed cfg ch * tickRatio cfg ch = cfg.outputRate * cfg.tickSec := by
    rw [tickNeed, tickRatio]
    field_simp
  have hnout : (cfg.nout : Rat) ≤ cfg.outputRate * cfg.tickSec := by
    obtain ⟨-, -, -, -, hframe, -⟩ := h
    rw [Cfg.nout, rat_floor_toNat]
    exact Nat.floor_le (zero_le_one.trans hframe)
  have hmade : (tickCount cfg ch : Rat) * tickRatio cfg ch ≤ (cfg.nout : Rat) - 1 := by
    rw [linCount_eq, min_lt_iff, or_iff_right (lt_irrefl _)] at hpad
    have hceil : (⌈(tickCount cfg ch : Rat) * tickRatio cfg ch⌉₊ : Rat) + 1 ≤ cfg.nout := by exact_mod_cast hpad
    linarith [Nat.le_ceil ((tickCount cfg ch : Rat) * tickRatio cfg ch)]
  obtain ⟨-, hcount⟩ := tickCount_spec (tickNeed_pos h hp).le
  have hless : tickNeed cfg ch * tickRatio cfg ch < (tickCount cfg ch + 1) * tickRatio cfg ch := mul_lt_mul_of_pos_right hcount hratio
  linarith

/-- With a ratio of at least 1 and fewer frames than asked for, the last frame made sits at the last sample or beyond. -/
theorem last_frame_made {r : Rat} {xs : List Rat} {nout : Nat} (hr : 1 ≤ r) (hpad : linCount r xs.length nout < nout)
    (hmade : 0 < linCount r xs.length nout) :
    linFrame r xs (linCount r xs.length nout - 1) = xs.getD (xs.length - 1) 0 := by
  have hr0 : 0 < r := zero_lt_one.trans_le hr
  refine linFrame_last rfl ?_
  have hcount : (xs.length : Rat) * r ≤ linCount r xs.length nout := by
    rw [linCount_eq, min_lt_iff, or_iff_right (lt_irrefl _)] at hpad
    rw [linCount_eq, min_eq_right hpad.le]
    exact Nat.le_ceil _
  have hpos : (xs.length : Rat) - 1 ≤ ((linCount r xs.length nout - 1 : Nat) : Rat) / r := by
    rw [le_div_iff₀ hr0, Nat.cast_sub hmade, Nat.cast_one]
    linarith
  rw [rat_floor_toNat, ← Nat.sub_le_iff_le_add]
  refine Nat.le_floor (le_trans ?_ hpos)
  rw [Nat.cast_sub (length_pos_of_lt_linCount hmade), Nat.cast_one]

/-- A tick with a raw sample makes at least one frame. -/
theorem linCount_pos {r : Rat} {n nout : Nat} (hr : 0 < r) (hn : 0 < n) (hnout : 0 < nout) : 0 < linCount r n nout := by
  have hn' : (0 : Rat) < n := by exact_mod_cast hn
  rw [linCount_eq]
  exact lt_min hnout (Nat.ceil_pos.2 (mul_pos hn' hr))

/-- Settles O42: padding needs a ratio of at least 1, and then the last frame made is the last raw sample. -/
theorem padIsTheLastRawSample : Obligations.PadIsTheLastRawSample := by
  intro s t c d ha hcfg hc hrnd hx hft j hj hnout
  obtain ⟨hcount, hrawn, hraw, -, hout⟩ := linearOutput ha hc hx hft
  generalize (genReads s c d).samples = xs at hcount hrawn hraw hout
  rw [hrawn] at hj ⊢
  rw [hout]
  change linCount (tickRatio s.cfg (s.chan c)) xs.length s.cfg.nout ≤ j at hj
  have hpad := hj.trans_lt hnout
  have hratio : 1 ≤ tickRatio s.cfg (s.chan c) := one_le_tickRatio_of_pad hcfg ha.period_ne (hcount ▸ hpad)
  refine ⟨hratio, fun h0 => ?_, fun h0 => ?_⟩
  · have hmade := linCount_pos (zero_lt_one.trans_le hratio) h0 (Nat.zero_lt_of_lt hnout)
    rw [output_pad hj hnout hmade, cfg_round_identity hrnd, last_frame_made hratio hpad hmade, hraw _ (by omega)]
  · refine output_none (Nat.eq_zero_of_not_pos fun hmade => ?_) hnout
    exact (length_pos_of_lt_linCount hmade).ne' h0

/-! The headroom (R142). -/

/-- A PCM byte over 128 lies between -1 and 1 (R53). -/
theorem pcmf_range (s : State) (k : Slot) (i : BitVec 18) : -1 ≤ pcmf s k i ∧ pcmf s k i ≤ 1 := by
  have hlow : (-128 : Rat) ≤ ((s.pcmByte (pcmAddr k i)).toInt : Rat) := by
    exact_mod_cast BitVec.le_toInt (s.pcmByte (pcmAddr k i))
  have hhigh : ((s.pcmByte (pcmAddr k i)).toInt : Rat) ≤ 128 := by
    have : (s.pcmByte (pcmAddr k i)).toInt ≤ 128 := by
      have := BitVec.toInt_lt (x := s.pcmByte (pcmAddr k i))
      omega
    exact_mod_cast this
  rw [pcmf, pcmScale]
  constructor <;> linarith

/-- The greatest value of an output sample: headroom times volume. -/
def volumeBound (s : State) (c : Chan) : Rat := s.cfg.headroom * (((s.chan c).vol.toNat : Rat) / 64)

theorem volumeBound_nonneg {s : State} (h : s.cfg.Admissible) (c : Chan) : 0 ≤ volumeBound s c := by
  obtain ⟨-, -, hhead, -⟩ := h
  unfold volumeBound
  positivity

theorem scaledSample_range {s : State} (h : s.cfg.Admissible) (hrnd : s.cfg.rnd = .identity) (c : Chan) (i : BitVec 18) :
    -volumeBound s c ≤ scaledSample s (s.chan c) i ∧ scaledSample s (s.chan c) i ≤ volumeBound s c := by
  obtain ⟨hlow, hhigh⟩ := pcmf_range s (s.chan c).smp i
  have hbound := volumeBound_nonneg h c
  have e : scaledSample s (s.chan c) i = pcmf s (s.chan c).smp i * volumeBound s c := by
    rw [scaledSample, scale, cfg_round_identity hrnd, volumeBound]
    ring
  rw [e]
  constructor <;> nlinarith

theorem genReads_range {s : State} (h : s.cfg.Admissible) (hrnd : s.cfg.rnd = .identity) (c : Chan) (d : Desc) :
    ∀ x ∈ (genReads s c d).samples, -volumeBound s c ≤ x ∧ x ≤ volumeBound s c := by
  intro x hx
  rcases readLoop_samples _ d _ _ x hx with rfl | ⟨i, -, rfl⟩
  · have := volumeBound_nonneg h c
    constructor <;> linarith
  · exact scaledSample_range h hrnd c i

/-- A sample of the output is a frame the converter made, rounded, or zero (R134). -/
theorem mem_padOut {rnd : Rat → Rat} {ys : List Rat} {nout : Nat} {x : Rat} (h : x ∈ padOut rnd ys nout) :
    x = 0 ∨ ∃ y ∈ ys, x = rnd y := by
  obtain ⟨j, -, rfl⟩ := List.mem_map.1 h
  have made : ∀ i, i < ys.length → ys.getD i 0 ∈ ys := fun i hi => by
    rw [List.getD_eq_getElem _ _ hi]
    exact List.getElem_mem hi
  split
  · next hj => exact .inr ⟨_, made j hj, rfl⟩
  · split
    · next hpos => exact .inr ⟨_, made _ (Nat.sub_one_lt hpos.ne'), rfl⟩
    · exact .inl rfl

/-- Settles O43: the raw samples are in range, interpolation stays in range, and the pad repeats a frame or is zero. -/
theorem outputStaysInHeadroom : Obligations.OutputStaysInHeadroom := by
  intro s t c d ha hcfg hc hrnd hx hft x hmem
  rw [(linearOutput ha hc hx hft).out] at hmem
  rcases mem_padOut hmem with rfl | ⟨y, hy, rfl⟩
  · have hbound := volumeBound_nonneg hcfg c
    exact ⟨neg_nonpos.2 hbound, hbound⟩
  · rw [cfg_round_identity hrnd]
    exact interpolationStaysInRange _ _ _ _ _ (tickRatio_pos hcfg ha.period_ne) (genReads_range hcfg hrnd c d) y hy

end Sys2Proof.Machine
end

section
/-! PROOFS. The bounds check (O60): where a `GEN` whose loop is not inside the sample halts, and what it has read by then. -/

namespace Sys2Proof.Machine

/-- An active `GEN` whose read loop the bounds check stopped (R183): the samples read are kept in `RAW`. -/
theorem gen_stopped {s : State} {c : Chan} {d : Desc} {r : ReadOut} {pos : Nat} (ha : Active s c d)
    (hn : tickCount s.cfg (s.chan c) ≤ s.cfg.rawcap) (hr : genReads s c d = r) (hb : r.bounds = true) (hl : r.cur.loopact = true)
    (hpos : r.cur.idx.toNat = pos) :
    ∃ t, exec (.gen c) s = .next t ∧ StoppedAtBounds s t c pos r.samples.length ∧
      ∀ i, i < r.samples.length → (t.chan c).raw.getD i 0 = r.samples.getD i 0 := by
  subst hr
  obtain ⟨-, -, hsil, hzf⟩ := readLoop_flags (scaledSample s (s.chan c)) d (tickCount s.cfg (s.chan c)) (s.chan c).cursor
  refine ⟨_, exec_gen_bounds ha hn hb, ?_⟩
  unfold StoppedAtBounds
  rw [raise_chan, setChan_chan_same]
  exact ⟨⟨rfl, rfl, rfl, hpos, hl, fun _ => overwrite_getD_ge, rfl, rfl, hsil (hzf hb), rfl, rfl⟩, fun _ => append_getD⟩

/-- Settles O60: an armed loop that is not inside the sample stops the read loop at the sample end or at the loop start (`readLoop_stop`); one
that is armed in the tick does so after the samples up to the end. -/
theorem genRaisesPcmBoundsOutsideTheSample : Obligations.GenRaisesPcmBoundsOutsideTheSample := by
  refine ⟨fun s c d p n ha hn hcap hl hout hp h1 hend => ?_, fun s c d n k ha hn hcap hl hL hout hk hend => ?_⟩
  · subst hn
    have hmax : max p d.send < 262144 := by
      have := (s.chan c).idx.isLt
      have := d.send_le
      have := d.lbeg_le
      split at hp <;> omega
    have hreads : genReads s c d = { samples := samplesFrom s c p (d.send - p), cur := cursorAt s c (max p d.send), bounds := true } :=
      readLoop_stop _ rfl hl hout hp h1 hend
    obtain ⟨t, hx, hstop, hraw⟩ := gen_stopped ha hcap hreads rfl hl (cursorAt_idx s c hmax)
    rw [samplesFrom_length] at hstop hraw
    refine ⟨t, hx, hstop, fun i hi => ?_⟩
    rw [hraw i (by omega)]
    exact scaledAt_samplesFrom s c (by omega) hi
  · subst hn hk
    have hbeyond : d.send < d.lend := by
      simp only [Desc.send, Desc.lend]
      omega
    obtain ⟨n, hN⟩ : ∃ n, tickCount s.cfg (s.chan c) = d.send - (s.chan c).idx.toNat + (n + 1) :=
      Nat.exists_eq_add_of_lt (by omega)
    have hmax : max d.lbeg d.send < 262144 := by
      have := d.send_le
      have := d.lbeg_le
      omega
    have hreads : genReads s c d = ReadOut.prepend (samplesFrom s c (s.chan c).idx.toNat (d.send - (s.chan c).idx.toNat))
        { samples := samplesFrom s c d.lbeg (d.send - d.lbeg),
          cur := { cursorAt s c (max d.lbeg d.send) with loopact := true }, bounds := true } := by
      rw [genReads_run_unarmed hl hN, readLoop_arm _ n rfl hl hL (send_le_cursorAt_send s c d),
        readLoop_stop (p := d.lbeg) _ rfl rfl (.inl hbeyond) (by simp only [Desc.lbeg_toNat, ite_self]) (Nat.le_add_left 1 n) (by omega)]
      rfl
    obtain ⟨t, hx, hstop, hraw⟩ := gen_stopped ha hcap hreads rfl rfl (cursorAt_idx s c hmax)
    rw [prepend_length, samplesFrom_length, samplesFrom_length] at hstop hraw
    refine ⟨t, hx, hstop, fun i hi => ?_, fun i hi => ?_⟩
    · rw [hraw i (by omega), prepend_getD_lt (by rwa [samplesFrom_length])]
      exact scaledAt_samplesFrom s c (d := d) hi (by omega)
    · rw [hraw _ (by omega), prepend_getD_ge (by rw [samplesFrom_length]; omega), samplesFrom_length, Nat.add_sub_cancel_left]
      exact scaledAt_samplesFrom s c (by omega) hi

end Sys2Proof.Machine
end

section
/-! PROOFS. The pitch over many ticks (O44): one tick moves the exact position by `need` and leaves the channel playing on, by the statement about
consecutive samples (O30). -/

namespace Sys2Proof.Machine

/-- A channel that plays without rounding and meets no sample end in the next `k` ticks. -/
structure PlaysOn (s : State) (c : Chan) (d : Desc) (k : Nat) : Prop where
  active : Active s c d
  cfg : s.cfg.Admissible
  exact : s.cfg.rnd = .identity
  fits : tickCount s.cfg (s.chan c) ≤ s.cfg.rawcap
  unarmed : (s.chan c).loopact = false
  rem_nonneg : 0 ≤ (s.chan c).rem
  rem_lt_one : (s.chan c).rem < 1
  room : (s.chan c).idx.toNat + k * (tickCount s.cfg (s.chan c) + 1) ≤ d.send

/-- The position of a channel in its sample, with the fraction. -/
def exactPos (s : State) (c : Chan) : Rat := ((s.chan c).idx.toNat : Rat) + (s.chan c).rem

section
variable {s t : State} {c : Chan} {d : Desc}

theorem GenFrame.cfg_eq (h : GenFrame c s t) : t.cfg = s.cfg := h.ports.1

theorem GenFrame.nativeRate_eq (h : GenFrame c s t) : nativeRate t.cfg (t.chan c) = nativeRate s.cfg (s.chan c) := by
  rw [nativeRate, nativeRate, h.cfg_eq, h.bank.period, h.bank.ft]

theorem GenFrame.tickNeed_eq (h : GenFrame c s t) : tickNeed t.cfg (t.chan c) = tickNeed s.cfg (s.chan c) := by
  rw [tickNeed, tickNeed, h.nativeRate_eq, h.cfg_eq]

theorem GenFrame.tickCount_eq (h : GenFrame c s t) : tickCount t.cfg (t.chan c) = tickCount s.cfg (s.chan c) := by
  rw [tickCount, tickCount, h.tickNeed_eq]

/-- A channel that `GEN` did not silence is active in the running block after it. -/
theorem GenFrame.active (h : GenFrame c s t) (ha : Active s c d) (hf : t.fault = false) (hsil : (t.chan c).sil = (s.chan c).sil) :
    Active t c d where
  running := hf
  not_sil := hsil.trans ha.not_sil
  desc_eq := by rw [h.descs, h.bank.smp, ha.desc_eq]
  length_ne := ha.length_ne
  period_ne := by rw [h.bank.period]; exact ha.period_ne

/-- The carry splits the exact position into its whole part and its fraction (R132), where the fold does not saturate. -/
theorem exactPos_of_carriedFrom {pos : Nat} (h : CarriedFrom s t c pos) (hrnd : s.cfg.rnd = .identity) (hneed : 0 ≤ tickNeed s.cfg (s.chan c))
    (h0 : 0 ≤ (s.chan c).rem) (h1 : (s.chan c).rem < 1) (hpos : pos < 131072) :
    exactPos t c = (pos : Rat) + (s.chan c).rem + (tickNeed s.cfg (s.chan c) - (tickCount s.cfg (s.chan c) : Rat)) ∧
      (t.chan c).idx.toNat ≤ pos + 1 ∧ 0 ≤ (t.chan c).rem ∧ (t.chan c).rem < 1 := by
  obtain ⟨hfrac0, hfrac1⟩ := tickCount_spec hneed
  obtain ⟨hstay, hfold⟩ := h _ rfl
  simp only [cfg_round_identity hrnd] at hstay hfold
  unfold exactPos
  rcases lt_or_ge ((s.chan c).rem + (tickNeed s.cfg (s.chan c) - (tickCount s.cfg (s.chan c) : Rat))) 1 with hlt | hge
  · obtain ⟨hidx, hrem⟩ := hstay hlt
    rw [hidx, hrem]
    exact ⟨by ring, by omega, by linarith, hlt⟩
  · obtain ⟨hidx, hrem⟩ := hfold hge
    rw [hidx, hrem, Nat.min_eq_left (by omega)]
    push_cast
    exact ⟨by ring, le_rfl, by linarith, by linarith⟩

/-- One tick (R132): unless the converter fails, the channel plays on and its exact position has moved by `need`. -/
theorem PlaysOn.tick {k : Nat} (h : PlaysOn s c d (k + 1)) (ht : t = after (.gen c) s) :
    (s.cfg.conv = .linear → t.fault = false) ∧
    (t.fault = false → PlaysOn t c d k ∧ exactPos t c = exactPos s c + tickNeed s.cfg (s.chan c)) := by
  have hroom : (s.chan c).idx.toNat + tickCount s.cfg (s.chan c) + 1 + k * (tickCount s.cfg (s.chan c) + 1) ≤ d.send := by
    have := h.room
    rw [Nat.succ_mul] at this
    omega
  have hsend := d.send_le
  obtain ⟨u, hx, hdec, -, -, hsil, hloop, hcarry⟩ := genPlaysConsecutiveSamples s c d h.active h.fits
    (.inr ⟨by rw [h.unarmed, if_neg Bool.false_ne_true]; omega, by omega⟩)
  obtain rfl : t = u := ht.trans (after_eq hx)
  refine ⟨fun hlin => (hdec.1 hlin).2, fun hf => ?_⟩
  have frame : GenFrame c s t := ht ▸ after_gen_frame s c
  obtain ⟨hpos, hidx, hrem0, hrem1⟩ := exactPos_of_carriedFrom hcarry h.exact (tickNeed_pos h.cfg h.active.period_ne).le h.rem_nonneg h.rem_lt_one
    (by omega)
  refine ⟨?_, ?_⟩
  · exact {
      active := frame.active h.active hf hsil
      cfg := frame.cfg_eq ▸ h.cfg
      exact := frame.cfg_eq ▸ h.exact
      fits := by rw [frame.tickCount_eq, frame.cfg_eq]; exact h.fits
      unarmed := hloop.trans h.unarmed
      rem_nonneg := hrem0
      rem_lt_one := hrem1
      room := by rw [frame.tickCount_eq]; omega }
  · rw [hpos, exactPos]
    push_cast
    ring

/-- A run of `GEN`s that leaves the block running found it running. -/
theorem running_of_iterate : ∀ (k : Nat) {s : State}, ((after (.gen c))^[k] s).fault = false → s.fault = false
  | 0, _, h => h
  | k + 1, _, h => running_of_after (running_of_iterate k h)

/-- `k` ticks, one after the other. -/
theorem PlaysOn.ticks : ∀ (k : Nat) {s : State}, PlaysOn s c d k →
    (s.cfg.conv = .linear → ((after (.gen c))^[k] s).fault = false) ∧
    (((after (.gen c))^[k] s).fault = false →
      exactPos ((after (.gen c))^[k] s) c = exactPos s c + (k : Rat) * tickNeed s.cfg (s.chan c))
  | 0, s, h => ⟨fun _ => h.active.running, fun _ => by simp⟩
  | k + 1, s, h => by
    have frame := after_gen_frame s c
    obtain ⟨hlinear, hon⟩ := h.tick rfl
    rw [Function.iterate_succ_apply]
    refine ⟨fun hlin => ?_, fun hf => ?_⟩
    · exact (PlaysOn.ticks k (hon (hlinear hlin)).1).1 (frame.cfg_eq ▸ hlin)
    · obtain ⟨hplays, hmoved⟩ := hon (running_of_iterate k hf)
      rw [(PlaysOn.ticks k hplays).2 hf, hmoved, frame.tickNeed_eq]
      push_cast
      ring

end

/-- Settles O44: by induction on the ticks (`PlaysOn.ticks`). -/
theorem pitchIsExactOverManyTicks : Obligations.PitchIsExactOverManyTicks :=
  fun _ _ _ k ha hcfg hrnd hn hl h0 h1 hroom => PlaysOn.ticks k ⟨ha, hcfg, hrnd, hn, hl, h0, h1, hroom⟩

end Sys2Proof.Machine
end

section
/-! PROOFS. The buffers stay below the threshold (O13): what `MIX` stores is zero or below it, a reset stores silence, and nothing else writes a
buffer. -/

namespace Sys2Proof.Machine

/-- Both frame buffers hold only samples that are zero or below the threshold (R152). -/
structure BuffersBelow (s : State) : Prop where
  buf0 : BelowThreshold s.cfg s.buf0
  buf1 : BelowThreshold s.cfg s.buf1

theorem belowThreshold_silence (cfg : Cfg) (n : Nat) : BelowThreshold cfg (List.replicate n { left := 0, right := 0 }) := by
  intro f hf side
  rw [List.eq_of_mem_replicate hf]
  exact .inl (by cases side <;> rfl)

theorem below_of_clippedSum {cfg : Cfg} {x y : Rat} (h : ClippedSum cfg x y) : y = 0 ∨ y < cfg.thresh := by
  obtain ⟨hclip, hkeep⟩ := h
  rcases le_or_gt cfg.thresh (cfg.round x) with hx | hx
  · exact .inl (hclip hx)
  · exact .inr (hkeep hx ▸ hx)

/-- The mixer never stores a value at or above the threshold other than zero (R152). -/
theorem mixValue_below (cfg : Cfg) (written : Bool) (old v : Rat) :
    mixValue cfg written old v = 0 ∨ mixValue cfg written old v < cfg.thresh := by
  cases written with
  | false => exact below_of_clippedSum (clippedSum_mixValue_first cfg old v)
  | true => exact below_of_clippedSum (clippedSum_mixValue_later cfg old v)

/-- A frame past the end of the buffer reads as silence, so the bound holds of every frame. -/
theorem BelowThreshold.frameAt {cfg : Cfg} {b : List Frame} (h : BelowThreshold cfg b) (j : Nat) (side : Side) :
    (frameAt b j).get side = 0 ∨ (frameAt b j).get side < cfg.thresh := by
  rcases lt_or_ge j b.length with hj | hj
  · have hmem : Machine.frameAt b j ∈ b := by
      rw [Machine.frameAt, List.getD_eq_getElem _ _ hj]
      exact List.getElem_mem hj
    exact h _ hmem side
  · rw [Machine.frameAt, List.getD_eq_default _ _ hj]
    exact .inl (by cases side <;> rfl)

section
variable {s : State}

theorem mixedBuf_below (h : BelowThreshold s.cfg s.genBuf) (c : Chan) : BelowThreshold s.cfg (mixedBuf c s) := by
  intro f hf side
  obtain ⟨j, -, rfl⟩ := List.mem_map.1 hf
  by_cases hside : side = sideOf c
  · subst hside
    rw [frame_get_set_same]
    exact mixValue_below ..
  · rw [frame_get_set_other _ _ hside]
    exact h.frameAt j side

theorem BuffersBelow.withInputs (h : BuffersBelow s) (rest : List Input) : BuffersBelow { s with inputs := rest } := ⟨h.buf0, h.buf1⟩

theorem BuffersBelow.genBuf (h : BuffersBelow s) : BelowThreshold s.cfg s.genBuf := by
  rw [genBuf_eq]
  split
  · exact h.buf1
  · exact h.buf0

theorem BuffersBelow.setGenBuf (h : BuffersBelow s) {b : List Frame} (hb : BelowThreshold s.cfg b) : BuffersBelow (s.setGenBuf b) := by
  unfold State.setGenBuf
  split
  · exact ⟨h.buf0, hb⟩
  · exact ⟨hb, h.buf1⟩

theorem BuffersBelow.markSide (h : BuffersBelow s) (d : Side) : BuffersBelow (s.markSide d) := by
  cases d <;> exact ⟨h.buf0, h.buf1⟩

/-- Of all commands only `MIX` writes a buffer (R60). -/
theorem BuffersBelow.after (h : BuffersBelow s) (i : Instr) : BuffersBelow (after i s) := by
  rcases refused_or_shape i s with e | shape
  · rw [e]
    exact ⟨h.buf0, h.buf1⟩
  · generalize Machine.after i s = t at shape
    cases shape with
    | mix c =>
      have hmixed := (h.setGenBuf (mixedBuf_below h.genBuf c)).markSide (sideOf c)
      exact ⟨hmixed.buf0, hmixed.buf1⟩
    | _ => exact ⟨h.buf0, h.buf1⟩

theorem BuffersBelow.illegal (h : BuffersBelow s) : BuffersBelow (s.unlessHalted fun u => u.raise .illegalCommand) := by
  cases hf : s.fault with
  | true => rw [unlessHalted_halted hf]; exact ⟨h.buf0, h.buf1⟩
  | false => rw [unlessHalted_running hf]; exact ⟨h.buf0, h.buf1⟩

end

/-- A reset silences both buffers, also when the converter cannot be constructed (R41, R186). -/
theorem resetTo_buffersBelow (cfg : Cfg) (pcm : List Host.Cell) : BuffersBelow (resetTo cfg pcm) := by
  have hsilence := belowThreshold_silence cfg cfg.nout
  by_cases hf : cfg.conv = .failing
  · rw [resetTo_failing pcm hf]
    exact ⟨hsilence, hsilence⟩
  · rw [resetTo_ok pcm hf]
    exact ⟨hsilence, hsilence⟩

theorem BuffersBelow.step {s t : State} (h : BuffersBelow s) (hstep : step s = .next t) : BuffersBelow t := by
  cases step_shape hstep with
  | idle => exact h
  | reset rest => exact (resetTo_buffersBelow s.cfg s.pcm).withInputs rest
  | command w rest i => exact (h.withInputs rest).after i
  | illegal w rest => exact (h.withInputs rest).illegal

/-- Settles O13: silence at reset, and the step keeps `BuffersBelow`. -/
theorem buffersStayBelowThreshold : Obligations.BuffersStayBelowThreshold := by
  refine ⟨fun f hf => ?_, fun s t h0 h1 hstep => ?_⟩
  · have hzero : f = { left := 0, right := 0 } := hf.elim List.eq_of_mem_replicate List.eq_of_mem_replicate
    subst hzero
    norm_num
  · have h := BuffersBelow.step ⟨h0, h1⟩ hstep
    rw [← step_cfg hstep]
    exact ⟨h.buf0, h.buf1⟩

end Sys2Proof.Machine
end

section
/-! PROOFS. `MIX` alone (O45, O46, O49): what it leaves of the generator buffer and of everything else, two of them on one side, and the way of
a mixed sample to the sink. -/

namespace Sys2Proof.Machine

section
variable {s : State}

theorem after_mix (hs : s.fault = false) (c : Chan) :
    after (.mix c) s = ((s.setGenBuf (mixedBuf c s)).markSide (sideOf c)).answer .absent :=
  after_eq (exec_mix hs c)

theorem after_mix_genBuf (hs : s.fault = false) (c : Chan) : (after (.mix c) s).genBuf = mixedBuf c s := by
  simp [after_mix hs]

theorem after_mix_chan (hs : s.fault = false) (c e : Chan) : (after (.mix c) s).chan e = s.chan e := by
  simp [after_mix hs]

theorem after_mix_cfg (hs : s.fault = false) (c : Chan) : (after (.mix c) s).cfg = s.cfg := by
  simp [after_mix hs]

theorem after_mix_fault (hs : s.fault = false) (c : Chan) : (after (.mix c) s).fault = false := by
  simp [after_mix hs, hs]

/-- `MIX c` without a `GEN c` before it mixes the samples that `OUT` holds (R156). -/
theorem mix_mixedIn (hs : s.fault = false) (c : Chan) : MixedIn c s (after (.mix c) s) where
  cfg := after_mix_cfg hs c
  others e _ := after_mix_chan hs c e
  sw_own := by simp [after_mix hs]
  sw_other d hd := by simp [after_mix hs, markSide_sw_other _ hd]
  length := by rw [after_mix_genBuf hs, mixedBuf_length]
  own j hj := by rw [after_mix_genBuf hs, frameAt_mixedBuf c s hj, frame_get_set_same, after_mix_chan hs]
  other j hj d hd := by rw [after_mix_genBuf hs, frameAt_mixedBuf c s hj, frame_get_set_other _ _ hd]

/-- The side of R150, from its channels on the left. -/
theorem eq_sideOf {side : Side} {c : Chan} (h : side = .left ↔ c = 0 ∨ c = 3) : side = sideOf c := by
  rw [← sideOf_eq_left] at h
  cases side with
  | left => exact (h.1 rfl).symm
  | right =>
    cases hc : sideOf c with
    | left => exact h.2 hc
    | right => rfl

/-! Two channels on one side. -/

theorem frame_set_set (f : Frame) (d : Side) (v w : Rat) : (f.set d v).set d w = f.set d w := by
  cases d <;> rfl

theorem mixValue_first_of_lt {cfg : Cfg} (hrnd : cfg.rnd = .identity) {v : Rat} (hv : v < cfg.thresh) (old : Rat) :
    mixValue cfg false old v = v := by
  have hround := cfg_round_identity hrnd v
  exact ((clippedSum_mixValue_first cfg old v).2 (by rwa [hround])).trans hround

theorem mixValue_later_comm (cfg : Cfg) (x y : Rat) : mixValue cfg true x y = mixValue cfg true y x := by
  simp [mixValue, add_comm]

/-- The second writer of a side adds to the first one's sample, which stands unclipped when it is below the threshold (R151). -/
theorem frameAt_mix_mix {a b : Chan} (hs : s.fault = false) (hrnd : s.cfg.rnd = .identity) (hside : sideOf a = sideOf b)
    (hsw : s.sw (sideOf a) = false) {j : Nat} (hj : j < s.cfg.nout) (ha : (s.chan a).out.getD j 0 < s.cfg.thresh) :
    frameAt (after (.mix b) (after (.mix a) s)).genBuf j = (frameAt s.genBuf j).set (sideOf a)
      (mixValue s.cfg true ((s.chan a).out.getD j 0) ((s.chan b).out.getD j 0)) := by
  have hcfg := after_mix_cfg hs a
  have hfirst : frameAt (after (.mix a) s).genBuf j = (frameAt s.genBuf j).set (sideOf a) ((s.chan a).out.getD j 0) := by
    rw [after_mix_genBuf hs, frameAt_mixedBuf a s hj, hsw, mixValue_first_of_lt hrnd ha]
  rw [after_mix_genBuf (after_mix_fault hs a), frameAt_mixedBuf b _ (by rwa [hcfg]), hcfg, ← hside, (mix_mixedIn hs a).sw_own,
    after_mix_chan hs, hfirst, frame_get_set_same, frame_set_set]

theorem length_mix_mix (hs : s.fault = false) (a b : Chan) : (after (.mix b) (after (.mix a) s)).genBuf.length = s.cfg.nout := by
  rw [(mix_mixedIn (after_mix_fault hs a) b).length, after_mix_cfg hs]

/-- Buffers of one length with the same frames are equal. -/
theorem buf_ext {n : Nat} {b b' : List Frame} (h : b.length = n) (h' : b'.length = n) (hframes : ∀ j, j < n → frameAt b j = frameAt b' j) :
    b = b' := by
  refine List.ext_getElem (h.trans h'.symm) fun j hj hj' => ?_
  have hframe := hframes j (h ▸ hj)
  rwa [frameAt, frameAt, List.getD_eq_getElem _ _ hj, List.getD_eq_getElem _ _ hj'] at hframe

/-! From the mixer to the sink. -/

theorem after_swap_fault (hs : s.fault = false) : (after .swap s).fault = false := by
  rw [after_eq (exec_swap hs)]
  exact hs

theorem after_swap_cfg (hs : s.fault = false) : (after .swap s).cfg = s.cfg := by
  rw [after_eq (exec_swap hs)]
  rfl

end

/-- Settles O45: the frames by `mix_mixedIn`; nothing else is written. -/
theorem mixStoresClippedSums : Obligations.MixStoresClippedSums := by
  intro s c side hs hside
  obtain rfl := eq_sideOf hside
  have hmix := mix_mixedIn hs c
  refine ⟨after (.mix c) s, exec_after _ s, ?_, hmix.length, fun j hj => ⟨fun hsw => ?_, fun hsw => ?_, hmix.other j hj⟩,
    hmix.sw_own, hmix.sw_other, ?_⟩
  · rw [after_mix hs]
    rfl
  · rw [← after_mix_chan hs c]
    exact hmix.clippedSum_first hsw hj
  · rw [← after_mix_chan hs c]
    exact hmix.clippedSum_later hsw hj
  · simp [after_mix hs, SameChans, SameDescs, SamePcm, SameStatus, SamePorts]

/-- Settles O46: either order leaves the sum of the two samples in every frame, and the sum does not depend on it. -/
theorem mixOrderDoesNotMatter : Obligations.MixOrderDoesNotMatter := by
  intro s a b hs hrnd hside hsw hsmall
  refine buf_ext (length_mix_mix hs a b) (length_mix_mix hs b a) fun j hj => ?_
  obtain ⟨ha, hb⟩ := hsmall j hj
  rw [frameAt_mix_mix hs hrnd hside hsw hj ha, frameAt_mix_mix hs hrnd hside.symm (hside ▸ hsw) hj hb, hside, mixValue_later_comm]

/-- Settles O49: `FRD` reads the buffer that `SWAP` has just shown, and `MIX` has stored the clipped sample there. -/
theorem mixedSampleReachesTheSink : Obligations.MixedSampleReachesTheSink := by
  intro s c j hs hsw hj
  have hmixf := after_mix_fault hs c
  have hcfg : (after .swap (after (.mix c) s)).cfg = s.cfg := (after_swap_cfg hmixf).trans (after_mix_cfg hs c)
  have hclip := (mix_mixedIn hs c).clippedSum_first hsw hj
  rw [after_mix_chan hs] at hclip
  refine ⟨_, hclip, ?_⟩
  rw [after_eq (exec_frd (after_swap_fault hmixf) (sideOf c) (by rwa [hcfg])), after_swap_frontBuf hmixf]
  rfl

end Sys2Proof.Machine
end

section
/-! PROOFS. `SWAP` (O47): it exchanges the two buffers, and no other command touches the front buffer or `G`. -/

namespace Sys2Proof.Machine

/-- `SWAP` gives the earlier front buffer to the mixer (R154). -/
theorem after_swap_genBuf {s : State} (hs : s.fault = false) : (after .swap s).genBuf = s.frontBuf := by
  rw [after_eq (exec_swap hs)]
  cases hg : s.g <;> simp [State.frontBuf, State.genBuf, hg]

theorem ExecShape.frontBuf_eq {i : Instr} {s t : State} (h : ExecShape s i t) (hi : i ≠ .swap) : t.frontBuf = s.frontBuf := by
  cases h with
  | swap => exact absurd rfl hi
  | mix c => simp
  | _ => rfl

/-- Settles O47: the equation of `SWAP`, and the front buffer by the shape of every other command. -/
theorem swapExchangesTheBuffers : Obligations.SwapExchangesTheBuffers := by
  refine ⟨by decide, fun s hs => ⟨exec_swap hs, after_swap_frontBuf hs, after_swap_genBuf hs, ?_⟩, fun i s t hi h => ?_⟩
  · rw [after_swap_frontBuf (after_swap_fault hs), after_swap_genBuf hs]
  · obtain rfl := exec_eq_next.1 h
    rcases refused_or_shape i s with e | shape
    · rw [e, refuse_frontBuf]
    · exact shape.frontBuf_eq hi

end Sys2Proof.Machine
end

section
/-! PROOFS. The read-backs (O50, O51, O25, O48): the status word and the registers as numbers, and what `STAT`, `CHRD` and `FRD` answer. -/

namespace Sys2Proof.Machine

theorem statusWord_toNat (s : State) : s.statusWord.toNat =
    s.fault.toNat + 2 * s.fcode.toNat + 16 * s.g.toNat + 32 * s.swL.toNat + 64 * s.swR.toNat := by
  simp only [State.statusWord, Laws.append_toNat, BitVec.toNat_ofBool, BitVec.toNat_zero]
  omega

theorem flagsWord_toNat (ch : Channel) : (flagsWord ch).toNat = ch.sil.toNat + 2 * ch.loopact.toNat := by
  simp only [flagsWord, Laws.append_toNat, BitVec.toNat_ofBool, BitVec.toNat_zero]
  omega

/-- The must-be-zero bits of `STAT` are all bits below its operation code (R71, R78). -/
theorem decode_eq_none_of_stat_code {w : Word} (hop : w.toNat / 2 ^ 27 = 0x18) (hw : w ≠ 0xC0000000#32) : decode w = none := by
  have hcode : Laws.zeroField (opField w) = some (0, 27) := by
    rw [show opField w = 0x18#5 from BitVec.eq_of_toNat_eq ((Laws.opField_toNat w).trans hop)]
    rfl
  refine Laws.decode_eq_none_of_bits (lo := 0) (len := 27) (by simp [hcode]) fun hzero => hw ?_
  exact BitVec.eq_of_toNat_eq (by rw [BitVec.toNat_ofNat]; omega)

/-- Settles O50: `STAT` answers the status word, which is that sum of the flags (`statusWord_toNat`). -/
theorem statAnswersTheStatusWord : Obligations.StatAnswersTheStatusWord :=
  ⟨decode_eq_stat.2 rfl, fun _ => decode_eq_none_of_stat_code, fun s => ⟨s.statusWord, exec_stat s, statusWord_toNat s⟩⟩

/-! `CHRD`. -/

/-- `w` is the register of `ch` that `sel` selects: zero-extended, the finetune sign-extended (R166). -/
structure IsRegister (ch : Channel) (sel : BitVec 3) (w : Word) : Prop where
  smp : sel.toNat = 0 → w.toNat = ch.smp.toNat
  period : sel.toNat = 1 → w.toNat = ch.period.toNat
  ft : sel.toNat = 2 → w.toInt = ch.ft.toInt
  vol : sel.toNat = 3 → w.toNat = ch.vol.toNat
  idx : sel.toNat = 4 → w.toNat = ch.idx.toNat
  flags : sel.toNat = 5 → w.toNat = ch.sil.toNat + 2 * ch.loopact.toNat

/-- The selected word, from the number of the selector. -/
theorem eq_of_channelWord {ch : Channel} {sel k : BitVec 3} {w v : Word} (hw : channelWord ch sel = some w)
    (hk : channelWord ch k = some v) (hsel : sel.toNat = k.toNat) : w = v := by
  obtain rfl := BitVec.eq_of_toNat_eq hsel
  exact Option.some.inj (hw.symm.trans hk)

theorem channelWord_isRegister {ch : Channel} {sel : BitVec 3} {w : Word} (hw : channelWord ch sel = some w) : IsRegister ch sel w where
  smp h := eq_of_channelWord (k := 0#3) hw rfl h ▸ BitVec.toNat_setWidth_of_le (by decide)
  period h := eq_of_channelWord (k := 1#3) hw rfl h ▸ BitVec.toNat_setWidth_of_le (by decide)
  ft h := eq_of_channelWord (k := 2#3) hw rfl h ▸ BitVec.toInt_signExtend_of_le (by decide)
  vol h := eq_of_channelWord (k := 3#3) hw rfl h ▸ BitVec.toNat_setWidth_of_le (by decide)
  idx h := eq_of_channelWord (k := 4#3) hw rfl h ▸ BitVec.toNat_setWidth_of_le (by decide)
  flags h := eq_of_channelWord (k := 5#3) hw rfl h ▸ flagsWord_toNat ch

theorem exec_chrd_register {s : State} (hs : s.fault = false) (c : Chan) {sel : BitVec 3} (hsel : sel.toNat < 6) :
    ∃ w, exec (.chrd c sel) s = .next (s.answer (.word w)) ∧ IsRegister (s.chan c) sel w := by
  obtain ⟨w, hw⟩ := channelWord_some (s.chan c) hsel
  exact ⟨w, exec_chrd hs hw, channelWord_isRegister hw⟩

/-- Settles O51: a halted block refuses, a selector beyond 5 selects nothing, the others select their register. -/
theorem chrdAnswersTheRegister : Obligations.ChrdAnswersTheRegister := by
  intro c sel
  refine ⟨Laws.decode_of_encode_toNat (Laws.EncodingNumber.chrd c sel), fun s => ⟨fun hs => exec_halted hs nofun,
    fun hs hsel => exec_chrd_range hs (channelWord_none _ hsel), fun hs hsel => ?_⟩⟩
  obtain ⟨w, hexec, hr⟩ := exec_chrd_register hs c hsel
  exact ⟨w, hexec, hr.smp, hr.period, hr.ft, hr.vol, hr.idx, hr.flags⟩

/-- After a channel write, `CHRD` answers a register of the bank written. -/
theorem chrd_after_channelWrite {i : Instr} {s : State} {c : Chan} {ch : Channel} (hs : s.fault = false)
    (hi : exec i s = .next ((s.setChan c ch).answer .absent)) {sel : BitVec 3} (hsel : sel.toNat < 6) :
    ∃ w, Answered (after (.chrd c sel) (after i s)) (.word w) ∧ IsRegister ch sel w := by
  obtain ⟨w, hexec, hr⟩ := exec_chrd_register (s := (s.setChan c ch).answer .absent) hs c hsel
  rw [answer_chan, setChan_chan_same] at hr
  rw [after_eq hi, after_eq hexec]
  exact ⟨w, rfl, hr⟩

/-- Settles O25: each write is a channel write, and `CHRD` reads the bank written (`chrd_after_channelWrite`). -/
theorem writtenRegistersReadBack : Obligations.WrittenRegistersReadBack := by
  intro s c hs
  refine ⟨fun x => ?_, fun x => ?_, fun x => ?_, fun x => ?_, fun x => ?_, fun x y => ?_⟩
  · obtain ⟨w, ha, hr⟩ := chrd_after_channelWrite hs (exec_csmp hs c x) (sel := 0#3) (by decide)
    exact ⟨w, ha, hr.smp rfl⟩
  · obtain ⟨w, ha, hr⟩ := chrd_after_channelWrite hs (exec_cper hs c x) (sel := 1#3) (by decide)
    exact ⟨w, ha, hr.period rfl⟩
  · obtain ⟨w, ha, hr⟩ := chrd_after_channelWrite hs (exec_cft hs c x) (sel := 2#3) (by decide)
    exact ⟨w, ha, hr.ft rfl⟩
  · obtain ⟨w, ha, hr⟩ := chrd_after_channelWrite hs (exec_cvol hs c x) (sel := 3#3) (by decide)
    exact ⟨w, ha, (hr.vol rfl).trans (clampVol_toNat x)⟩
  · obtain ⟨w, ha, hr⟩ := chrd_after_channelWrite hs (exec_cidx hs c x) (sel := 4#3) (by decide)
    exact ⟨w, ha, (hr.idx rfl).trans (idxOperand_toNat x)⟩
  · have hcsil := after_eq (exec_csil hs c x)
    have hrun : (after (.csil c x) s).fault = false := hcsil ▸ hs
    obtain ⟨w, ha, hr⟩ := chrd_after_channelWrite hrun (exec_cloop hrun c y) (sel := 5#3) (by decide)
    rw [hcsil, answer_chan, setChan_chan_same] at hr
    exact ⟨w, ha, hr.flags rfl⟩

/-! `FRD`. -/

/-- Settles O48: the front buffer is `BUF[1-G]` (`frontBuf_eq`), and `FRD` answers its sample. -/
theorem frdReadsTheFrontBuffer : Obligations.FrdReadsTheFrontBuffer := by
  intro s j hs hj side v hfalse htrue
  have hv : (frameAt s.frontBuf j.toNat).get side = v := by
    cases hg : s.g with
    | false => rw [frontBuf_eq, hg]; exact hfalse hg
    | true => rw [frontBuf_eq, hg]; exact htrue hg
  exact hv ▸ exec_frd hs side hj

end Sys2Proof.Machine
end

section
/-! PROOFS. The rejected words (O8, O15): an illegal word in a running block, and every word but that of `STAT` in a halted one. -/

namespace Sys2Proof.Machine

/-- Settles O8: the fault entry of an illegal word is the whole step (`execIllegal_running`). -/
theorem illegalWordRaisesIllegalCommand : Obligations.IllegalWordRaisesIllegalCommand :=
  fun _ _ _ hf hin hd => (step_illegal hin hd).trans (execIllegal_running hf)

/-- Settles O15: whether the word decodes or not it is refused, since only the word of `STAT` decodes to `STAT` (`decode_eq_stat`). -/
theorem haltedBlockRefusesAllButStat : Obligations.HaltedBlockRefusesAllButStat := by
  intro s w rest hf hin hw
  cases hd : decode w with
  | none => exact (step_illegal hin hd).trans (execIllegal_halted hf)
  | some i =>
    have hi : i ≠ .stat := fun e => hw (decode_eq_stat.1 (e ▸ hd))
    exact (step_command hin hd).trans (exec_halted hf hi)

end Sys2Proof.Machine
end

section
/-! PROOFS. Reset (O16, O10): the way out of the halted state when the converter can be constructed, and the halt with code 6 when it
cannot. -/

namespace Sys2Proof.Machine

section
variable {s : State}

theorem resetAction_of_constructs (hc : s.cfg.conv ≠ .failing) :
    s.resetAction = { State.initial s.cfg s.pcm with inputs := s.inputs } := by
  rw [State.resetAction, resetTo_ok _ hc]

theorem resetAction_of_failing (hc : s.cfg.conv = .failing) :
    s.resetAction = { State.initial s.cfg s.pcm with fault := true, fcode := 6#3, inputs := s.inputs } := by
  rw [State.resetAction, resetTo_failing _ hc]

@[simp] theorem resetAction_cfg : s.resetAction.cfg = s.cfg := resetTo_cfg s.cfg s.pcm

theorem resetAction_halts (hc : s.cfg.conv = .failing) : s.resetAction.fault = true ∧ s.resetAction.fcode.toNat = 6 := by
  rw [resetAction_of_failing hc]
  exact ⟨rfl, rfl⟩

end

/-- A step that is no reset keeps a halted block halted with its cause (R191, R192). -/
theorem step_keeps_halted {s t : State} (hf : s.fault = true) (hstep : step s = .next t) (hreset : ∀ rest, s.inputs ≠ .reset :: rest) :
    t.fault = true ∧ t.fcode = s.fcode := by
  cases step_shape hstep with
  | idle => exact ⟨hf, rfl⟩
  | reset rest waiting => exact absurd waiting (hreset rest)
  | command w rest i =>
    rcases after_halted (s := { s with inputs := rest }) hf i with ⟨-, e⟩ | ⟨-, e⟩ <;> rw [e]
    · exact ⟨hf, rfl⟩
    · exact ⟨hf, rfl⟩
  | illegal w rest =>
    rw [unlessHalted_halted (s := { s with inputs := rest }) hf]
    exact ⟨hf, rfl⟩

/-- Settles O16: no other step leaves the halted state (`step_keeps_halted`), and a reset gives the initial state over the same PCM. -/
theorem onlyResetLeavesTheHaltedState : Obligations.OnlyResetLeavesTheHaltedState := by
  refine ⟨fun s t => step_keeps_halted, fun s t rest hc hin hstep => ?_⟩
  rw [step_reset hin, resetAction_of_constructs (s := { s with inputs := rest }) hc] at hstep
  cases hstep
  exact ⟨rfl, rfl⟩

/-! The values of R41. -/

theorem initial_desc (cfg : Cfg) (pcm : List Host.Cell) {k : Slot} (hk : k ≠ 0#5) :
    (State.initial cfg pcm).desc? k = some { length := 0#16, loopstart := 0#16, looplen := 0#16 } := by
  obtain ⟨i, hi, -⟩ := slotIndex_isSome hk
  simp [State.desc?, State.initial, hi]

theorem silence_of_mem_replicate {n : Nat} {f : Frame} (h : f ∈ List.replicate n ({ left := 0, right := 0 } : Frame)) :
    f.left = 0 ∧ f.right = 0 := by
  rw [List.eq_of_mem_replicate h]
  exact ⟨rfl, rfl⟩

theorem initial_registersAreReset (s : State) : RegistersAreReset s (State.initial s.cfg s.pcm) := by
  refine ⟨fun c => ?_, fun k => initial_desc s.cfg s.pcm, rfl, rfl, rfl, rfl, List.length_replicate, List.length_replicate,
    fun _ => silence_of_mem_replicate, fun _ => silence_of_mem_replicate, rfl, rfl, fun _ => rfl, rfl⟩
  rw [initial_chan]
  exact ⟨rfl, rfl, rfl, rfl, rfl, rfl, rfl, rfl, List.length_replicate, fun _ => List.eq_of_mem_replicate, rfl,
    List.length_replicate, fun _ => List.eq_of_mem_replicate⟩

/-- `RegistersAreReset` reads neither the fault status nor the waiting actions, in which alone the two resets differ. -/
theorem resetAction_registersAreReset (s : State) : RegistersAreReset s s.resetAction := by
  by_cases hc : s.cfg.conv = .failing
  · rw [resetAction_of_failing hc]
    exact initial_registersAreReset s
  · rw [resetAction_of_constructs hc]
    exact initial_registersAreReset s

/-- Settles O10: a failing construction halts the reset (`resetAction_halts`), and every further one, since the configuration stays. -/
theorem failedConstructionHaltsAtReset : Obligations.FailedConstructionHaltsAtReset := by
  intro s rest hin
  refine ⟨_, step_reset hin, rfl, resetAction_registersAreReset { s with inputs := rest }, fun hc => ?_, fun hc => ?_⟩
  · obtain ⟨hfault, hcode⟩ := resetAction_halts (s := { s with inputs := rest }) hc
    refine ⟨hfault, hcode, fun rest' u hstep => ?_⟩
    rw [step_reset rfl] at hstep
    cases hstep
    exact resetAction_halts (by simpa using hc)
  · rw [resetAction_of_constructs (s := { s with inputs := rest }) (by simp [hc])]
    exact ⟨rfl, rfl⟩

end Sys2Proof.Machine
end

section
/-! PROOFS. What can halt a running block (O17, O18, O19): an operand outside its range, or `GEN`. -/

namespace Sys2Proof.Machine

/-- Settles O17: the equations of the five commands of R81. -/
theorem operandRangeFault : Obligations.OperandRangeFault :=
  fun s hf => ⟨exec_slen_zero hf, exec_slps_zero hf, exec_slpl_zero hf,
    fun c _ hsel => exec_chrd_range hf (channelWord_none (s.chan c) hsel), fun d _ => exec_frd_range hf d⟩

/-- All that a command that halts a running block can do (R180, R193): `outOfRange` is an operand outside its range (R81), `gen` is a `GEN`
that has written at most the synthesizer's part of its bank. -/
inductive HaltShape (s : State) : Instr → State → Prop
  | outOfRange (i) (wf : i.wellFormed s.cfg.nout = false) : HaltShape s i (s.raise .operandRange)
  | gen (c ch f) (cause : f = .rateRange ∨ f = .pcmBounds ∨ f = .convFail)
      (frame : ch = { s.chan c with raw := ch.raw, rawn := ch.rawn, idx := ch.idx, rem := ch.rem, loopact := ch.loopact,
                                    sil := ch.sil }) :
      HaltShape s (.gen c) ((s.setChan c ch).raise f)

section
variable {i : Instr} {s t : State}

theorem shape_of_exec (hf : s.fault = false) (h : exec i s = .next t) : ExecShape s i t :=
  exec_eq_next.1 h ▸ exec_shape hf i

theorem ExecShape.halts (h : ExecShape s i t) (hf : s.fault = false) (ht : t.fault = true) : HaltShape s i t := by
  cases h with
  | outOfRange _ wf => exact .outOfRange i wf
  | genHalts c ch f _ _ cause frame => exact .gen c ch f cause frame
  | _ => simp [hf] at ht

theorem ExecShape.fault_of_not_wellFormed (h : ExecShape s i t) (wf : i.wellFormed s.cfg.nout = false) : t.fault = true := by
  cases h with
  | outOfRange => rfl
  | descWrite _ _ _ _ wf' => cases wf'.symm.trans wf
  | channelWrite _ _ _ which =>
    rcases which with ⟨x, rfl⟩ | ⟨x, rfl⟩ | ⟨x, rfl⟩ | ⟨x, rfl⟩ | ⟨x, rfl⟩ | ⟨x, rfl⟩ | ⟨x, rfl⟩ <;> cases wf
  | chrd c sel w range => exact absurd range (of_decide_eq_false wf)
  | frd d j range => exact absurd range (of_decide_eq_false wf)
  | _ => cases wf

end

/-- Settles O18: the two shapes of a command that halts, with their codes (R180); an ill-formed operand always halts. -/
theorem faultCodesByCommand : Obligations.FaultCodesByCommand := by
  intro i s t hf h
  have shape := shape_of_exec hf h
  refine ⟨fun ht => ?_, shape.fault_of_not_wellFormed⟩
  cases shape.halts hf ht with
  | outOfRange _ wf => exact .inl ⟨wf, rfl⟩
  | gen c ch f cause =>
    refine .inr ⟨c, rfl, ?_⟩
    rcases cause with rfl | rfl | rfl
    · exact .inr (.inr rfl)
    · exact .inr (.inl rfl)
    · exact .inl rfl

/-- Settles O19: a command that halts has changed at most one bank, and of it only what the synthesizer writes. -/
theorem faultsEmitNothing : Obligations.FaultsEmitNothing := by
  intro i s t hf h ht
  cases (shape_of_exec hf h).halts hf ht with
  | outOfRange =>
    exact ⟨⟨rfl, rfl, rfl, rfl, rfl⟩, fun _ => rfl, rfl, fun _ => rfl, ⟨rfl, rfl⟩, rfl, fun _ => ⟨rfl, rfl, rfl, rfl, rfl, rfl⟩⟩
  | gen c ch f _ frame =>
    refine ⟨⟨rfl, rfl, rfl, rfl, rfl⟩, fun _ => rfl, rfl, fun _ => rfl, ⟨rfl, rfl⟩, rfl, fun e => ?_⟩
    rw [raise_chan, setChan_chan]
    split
    next he => rw [he, frame]; exact ⟨rfl, rfl, rfl, rfl, rfl, rfl⟩
    next => exact ⟨rfl, rfl, rfl, rfl, rfl, rfl⟩

end Sys2Proof.Machine
end

section
/-! PROOFS. The three faults of `GEN` (O27, O36, O37), off one inversion lemma for a `GEN` in a running block. -/

namespace Sys2Proof.Machine

/-- Settles O27: `r` is the native rate of the channel (`rate_eq`), so either form of the premise says that the tick does not fit `RAWCAP`. -/
theorem rateRangeFault : Obligations.RateRangeFault := by
  intro s c d r ha hr hrange
  have hneed : tickNeed s.cfg (s.chan c) = r * s.cfg.tickSec := by rw [hr]; exact congrArg (· * _) (rate_eq ..)
  have hfloor : (s.cfg.rawcap : Int) < (r * s.cfg.tickSec).floor := by
    rcases hrange with h | ⟨hsec, h⟩
    · exact h
    · rwa [hsec, ← div_eq_mul_one_div]
  refine exec_gen_rateRange ha ?_
  rw [tickCount, hneed]
  exact Int.lt_toNat.2 hfloor

/-- Every ending of `GEN c` in a running block, one constructor per path of R122. -/
inductive GenShape (s : State) (c : Chan) : State → Prop
  | silent (silent : Silent s c) : GenShape s c ((s.setChan c (silentPath s.cfg (s.chan c))).answer .absent)
  | rateRange (d) (active : Active s c d) (exceeds : s.cfg.rawcap < tickCount s.cfg (s.chan c)) : GenShape s c (s.raise .rateRange)
  | bounds (d) (active : Active s c d) (fits : tickCount s.cfg (s.chan c) ≤ s.cfg.rawcap)
      (stopped : (genReads s c d).bounds = true) :
      GenShape s c ((s.setChan c ((s.chan c).afterReads (genReads s c d))).raise .pcmBounds)
  | ends (d t) (active : Active s c d) (fits : tickCount s.cfg (s.chan c) ≤ s.cfg.rawcap)
      (complete : (genReads s c d).bounds = false) (ending : GenEnds s c (genReads s c d) t) : GenShape s c t

/-- The inversion lemma of `GEN` on a running block. -/
theorem shape_of_exec_gen {s t : State} {c : Chan} (hf : s.fault = false) (h : exec (.gen c) s = .next t) : GenShape s c t := by
  rw [exec_eq_next.1 h]
  by_cases hs : Silent s c
  · rw [after_eq (exec_gen_silent hf hs)]
    exact .silent hs
  obtain ⟨d, ha⟩ := active_of_not_silent hf hs
  rcases Nat.lt_or_ge s.cfg.rawcap (tickCount s.cfg (s.chan c)) with hn | hn
  · rw [after_eq (exec_gen_rateRange ha hn)]
    exact .rateRange d ha hn
  cases hb : (genReads s c d).bounds with
  | true =>
    rw [after_eq (exec_gen_bounds ha hn hb)]
    exact .bounds d ha hn hb
  | false => exact .ends d _ ha hn hb (after_gen_ends ha hn hb)

/-! `PcmBounds`. -/

/-- A stopped read loop stands at or beyond the sample end (R131). -/
theorem send_le_of_readLoop_stopped (sample : BitVec 18 → Rat) (d : Desc) (n : Nat) (cur : Cursor) :
    (readLoop sample d n cur).bounds = true → d.send ≤ (readLoop sample d n cur).cur.idx.toNat := by
  refine readLoop_induction sample d (P := fun _ _ r => r.bounds = true → d.send ≤ r.cur.idx.toNat) ?_ ?_ ?_ ?_ ?_ n cur
  · exact fun _ => nofun
  · exact fun _ _ _ => nofun
  · exact fun _ _ _ _ => nofun
  · exact fun _ _ _ _ hs _ => hs
  · exact fun _ _ _ _ _ _ ih => ih

/-- Settles O36: code 3 is the stopped read loop, which has written `RAW`, `IDX` and `LOOPACT` and stands at or beyond the sample end. -/
theorem pcmBoundsStopsBeforeTheRead : Obligations.PcmBoundsStopsBeforeTheRead := by
  intro s t c hf h ht hcode
  cases shape_of_exec_gen hf h with
  | silent => cases hf.symm.trans ht
  | rateRange => cases hcode
  | ends d _ _ _ _ ending =>
    cases ending with
    | failed => cases hcode
    | converted => cases hf.symm.trans ht
  | bounds d active _ stopped =>
    obtain ⟨-, -, hsil, hzf⟩ := readLoop_flags (scaledSample s (s.chan c)) d (tickCount s.cfg (s.chan c)) (s.chan c).cursor
    rw [raise_chan, setChan_chan_same]
    exact ⟨⟨d, active, send_le_of_readLoop_stopped _ d _ _ stopped⟩, rfl, rfl, hsil (hzf stopped), rfl, rfl⟩

/-! `ConvFail`. -/

/-- The state with the reference converter in the place of its own. -/
def State.withReference (s : State) : State := { s with cfg := { s.cfg with conv := .linear } }

section
variable {s t : State} {c : Chan} {d : Desc} {r : ReadOut}

theorem Active.withReference (h : Active s c d) : Active s.withReference c d := { h with }

/-- The synthesizer's part of `GEN` does not depend on the converter. -/
theorem genReads_withReference : genReads s.withReference c d = genReads s c d := rfl

/-- The reference converter always answers (R140). -/
theorem GenEnds.of_linear (h : GenEnds s c r t) (hc : s.cfg.conv = .linear) :
    ∃ cv out, t = (s.setChan c { afterSynth s.cfg (s.chan c) r with cv := cv, out := out }).answer .absent := by
  cases h with
  | failed _ fails => rw [hc] at fails; cases fails
  | converted => exact ⟨_, _, rfl⟩

/-- Code 2 is a converter that fails after the synthesizer's part (R182). -/
theorem GenShape.convFail (h : GenShape s c t) (hf : s.fault = false) (ht : t.fault = true) (hcode : t.fcode.toNat = 2) :
    ∃ d, Active s c d ∧ tickCount s.cfg (s.chan c) ≤ s.cfg.rawcap ∧ (genReads s c d).bounds = false ∧
      t = (s.setChan c (afterSynth s.cfg (s.chan c) (genReads s c d))).raise .convFail := by
  cases h with
  | silent => cases hf.symm.trans ht
  | rateRange => cases hcode
  | bounds => cases hcode
  | ends d _ active fits complete ending =>
    cases ending with
    | failed => exact ⟨d, active, fits, complete, rfl⟩
    | converted => cases hf.symm.trans ht

/-- `GEN` with the reference converter never raises `ConvFail`. -/
theorem GenShape.fcode_of_linear (h : GenShape s c t) (hc : s.cfg.conv = .linear) (hcode : t.fcode.toNat = 2) : s.fcode.toNat = 2 := by
  cases h with
  | silent => exact hcode
  | rateRange => cases hcode
  | bounds => cases hcode
  | ends _ _ _ _ _ ending =>
    obtain ⟨cv, out, rfl⟩ := ending.of_linear hc
    exact hcode

end

/-- The synthesizer's part writes neither `CV` nor `OUT`. -/
theorem afterSynth_keeps_converter (cfg : Cfg) (ch : Channel) (r : ReadOut) :
    afterSynth cfg ch r = { afterSynth cfg ch r with cv := ch.cv, out := ch.out } := by
  rw [afterSynth_frame]

/-- Settles O37: the run with the reference converter has the same read loop (`genReads_withReference`) and completes, and the two banks differ in
what the converter writes. -/
theorem convFailKeepsTheSynthesizerPart : Obligations.ConvFailKeepsTheSynthesizerPart := by
  refine ⟨fun s t u c hf h ht hcode hu => ?_, fun s t c hf hc h => (shape_of_exec_gen hf h).fcode_of_linear hc⟩
  obtain ⟨d, active, fits, complete, rfl⟩ := (shape_of_exec_gen hf h).convFail hf ht hcode
  have ending : GenEnds s.withReference c (genReads s c d) u := by
    rw [← genReads_withReference] at complete ⊢
    rw [exec_eq_next.1 hu]
    exact after_gen_ends active.withReference fits complete
  obtain ⟨cv, out, rfl⟩ := ending.of_linear rfl
  refine ⟨hf, ?_⟩
  rw [raise_chan, setChan_chan_same, answer_chan, setChan_chan_same]
  exact afterSynth_keeps_converter s.cfg (s.chan c) (genReads s c d)

end Sys2Proof.Machine
end

section
/-! PROOFS. Reset of a block whose converter can be constructed (O9). -/

namespace Sys2Proof.Machine

/-- A converter that can be constructed is the one the initial bank holds (R41, R213). -/
theorem convInit_of_constructs {cfg : Cfg} (hc : cfg.conv ≠ .failing) : convInit cfg.conv = some (Channel.afterReset cfg).cv := by
  show convInit cfg.conv = some ((convInit cfg.conv).getD freshConv)
  cases hsel : cfg.conv with
  | linear => rfl
  | custom k => rfl
  | failing => exact absurd hsel hc

/-- Settles O9: the registers are those of every reset (`resetAction_registersAreReset`); the initial state runs with a fresh converter in
each bank. -/
theorem resetSetsEveryRegister : Obligations.ResetSetsEveryRegister := by
  intro s rest hin hc
  have hconv := convInit_of_constructs hc
  refine ⟨_, step_reset hin, resetAction_registersAreReset { s with inputs := rest }, ?_⟩
  rw [resetAction_of_constructs (s := { s with inputs := rest }) hc]
  refine ⟨rfl, rfl, fun c => ?_, rfl⟩
  have hbank : (State.initial s.cfg s.pcm).chan c = Channel.afterReset s.cfg := initial_chan s.cfg s.pcm c
  exact hbank ▸ ⟨hconv, convInit_ratio hconv⟩

end Sys2Proof.Machine
end

section
/-! PROOFS. A tick of four silent channels (O53): every command completes, and every side of the generator buffer that has been written holds
zeros, an invariant that each `RUNCH` keeps while it marks its side. -/

namespace Sys2Proof.Machine

/-! The responses of a run whose commands all complete. -/

/-- A run gives one response per command (R12, R14). -/
theorem runInputs_responses_length (is : List Instr) (s : State) : (runInputs (commandsOf is) s).1.length = is.length := by
  induction is generalizing s with
  | nil => rfl
  | cons i is ih =>
    obtain ⟨r, hr⟩ := after_answers i s
    rw [runInputs_cons (Laws.decode_encode i), hr.response]
    simp [ih]

theorem Completes.responses {is : List Instr} {s t : State} (h : Completes is s t) :
    (runInputs (commandsOf is) s).1 = List.replicate is.length { status := .ok, data := .absent } :=
  List.eq_replicate_iff.2 ⟨runInputs_responses_length is s, h.2⟩

/-! `RUNCH` on a silent channel. -/

/-- The state `RUNCH c` leads to (R91). -/
def afterRunch (c : Chan) (s : State) : State := after (.mix c) (after (.gen c) s)

section
variable {s : State} {c : Chan}

theorem after_gen_silent (hf : s.fault = false) (hs : Silent s c) :
    after (.gen c) s = (s.setChan c (silentPath s.cfg (s.chan c))).answer .absent :=
  after_eq (exec_gen_silent hf hs)

theorem after_gen_silent_fault (hf : s.fault = false) (hs : Silent s c) : (after (.gen c) s).fault = false := by
  rw [after_gen_silent hf hs]
  exact hf

theorem completes_runch_silent (hf : s.fault = false) (hs : Silent s c) : Completes (pseudoRunch c) s (afterRunch c s) := by
  have hmix := exec_mix (after_gen_silent_fault hf hs) c
  rw [afterRunch, after_eq hmix]
  refine .cons (exec_gen_silent hf hs) ?_
  rw [← after_gen_silent hf hs]
  exact .cons hmix (.nil _)

theorem afterRunch_silent_fault (hf : s.fault = false) (hs : Silent s c) : (afterRunch c s).fault = false :=
  after_mix_fault (after_gen_silent_fault hf hs) c

theorem afterRunch_silent_mixedIn (hf : s.fault = false) (hs : Silent s c) : MixedIn c s (afterRunch c s) :=
  runch_mixedIn (afterRunch_silent_fault hf hs)

theorem afterRunch_silent_g (hf : s.fault = false) (hs : Silent s c) : (afterRunch c s).g = s.g := by
  rw [afterRunch, after_mix (after_gen_silent_fault hf hs), after_gen_silent hf hs]
  simp

theorem afterRunch_silent_desc (hf : s.fault = false) (hs : Silent s c) : SameDescs s (afterRunch c s) := fun k => by
  rw [afterRunch, after_mix (after_gen_silent_fault hf hs), after_gen_silent hf hs]
  simp

/-- Of its own bank `RUNCH` on a silent channel writes `OUT` and the converter only (R124). -/
theorem afterRunch_silent_chan_same (hf : s.fault = false) (hs : Silent s c) :
    (afterRunch c s).chan c = silentPath s.cfg (s.chan c) := by
  rw [afterRunch, after_mix (after_gen_silent_fault hf hs), after_gen_silent hf hs]
  simp

/-- A silent channel emits zeros (R124). -/
theorem afterRunch_silent_out (hf : s.fault = false) (hs : Silent s c) (j : Nat) : ((afterRunch c s).chan c).out.getD j 0 = 0 := by
  rw [afterRunch_silent_chan_same hf hs]
  simp [silentPath]

/-- What makes a channel silent (R123) is not written by `RUNCH` on a silent channel. -/
theorem Silent.afterRunch {e : Chan} (he : Silent s e) (hf : s.fault = false) (hs : Silent s c) : Silent (afterRunch c s) e := by
  unfold Silent
  rw [afterRunch_silent_desc hf hs]
  by_cases h : e = c
  · subst h
    rw [afterRunch_silent_chan_same hf hs]
    exact he
  · rw [(afterRunch_silent_mixedIn hf hs).others e h]
    exact he

end

/-! The tick. -/

/-- The mixer makes zero of zeros (R151, R152). -/
theorem mixValue_zero (cfg : Cfg) (written : Bool) {old : Rat} (h : written = true → old = 0) : mixValue cfg written old 0 = 0 := by
  cases written with
  | false => simp [mixValue]
  | true => simp [mixValue, h rfl]

/-- What holds within a tick of four silent channels that began in a state with configuration `cfg` and `G` = `g`: `zeros` says that the
stale contents of the generator buffer stand on the sides that no channel has written yet (R151). -/
structure SilentTick (cfg : Cfg) (g : Bool) (s : State) : Prop where
  running : s.fault = false
  cfg_eq : s.cfg = cfg
  g_eq : s.g = g
  silent : ∀ c, Silent s c
  zeros : ∀ d, s.sw d = true → ∀ j, j < cfg.nout → (frameAt s.genBuf j).get d = 0

section
variable {cfg : Cfg} {g : Bool} {s : State}

/-- With `SW` clear no side has been written. -/
theorem silentTick_start (hf : s.fault = false) (hl : s.swL = false) (hr : s.swR = false) (hsilent : ∀ c, Silent s c) :
    SilentTick s.cfg s.g s where
  running := hf
  cfg_eq := rfl
  g_eq := rfl
  silent := hsilent
  zeros d hd := by
    cases d with
    | left => cases hl.symm.trans hd
    | right => cases hr.symm.trans hd

theorem SilentTick.mixedIn (h : SilentTick cfg g s) (c : Chan) : MixedIn c s (afterRunch c s) :=
  afterRunch_silent_mixedIn h.running (h.silent c)

theorem SilentTick.completes (h : SilentTick cfg g s) (c : Chan) : Completes (pseudoRunch c) s (afterRunch c s) :=
  completes_runch_silent h.running (h.silent c)

theorem SilentTick.runch (h : SilentTick cfg g s) (c : Chan) : SilentTick cfg g (afterRunch c s) := by
  obtain ⟨hf, rfl, rfl, hsilent, hzeros⟩ := h
  have hmix := afterRunch_silent_mixedIn hf (hsilent c)
  refine ⟨afterRunch_silent_fault hf (hsilent c), hmix.cfg, afterRunch_silent_g hf (hsilent c),
    fun e => (hsilent e).afterRunch hf (hsilent c), fun d hd j hj => ?_⟩
  by_cases hside : d = sideOf c
  · subst hside
    rw [hmix.own j hj, afterRunch_silent_out hf (hsilent c)]
    exact mixValue_zero _ _ fun hsw => hzeros _ hsw j hj
  · rw [hmix.other j hj d hside]
    exact hzeros d (hmix.sw_other d hside ▸ hd) j hj

/-- With both sides written the generator buffer is silence. -/
theorem SilentTick.genBuf_eq (h : SilentTick cfg g s) (hlen : s.genBuf.length = cfg.nout) (hl : s.sw .left = true)
    (hr : s.sw .right = true) : s.genBuf = List.replicate cfg.nout { left := 0, right := 0 } := by
  refine buf_ext hlen List.length_replicate fun j hj => frame_ext_get fun d => ?_
  have hzero : (frameAt s.genBuf j).get d = 0 := by
    cases d with
    | left => exact h.zeros .left hl j hj
    | right => exact h.zeros .right hr j hj
  rw [hzero, frameAt, List.getD_replicate _ hj]
  cases d <;> rfl

end

/-- Settles O53: each `RUNCH` completes and keeps `SilentTick`, channels 3 and 2 are the last writers of the two sides, and `SWAP` shows the
buffer. -/
theorem silentTickIsAllZero : Obligations.SilentTickIsAllZero := by
  intro s r hf hl hr hsilent hrun
  have h := silentTick_start hf hl hr hsilent
  have h0 := h.runch 0
  have h1 := h0.runch 1
  have h2 := h1.runch 2
  have h3 := h2.runch 3
  have m2 := h1.mixedIn 2
  have m3 := h2.mixedIn 3
  have hswap := exec_swap h3.running
  have hfront := after_swap_frontBuf h3.running
  have tick := ((((h.completes 0).append (h0.completes 1)).append (h1.completes 2)).append (h2.completes 3)).append
    (.cons hswap (.nil _))
  rw [after_eq hswap] at hfront
  rw [hrun]
  refine ⟨tick.responses, ?_⟩
  rw [pseudoTick, tick.1]
  refine ⟨h3.running, congrArg (!·) h3.g_eq, rfl, rfl, hfront.trans (h3.genBuf_eq ?_ m3.sw_own ?_)⟩
  · rw [m3.length, h2.cfg_eq]
  · rw [m3.sw_other .right (by decide)]
    exact m2.sw_own

end Sys2Proof.Machine
end
